-- ==== Sys2Proof/Word.lean ====
section
/-! DEFINITION. The word types of the unit (00_scope R6: every value is an unsigned bit vector of a stated width). -/

namespace Sys2Proof

/-- A byte: a wire byte, a logical byte, a PBUF cell, an 8-bit register. -/
abbrev Byte := BitVec 8

/-- A 16-bit value: CRC16, RXLEN, IDX, RXMAX, the `n` field of a command word. -/
abbrev Half := BitVec 16

/-- A 32-bit value: a command word, a register-port transfer, CRC32, HVAL, RES, TMO. -/
abbrev Word := BitVec 32

end Sys2Proof
end

