-- ==== Sys2Proof/Machine/Checksum.lean ====
section
/-! DEFINITION. The three step functions of the Checksum Unit (40_checksum R90, R91, R95, R101) and the checks of a byte
sequence they fold to. -/

namespace Sys2Proof.Machine

/-- One shift of the 16-bit CRC: most significant bit first, polynomial 0x1021 (R91). -/
def crc16Shift (c : Half) : Half := if c.msb then (c <<< 1) ^^^ 0x1021#16 else c <<< 1

def crc16Shifts : Nat → Half → Half
  | 0, c => c
  | k + 1, c => crc16Shifts k (crc16Shift c)

/-- `crc16_step(c, b)` (R91). -/
def crc16Step (c : Half) (b : Byte) : Half := crc16Shifts 8 (c ^^^ (b.setWidth 16 <<< 8))

/-- One shift of the 32-bit CRC: least significant bit first, reflected polynomial 0xEDB88320 (R95). -/
def crc32Shift (c : Word) : Word := if c.getLsbD 0 then (c >>> 1) ^^^ 0xEDB88320#32 else c >>> 1

def crc32Shifts : Nat → Word → Word
  | 0, c => c
  | k + 1, c => crc32Shifts k (crc32Shift c)

/-- `crc32_step(c, b)` (R95). -/
def crc32Step (c : Word) (b : Byte) : Word := crc32Shifts 8 (c ^^^ b.setWidth 32)

/-- `sum8_step(s, b)` (R101): addition modulo 256. -/
def sum8Step (s b : Byte) : Byte := s + b

/-- The seeds (R92, R96, R99). -/
def crc16Seed : Half := 0x0000
def crc32Seed : Word := 0xFFFFFFFF
def sum8Seed : Byte := 0x00

/-- `crc16(m)` (R91). -/
def crc16Of (m : List Byte) : Half := m.foldl crc16Step crc16Seed

/-- The running, un-inverted value after `m` (R95). -/
def crc32Run (m : List Byte) : Word := m.foldl crc32Step crc32Seed

/-- `crc32(m)` (R95): inverted at finish. -/
def crc32Of (m : List Byte) : Word := ~~~ crc32Run m

/-- The modulo-256 sum of `m` (R101). -/
def sum8Of (m : List Byte) : Byte := m.foldl sum8Step sum8Seed

end Sys2Proof.Machine
end

