-- ==== Sys2Proof/Config.lean ====
section
/-! DEFINITION. What an implementation of the unit fixes (00_scope R5) and the free values.
The two parameters that a rule reads, PBUF_SIZE and CTLESC, are arguments of the model and stand in State as fields
no step changes (log entry 4); here are the legal range of PBUF_SIZE and the constants no rule gives a value for. -/

namespace Sys2Proof

/-- A legal PBUF_SIZE (R5: any value with 128 <= PBUF_SIZE <= 65535). -/
structure PbufSize where
  bytes : Nat
  atLeast : 128 ≤ bytes
  atMost : bytes ≤ 65535
deriving DecidableEq, Repr

/-- The spec's default (R5, D20): 1024 bytes. -/
def PbufSize.default : PbufSize := ⟨1024, by decide, by decide⟩

/-- The byte an unwritten PBUF cell holds after the `epoch`-th hardware reset (R42, R200; 93 U4: any value).
A free value: it has no body, so nothing can be proved about it. -/
opaque Config.unwrittenByte : (epoch address : Nat) → Byte

/-- REG_BASE (R5, R54): OPEN; no rule of the unit reads it. -/
opaque Config.regBase : Nat

/-- REG_STRIDE (R5, R54): OPEN; no rule of the unit reads it. -/
opaque Config.regStride : Nat

/-- R54: where a platform that maps the register port onto a bus places register `n`. -/
def Config.regAddress (n : Nat) : Nat := Config.regBase + n * Config.regStride

end Sys2Proof
end

