-- ==== Sys2Proof/Syntax.lean ====
section
/-! DEFINITION. The commands as syntax: one constructor per row of spec/opcode_table.json (30_encoding R63),
with operands of R65 already turned into named alternatives. -/

namespace Sys2Proof

/-- A header encoding, the 2-bit code of HENC, RXENC and the `enc` operand (10_state R16, 30_encoding R65). -/
inductive HdrEnc where
  | bin16 | hex | bin32 | reserved
deriving DecidableEq, Repr

/-- A frame-end marker, the 2-bit code of STATUS.FE and the `fe` operand (30_encoding R75). -/
inductive FrameEnd where
  | crce | crcg | crcq | crcw
deriving DecidableEq, Repr

/-- The `crc` operand of the XBK commands and XMODE (30_encoding R65, 10_state R33). -/
inductive CheckMode where
  | sum | crc
deriving DecidableEq, Repr

/-- The eighteen commands (30_encoding R63). Lengths are unsigned numbers; WellFormed bounds them by the 16-bit field. -/
inductive Instr where
  | rst
  | crc16Init
  | crc16Upd (byte : Byte)
  | crc16Fin
  | crc32Init
  | crc32Upd (byte : Byte)
  | crc32Fin
  | sum8Init
  | sum8Upd (byte : Byte)
  | escRst
  | escEnc (byte : Byte)
  | escDec (byte : Byte)
  | hdrTx (enc : HdrEnc)
  | hdrRx
  | spkTx (enc : HdrEnc) (fe : FrameEnd) (len : Nat)
  | spkRx (maxlen : Nat)
  | xbkTx (mode : CheckMode) (len : Nat)
  | xbkRx (mode : CheckMode)
deriving DecidableEq, Repr

/-- The mnemonic of the command's row (30_encoding R63). -/
def Instr.mnemonic : Instr → String
  | .rst => "RST"
  | .crc16Init => "CRC16.INIT"
  | .crc16Upd _ => "CRC16.UPD"
  | .crc16Fin => "CRC16.FIN"
  | .crc32Init => "CRC32.INIT"
  | .crc32Upd _ => "CRC32.UPD"
  | .crc32Fin => "CRC32.FIN"
  | .sum8Init => "SUM8.INIT"
  | .sum8Upd _ => "SUM8.UPD"
  | .escRst => "ESC.RST"
  | .escEnc _ => "ESC.ENC"
  | .escDec _ => "ESC.DEC"
  | .hdrTx _ => "HDR.TX"
  | .hdrRx => "HDR.RX"
  | .spkTx _ _ _ => "SPK.TX"
  | .spkRx _ => "SPK.RX"
  | .xbkTx _ _ => "XBK.TX"
  | .xbkRx _ => "XBK.RX"

end Sys2Proof
end

