-- ==== Sys2Proof/WellFormed.lean ====
section
/-! DEFINITION. Which terms of Instr an encoding can carry: the length operands fit the 16-bit field `n`
(30_encoding R60, R65). Every other operand is bounded by its type. A length above PBUF_SIZE or 128 and the reserved
encoding 3 ARE encodable (R64: they give BadOperand), so they are well formed. -/

namespace Sys2Proof

/-- A length operand fits the field `n` (R65: 0..65535). -/
def lenFits (len : Nat) : Bool := len < 65536

def Instr.wf : Instr → Bool
  | .rst => true
  | .crc16Init => true
  | .crc16Upd _ => true
  | .crc16Fin => true
  | .crc32Init => true
  | .crc32Upd _ => true
  | .crc32Fin => true
  | .sum8Init => true
  | .sum8Upd _ => true
  | .escRst => true
  | .escEnc _ => true
  | .escDec _ => true
  | .hdrTx _ => true
  | .hdrRx => true
  | .spkTx _ _ len => lenFits len
  | .spkRx maxlen => lenFits maxlen
  | .xbkTx _ len => lenFits len
  | .xbkRx _ => true

abbrev Instr.WellFormed (i : Instr) : Prop := i.wf = true

end Sys2Proof
end

