-- ==== Sys2Proof/Decode.lean ====
section
/-! DEFINITION. The command word (30_encoding Part A): operand codes, the total decoder, the encoder, the opcode map as
match and mask rows, and the assembler's spelling. -/

namespace Sys2Proof

/-! ### Operand codes (R65) -/

def HdrEnc.code : HdrEnc → BitVec 2
  | .bin16 => 0#2
  | .hex => 1#2
  | .bin32 => 2#2
  | .reserved => 3#2

def HdrEnc.ofCode (c : BitVec 2) : HdrEnc :=
  if c = 0#2 then .bin16 else if c = 1#2 then .hex else if c = 2#2 then .bin32 else .reserved

def FrameEnd.code : FrameEnd → BitVec 2
  | .crce => 0#2
  | .crcg => 1#2
  | .crcq => 2#2
  | .crcw => 3#2

def FrameEnd.ofCode (c : BitVec 2) : FrameEnd :=
  if c = 0#2 then .crce else if c = 1#2 then .crcg else if c = 2#2 then .crcq else .crcw

def CheckMode.code : CheckMode → BitVec 1
  | .sum => 0#1
  | .crc => 1#1

def CheckMode.ofCode (c : BitVec 1) : CheckMode := if c = 0#1 then .sum else .crc

/-! ### The fields of a word (R60) -/

def opField (w : Word) : Byte := w.extractLsb' 24 8
def aField (w : Word) : Byte := w.extractLsb' 16 8
def nField (w : Word) : Half := w.extractLsb' 0 16

/-- R60: the word with fields op, a, n. -/
def wordOf (op a : Byte) (n : Half) : Word := op ++ a ++ n

/-! ### Decoding (R61, R62, R64) -/

/-- Why a word is no command (R64); both complete IllegalCommand. -/
inductive DecodeError where
  /-- The opcode is not in the table. -/
  | noSuchOpcode (op : Byte)
  /-- The opcode is in the table and a bit its format requires to be 0 is 1. -/
  | reservedBitSet (op : Byte)
deriving DecidableEq, Repr

/-- `i` if every must-be-zero bit is 0, else the rejection by name. -/
def whenZero (op : Byte) (mustBeZero : Bool) (i : Instr) : Except DecodeError Instr :=
  if mustBeZero then .ok i else .error (.reservedBitSet op)

/-- The instruction a command word stands for, or why it stands for none. Formats N, B, M, L of R61. -/
def decode (w : Word) : Except DecodeError Instr :=
  let op := opField w
  let a := aField w
  let n := nField w
  let noOperand := a == 0#8 && n == 0#16
  let byteOnly := n == 0#16
  let lowBits (k : Nat) := a >>> k == 0#8
  match op with
  | 0x01#8 => whenZero op noOperand .rst
  | 0x10#8 => whenZero op noOperand .crc16Init
  | 0x11#8 => whenZero op byteOnly (.crc16Upd a)
  | 0x12#8 => whenZero op noOperand .crc16Fin
  | 0x14#8 => whenZero op noOperand .crc32Init
  | 0x15#8 => whenZero op byteOnly (.crc32Upd a)
  | 0x16#8 => whenZero op noOperand .crc32Fin
  | 0x18#8 => whenZero op noOperand .sum8Init
  | 0x19#8 => whenZero op byteOnly (.sum8Upd a)
  | 0x20#8 => whenZero op noOperand .escRst
  | 0x21#8 => whenZero op byteOnly (.escEnc a)
  | 0x22#8 => whenZero op byteOnly (.escDec a)
  | 0x30#8 => whenZero op (lowBits 2 && byteOnly) (.hdrTx (.ofCode (a.extractLsb' 0 2)))
  | 0x31#8 => whenZero op noOperand .hdrRx
  | 0x40#8 => whenZero op (lowBits 4) (.spkTx (.ofCode (a.extractLsb' 0 2)) (.ofCode (a.extractLsb' 2 2)) n.toNat)
  | 0x41#8 => whenZero op (lowBits 0) (.spkRx n.toNat)
  | 0x50#8 => whenZero op (lowBits 1) (.xbkTx (.ofCode (a.extractLsb' 0 1)) n.toNat)
  | 0x51#8 => whenZero op (lowBits 1 && byteOnly) (.xbkRx (.ofCode (a.extractLsb' 0 1)))
  | _ => .error (.noSuchOpcode op)

/-! ### Encoding (R60, R61, R63, R65) -/

def encode : Instr → Word
  | .rst => wordOf 0x01 0 0
  | .crc16Init => wordOf 0x10 0 0
  | .crc16Upd byte => wordOf 0x11 byte 0
  | .crc16Fin => wordOf 0x12 0 0
  | .crc32Init => wordOf 0x14 0 0
  | .crc32Upd byte => wordOf 0x15 byte 0
  | .crc32Fin => wordOf 0x16 0 0
  | .sum8Init => wordOf 0x18 0 0
  | .sum8Upd byte => wordOf 0x19 byte 0
  | .escRst => wordOf 0x20 0 0
  | .escEnc byte => wordOf 0x21 byte 0
  | .escDec byte => wordOf 0x22 byte 0
  | .hdrTx enc => wordOf 0x30 (0#6 ++ enc.code) 0
  | .hdrRx => wordOf 0x31 0 0
  | .spkTx enc fe len => wordOf 0x40 (0#4 ++ fe.code ++ enc.code) (BitVec.ofNat 16 len)
  | .spkRx maxlen => wordOf 0x41 0 (BitVec.ofNat 16 maxlen)
  | .xbkTx mode len => wordOf 0x50 (0#7 ++ mode.code) (BitVec.ofNat 16 len)
  | .xbkRx mode => wordOf 0x51 (0#7 ++ mode.code) 0

/-- R50, R62: the one word the command port accepts while a streaming command is active. -/
def rstWord : Word := 0x01000000#32

/-! ### The opcode map (R63) -/

/-- A row of R63: a word selects it iff `w &&& mask = pattern`. -/
structure OpcodeRow where
  mnemonic : String
  pattern : Word
  mask : Word
deriving DecidableEq, Repr

def OpcodeRow.selects (r : OpcodeRow) (w : Word) : Bool := w &&& r.mask == r.pattern

def opcodeMapSysCsu : List OpcodeRow :=
  [⟨"RST", 0x01000000, 0xFFFFFFFF⟩,
   ⟨"CRC16.INIT", 0x10000000, 0xFFFFFFFF⟩,
   ⟨"CRC16.UPD", 0x11000000, 0xFF00FFFF⟩,
   ⟨"CRC16.FIN", 0x12000000, 0xFFFFFFFF⟩,
   ⟨"CRC32.INIT", 0x14000000, 0xFFFFFFFF⟩,
   ⟨"CRC32.UPD", 0x15000000, 0xFF00FFFF⟩,
   ⟨"CRC32.FIN", 0x16000000, 0xFFFFFFFF⟩,
   ⟨"SUM8.INIT", 0x18000000, 0xFFFFFFFF⟩,
   ⟨"SUM8.UPD", 0x19000000, 0xFF00FFFF⟩]

def opcodeMapFraming : List OpcodeRow :=
  [⟨"ESC.RST", 0x20000000, 0xFFFFFFFF⟩,
   ⟨"ESC.ENC", 0x21000000, 0xFF00FFFF⟩,
   ⟨"ESC.DEC", 0x22000000, 0xFF00FFFF⟩,
   ⟨"HDR.TX", 0x30000000, 0xFFFCFFFF⟩,
   ⟨"HDR.RX", 0x31000000, 0xFFFFFFFF⟩,
   ⟨"SPK.TX", 0x40000000, 0xFFF00000⟩,
   ⟨"SPK.RX", 0x41000000, 0xFFFF0000⟩,
   ⟨"XBK.TX", 0x50000000, 0xFFFE0000⟩,
   ⟨"XBK.RX", 0x51000000, 0xFFFEFFFF⟩]

def opcodeMap : List OpcodeRow := opcodeMapSysCsu ++ opcodeMapFraming

/-! ### The assembler's spelling (R66) -/

def hexChar (d : Nat) : Char := "0123456789ABCDEF".toList.getD d '?'

/-- A byte operand in hexadecimal, as in R66's examples; R6 would admit decimal too (log entry 15). -/
def hexByteText (b : Byte) : String :=
  "0x" ++ String.ofList [hexChar (b.toNat / 16), hexChar (b.toNat % 16)]

/-- The spelling of `enc`. R66 spells BIN16, HEX and BIN32 only; DESIGN CHOICE: the reserved value is written as its number, 3
(log entry 15). -/
def HdrEnc.name : HdrEnc → String
  | .bin16 => "BIN16"
  | .hex => "HEX"
  | .bin32 => "BIN32"
  | .reserved => "3"

def FrameEnd.name : FrameEnd → String
  | .crce => "E"
  | .crcg => "G"
  | .crcq => "Q"
  | .crcw => "W"

def CheckMode.name : CheckMode → String
  | .sum => "SUM"
  | .crc => "CRC"

/-- The operands in the order of R66: enc, fe or crc, length or byte. -/
def Instr.operandTexts : Instr → List String
  | .crc16Upd byte | .crc32Upd byte | .sum8Upd byte | .escEnc byte | .escDec byte => [hexByteText byte]
  | .hdrTx enc => [enc.name]
  | .spkTx enc fe len => [enc.name, fe.name, toString len]
  | .spkRx maxlen => [toString maxlen]
  | .xbkTx mode len => [mode.name, toString len]
  | .xbkRx mode => [mode.name]
  | .rst | .crc16Init | .crc16Fin | .crc32Init | .crc32Fin | .sum8Init | .escRst | .hdrRx => []

/-- R66: the mnemonic followed by its operands, separated by commas. -/
def Instr.asm (i : Instr) : String :=
  match i.operandTexts with
  | [] => i.mnemonic
  | o => i.mnemonic ++ " " ++ ", ".intercalate o

/-! ### The word of a row of the opcode table, as the table numbers its bits -/

/-- Bit 0 of a table word is bit 0 of the one 32-bit word; the bits from `nbits` up are 0. -/
def tableWord (nbits w : Nat) : Word := BitVec.ofNat 32 (w % 2 ^ nbits)

def decodeTableWord (nbits w : Nat) : Option Instr := (decode (tableWord nbits w)).toOption

end Sys2Proof
end

