-- ==== Sys2Proof/Machine/Wire.lean ====
section
/-! DEFINITION. The wire constants (30_encoding R70, R71, R75, R80) and the byte orders of the multi-byte quantities
(20_memory R43). -/

namespace Sys2Proof.Machine

/-! ### Single bytes (R70) -/

def zpad : Byte := 0x2A
/-- The escape byte; the cancel byte CAN has the same value. -/
def zdle : Byte := 0x18
def charCR : Byte := 0x0D
def charLF : Byte := 0x0A
def zrub0 : Byte := 0x6C
def zrub1 : Byte := 0x6D
def soh : Byte := 0x01
def eot : Byte := 0x04

/-- The format byte of a header encoding: its code plus 0x41 (R71). -/
def formatByte (enc : HdrEnc) : Byte := 0x41 + enc.code.setWidth 8

/-- The encoding a format byte names (R71), if it is one of the three. -/
def encOfFormat (w : Byte) : Option HdrEnc :=
  if w = 0x41 then some .bin16 else if w = 0x42 then some .hex else if w = 0x43 then some .bin32 else none

/-- The letter of a frame-end marker: its code plus 0x68 (R75). -/
def letterOf (fe : FrameEnd) : Byte := 0x68 + fe.code.setWidth 8

/-- The frame-end marker a letter names (R75), if it is one of the four. -/
def frameEndOf (w : Byte) : Option FrameEnd :=
  if w = 0x68 then some .crce else if w = 0x69 then some .crcg
  else if w = 0x6A then some .crcq else if w = 0x6B then some .crcw else none

/-! ### Byte orders (R43) -/

/-- Low byte first: HVAL (R43 a) and the finished 32-bit CRC (R43 c). -/
def leBytes (w : Word) : List Byte :=
  [w.extractLsb' 0 8, w.extractLsb' 8 8, w.extractLsb' 16 8, w.extractLsb' 24 8]

/-- High byte first: the 16-bit CRC (R43 b). -/
def beBytes (h : Half) : List Byte := [h.extractLsb' 8 8, h.extractLsb' 0 8]

/-- The 32-bit value whose bytes, low byte first, are `b0 b1 b2 b3`. -/
def ofLe (b0 b1 b2 b3 : Byte) : Word :=
  b0.setWidth 32 ||| b1.setWidth 32 <<< 8 ||| b2.setWidth 32 <<< 16 ||| b3.setWidth 32 <<< 24

/-- The 16-bit value whose bytes, high byte first, are `hi lo`. -/
def ofBe (hi lo : Byte) : Half := hi.setWidth 16 <<< 8 ||| lo.setWidth 16

/-! ### Hex digits (R80, R43 d) -/

/-- The lower-case digit of a nibble. -/
def hexDigit (d : BitVec 4) : Byte := if d < 10#4 then 0x30 + d.setWidth 8 else 0x57 + d.setWidth 8

/-- `hex(b)`: the digit of the high nibble, then of the low nibble. -/
def hexPair (b : Byte) : List Byte := [hexDigit (b.extractLsb' 4 4), hexDigit (b.extractLsb' 0 4)]

/-- The value of a digit; every byte but 0x30..0x39 and 0x61..0x66 is no digit. -/
def hexVal (w : Byte) : Option (BitVec 4) :=
  if 0x30#8 ≤ w ∧ w ≤ 0x39#8 then some ((w - 0x30#8).setWidth 4)
  else if 0x61#8 ≤ w ∧ w ≤ 0x66#8 then some ((w - 0x57#8).setWidth 4)
  else none

/-! ### Header type names (R74): the unit carries the code uninterpreted (42_header R131) -/

def headerTypeNames : List String :=
  ["RQINIT", "RINIT", "SINIT", "ACK", "FILE", "SKIP", "NAK", "ABORT", "FIN", "RPOS"]
    ++ ["DATA", "EOF", "FERR", "CRC", "CHALLENGE", "COMPL", "CAN", "FREECNT", "COMMAND", "STDERR"]

/-- The name of a header type code; codes 20 to 255 have none. -/
def headerTypeName (code : Byte) : Option String := headerTypeNames[code.toNat]?

end Sys2Proof.Machine
end

