-- ==== Sys2Proof/Machine/Escape.lean ====
section
/-! DEFINITION. The escape encoder (41_escape R106) and decoder (R108) as functions of their arguments; Machine/Ops.lean
applies them to the state. -/

namespace Sys2Proof.Machine

/-! ### The encoder (R106) -/

/-- The bytes escaped in any case: the flow-control characters with DLE and their bit-7 variants, and the escape byte. -/
def alwaysEscaped (b : Byte) : Bool :=
  b == 0x10 || b == 0x11 || b == 0x13 || b == 0x18 || b == 0x90 || b == 0x91 || b == 0x93

/-- `esc_needs(b, last)` (R106). -/
def escNeeds (ctlesc : Bool) (b last : Byte) : Bool :=
  b &&& 0x60 == 0
    && (ctlesc || alwaysEscaped b || ((b == 0x0D || b == 0x8D) && last &&& 0x7F == 0x40))

/-- The one or two wire bytes of a logical byte (R106, 30_encoding R76). -/
def escWire (ctlesc : Bool) (last b : Byte) : List Byte :=
  if escNeeds ctlesc b last then [zdle, b ^^^ 0x40] else [b]

/-- LASTTX after the byte (R106): the last wire byte put. -/
def escLast (ctlesc : Bool) (last b : Byte) : Byte :=
  if escNeeds ctlesc b last then b ^^^ 0x40 else b

/-- The wire bytes of a sequence of logical bytes, each put through the encoder in turn. -/
def escWires (ctlesc : Bool) : Byte → List Byte → List Byte
  | _, [] => []
  | last, b :: bs => escWire ctlesc last b ++ escWires ctlesc (escLast ctlesc last b) bs

/-- LASTTX after a sequence of logical bytes. -/
def escLasts (ctlesc : Bool) (last : Byte) (bs : List Byte) : Byte := bs.foldl (escLast ctlesc) last

/-! ### The decoder (R108) -/

/-- The events of `EscDec`. A frame end carries which of the four markers it is. -/
inductive EscEvent where
  | data (b : Byte)
  | escapeStarted
  | frameEnd (fe : FrameEnd)
  | abort
  | badEscape (w : Byte)
deriving DecidableEq, Repr

/-- Step (1) of R108: the length of the cancel run after wire byte `w`, saturating at 5. -/
def cancelRun (cancnt : BitVec 3) (w : Byte) : BitVec 3 :=
  if w = zdle then BitVec.ofNat 3 (min (cancnt.toNat + 1) 5) else 0

/-- The second byte of a pair (R108 step 5), for a byte other than 0x18. -/
def escSecond (w : Byte) : EscEvent :=
  match frameEndOf w with
  | some fe => .frameEnd fe
  | none =>
    if w = zrub0 then .data 0x7F
    else if w = zrub1 then .data 0xFF
    else if w &&& 0x60 = 0x40 then .data (w ^^^ 0x40)
    else .badEscape w

/-- The event of `EscDec(w)`, given ESCP and the cancel run that already counts `w` (R108 steps 2 to 5). -/
def escEvent (escp : Bool) (run : BitVec 3) (w : Byte) : EscEvent :=
  if run = 5 then .abort
  else if w = zdle then .escapeStarted
  else if escp then escSecond w
  else .data w

/-- ESCP after `EscDec(w)` (R108): 1 exactly after EscapeStarted. -/
def escPending (run : BitVec 3) (w : Byte) : Bool := run != 5 && w == zdle

/-- The events of `EscDec` over a sequence of wire bytes, from ESCP and CANCNT. -/
def escEvents : Bool → BitVec 3 → List Byte → List EscEvent
  | _, _, [] => []
  | escp, cancnt, w :: ws =>
    let run := cancelRun cancnt w
    escEvent escp run w :: escEvents (escPending run w) run ws

end Sys2Proof.Machine
end

