-- ==== Sys2Proof/Machine/State.lean ====
section
/-! DEFINITION. The state of the unit (10_state R10) as plain data, the port steps of the outside agents (20_memory R46),
the reasons a step can stop, and the state right after reset (10_state R35, 70_reset R200). -/

namespace Sys2Proof.Machine

/-- PBUF (20_memory R40, R41): the written cells, addresses strictly rising. An address with no cell holds no value
that the model knows (R42). -/
abbrev Memory := List Host.Cell

/-- RXMODE (10_state R27). The codes 4 to 7 never occur. -/
inductive RxMode where
  | idle | hdr | spk | xbk
deriving DecidableEq, Repr

/-- STATUS.OUTCOME (60_exceptions R180). The codes 9 to 15 are never produced. -/
inductive CmdOutcome where
  | none | ok | timedOut | corrupt | overrun | abort | ended | illegalCommand | badOperand
deriving DecidableEq, Repr

/-- STATUS.CAUSE (60_exceptions R181). The codes 7 to 15 are never produced. -/
inductive Cause where
  | none | checkMismatch | badEscape | unexpectedFrameEnd | badHexDigit | badStart | badComplement
deriving DecidableEq, Repr

/-- What the RX transport delivers (20_memory R48). -/
inductive RxEvent where
  | byte (b : Byte)
  | timeout
deriving DecidableEq, Repr

/-- One step of the outside world at a port of the unit (20_memory R46), or hardware reset (70_reset R200). -/
inductive PortStep where
  | cmd (w : Word)
  | regRead (n : Nat)
  | regWrite (n : Nat) (v : Word)
  | bufRead (a : Nat)
  | bufWrite (a : Nat) (b : Byte)
  | rx (e : RxEvent)
  | txTake
  | hardReset
deriving DecidableEq, Repr

/-- What a port hands out: a register value (45_system R172), a PBUF byte (R174), a byte taken from the TX queue (R175). -/
inductive Reply where
  | reg (n : Nat) (v : Word)
  | buf (a : Nat) (b : Byte)
  | tx (b : Byte)
deriving DecidableEq, Repr

/-- Positions no rule gives a meaning to. No run reaches them (10_state R30, 93 U12); stopping there is safe. -/
inductive Fault where
  /-- An RX event in HDR or XBK mode finds a PHASE value the spec names for no phase of that mode (10_state R28). Raised by
  the RX-event rules of HDR.RX and XBK.RX. Safe. -/
  | unnamedPhase
  /-- A received header byte has an index past HBUF[8] (10_state R31). Raised by the RX-event rule of HDR.RX. Safe. -/
  | hbufIndex
  /-- A trailer byte has an index past TBUF[3] (10_state R32). Raised by the RX-event rules of SPK.RX and XBK.RX. Safe. -/
  | tbufIndex
  /-- The unit stores a payload byte at an address PBUF does not have (20_memory R41). Raised by the RX-event rules of
  SPK.RX and XBK.RX. Safe. -/
  | pbufAddress
deriving DecidableEq, Repr

/-- Port steps that are not enabled: the spec says they do not happen and have no meaning (20_memory R50). All safe. -/
inductive Refusal where
  /-- An instruction with no meaning yet. Raised by exec alone. Safe. -/
  | notModelled (mnemonic : String)
  /-- A command word other than RST while a streaming command is active (R50). Raised by the command port. Safe. -/
  | commandWhileBusy
  /-- A register write while a streaming command is active (R50). Raised by the register port. Safe. -/
  | registerWriteWhileBusy
  /-- A PBUF access while a streaming command is active (R50). Raised by the PBUF port. Safe. -/
  | bufferAccessWhileBusy
  /-- A PBUF port address that is not below PBUF_SIZE (R41). Raised by the PBUF port. Safe. -/
  | bufferAddress
  /-- An RX event while the unit is idle and requests none (R49, R50). Raised by the RX port. Safe. -/
  | rxWhileIdle
  /-- A take from an empty TX queue (R46, R175). Raised by the TX port. Safe. -/
  | txQueueEmpty
  /-- No agent presents a further step: nothing is enabled (60_exceptions R191). Raised by step. Safe. -/
  | nothingPresented
deriving DecidableEq, Repr

structure State where
  /-- Register 3 (10_state R11). -/
  crc16 : Half
  /-- Register 4, running and un-inverted (R12). -/
  crc32 : Word
  /-- Register 5 (R13). -/
  sum8 : Byte
  /-- Register 6 (R14). -/
  htype : Byte
  /-- Register 7 (R15). -/
  hval : Word
  /-- Register 8 (R16). -/
  henc : HdrEnc
  /-- Register 10 (R17). -/
  xblk : Byte
  /-- Register 11 (R18). -/
  xrblk : Byte
  /-- Register 12 (R19). -/
  rxlen : Half
  /-- Register 14 (R25). -/
  tmo : Word
  /-- Register 2 (R21). -/
  res : Word
  /-- STATUS.OUTCOME (R20). -/
  outcome : CmdOutcome
  /-- STATUS.CAUSE (R20). -/
  cause : Cause
  /-- STATUS.FE (R20). -/
  fe : FrameEnd
  /-- ESCP (R22, R34). -/
  escp : Bool
  /-- CANCNT (R22, R34). -/
  cancnt : BitVec 3
  /-- LASTTX (R22, R34). -/
  lasttx : Byte
  /-- RXMODE (R27). -/
  rxmode : RxMode
  /-- PHASE (R28). -/
  phase : BitVec 3
  /-- IDX (R29). -/
  idx : Half
  /-- TIDX (R29). -/
  tidx : BitVec 3
  /-- HBUF[0..8] (R31). -/
  hbuf : Vector Byte 9
  /-- TBUF[0..3] (R32). -/
  tbuf : Vector Byte 4
  /-- RXENC (R33). -/
  rxenc : HdrEnc
  /-- RXC32 (R33). -/
  rxc32 : Bool
  /-- RXMAX (R33). -/
  rxmax : Half
  /-- XMODE (R33). -/
  xmode : CheckMode
  /-- PBUF (20_memory R40). -/
  pbuf : Memory
  /-- The TX queue, head first (20_memory R47). -/
  txq : List Byte
  /-- MODEL FIELD: the parameter PBUF_SIZE (00_scope R5); no step changes it (log entry 4). -/
  pbufSize : PbufSize
  /-- MODEL FIELD: the parameter CTLESC (00_scope R5); no step changes it (log entry 4). -/
  ctlesc : Bool
  /-- MODEL FIELD: how many hardware resets there were; it picks the free value of an unwritten PBUF byte (log entry 5). -/
  epoch : Nat
  /-- MODEL FIELD: the port steps still to come, in their total order (20_memory R46, R51; log entry 1). -/
  agenda : List PortStep
  /-- MODEL FIELD: what the ports have handed out, oldest first (log entry 3). -/
  replies : List Reply
deriving DecidableEq, Repr

/-- What a meaning and a port step answer. -/
abbrev Result := Host.Outcome State Fault Refusal

/-- R35, R200. HBUF and TBUF are the model's choice (log entry 6), as are the model's own fields (log entries 1, 3, 4, 5). -/
def State.reset : State where
  crc16 := 0x0000
  crc32 := 0xFFFFFFFF
  sum8 := 0x00
  htype := 0x00
  hval := 0x00000000
  henc := .bin16
  xblk := 0x00
  xrblk := 0x00
  rxlen := 0x0000
  tmo := 0x00000000
  res := 0x00000000
  outcome := .none
  cause := .none
  fe := .crce
  escp := false
  cancnt := 0
  lasttx := 0x00
  rxmode := .idle
  phase := 0
  idx := 0
  tidx := 0
  hbuf := Vector.replicate 9 0
  tbuf := Vector.replicate 4 0
  rxenc := .bin16
  rxc32 := false
  rxmax := 0
  xmode := .sum
  pbuf := []
  txq := []
  pbufSize := PbufSize.default
  ctlesc := false
  epoch := 0
  agenda := []
  replies := []

end Sys2Proof.Machine
end

