-- ==== Sys2Proof/Machine/Flags.lean ====
section
/-! DEFINITION. The codes of STATUS and the three views (10_state R20, R22, R23, R27; 60_exceptions R180, R181). -/

namespace Sys2Proof.Machine

/-- R180. -/
def CmdOutcome.code : CmdOutcome → BitVec 4
  | .none => 0
  | .ok => 1
  | .timedOut => 2
  | .corrupt => 3
  | .overrun => 4
  | .abort => 5
  | .ended => 6
  | .illegalCommand => 7
  | .badOperand => 8

/-- R181. -/
def Cause.code : Cause → BitVec 4
  | .none => 0
  | .checkMismatch => 1
  | .badEscape => 2
  | .unexpectedFrameEnd => 3
  | .badHexDigit => 4
  | .badStart => 5
  | .badComplement => 6

/-- R27. -/
def RxMode.code : RxMode → BitVec 3
  | .idle => 0
  | .hdr => 1
  | .spk => 2
  | .xbk => 3

/-- STATUS.BUSY (R20): 1 iff RXMODE != IDLE. -/
def State.busy (s : State) : Bool := s.rxmode != .idle

/-- STATUS = `FE << 9 | BUSY << 8 | CAUSE << 4 | OUTCOME` (R20, R172). -/
def State.statusView (s : State) : Word :=
  s.fe.code.setWidth 32 <<< 9 ||| (BitVec.ofBool s.busy).setWidth 32 <<< 8
    ||| s.cause.code.setWidth 32 <<< 4 ||| s.outcome.code.setWidth 32

/-- ESCST = `LASTTX << 8 | CANCNT << 4 | ESCP` (R22, R172). -/
def State.escstView (s : State) : Word :=
  s.lasttx.setWidth 32 <<< 8 ||| s.cancnt.setWidth 32 <<< 4 ||| (BitVec.ofBool s.escp).setWidth 32

/-- RXST = `RXENC << 27 | TIDX << 24 | IDX << 8 | PHASE << 4 | RXMODE` (R23, R172). -/
def State.rxstView (s : State) : Word :=
  s.rxenc.code.setWidth 32 <<< 27 ||| s.tidx.setWidth 32 <<< 24 ||| s.idx.setWidth 32 <<< 8
    ||| s.phase.setWidth 32 <<< 4 ||| s.rxmode.code.setWidth 32

/-- ID (R24): 'P' 'B' 'F' and the spec version 1. -/
def idValue : Word := 0x50424601

end Sys2Proof.Machine
end

