-- ==== Sys2Proof/Machine/Memory.lean ====
section
/-! DEFINITION. PBUF as a list of written cells in one canonical form (20_memory R40 to R42). -/

namespace Sys2Proof.Machine

/-- What an address with no cell reads as: no value (R42). -/
def Memory.unlisted : Option Byte := none

/-- The byte written last at `a`, if any was since hardware reset. -/
def Memory.read : Memory → Nat → Option Byte
  | [], _ => Memory.unlisted
  | (k, v) :: rest, a => if k = a then some v else Memory.read rest a

/-- Store `b` at `a`, keeping the addresses strictly rising. -/
def Memory.write : Memory → Nat → Byte → Memory
  | [], a, b => [(a, b)]
  | (k, v) :: rest, a, b =>
    if a < k then (a, b) :: (k, v) :: rest
    else if a = k then (a, b) :: rest
    else (k, v) :: Memory.write rest a b

/-- The canonical form: addresses strictly rising. An unlisted address holds no value, so no cell can equal it. -/
abbrev Memory.wf (m : Memory) : Prop := m.Pairwise (fun x y => x.1 < y.1)

end Sys2Proof.Machine
end

