-- ==== Sys2Proof/Machine/Operands.lean ====
section
/-! DEFINITION. What the commands read: the operand range checks (60_exceptions R184), the header body (42_header R120),
the payload bytes in PBUF (20_memory R41, R42). -/

namespace Sys2Proof.Machine

/-- PBUF_SIZE. -/
def State.size (s : State) : Nat := s.pbufSize.bytes

/-- R184: HDR.TX is refused its operand when enc = 3. -/
def hdrTxBad (enc : HdrEnc) : Bool := enc == .reserved

/-- R184: SPK.TX, enc = 3 or len > PBUF_SIZE. -/
def State.spkTxBad (s : State) (enc : HdrEnc) (len : Nat) : Bool := enc == .reserved || decide (s.size < len)

/-- R184: SPK.RX, HENC = 3 or maxlen > PBUF_SIZE. -/
def State.spkRxBad (s : State) (maxlen : Nat) : Bool := s.henc == .reserved || decide (s.size < maxlen)

/-- R184: XBK.TX, len > 128. -/
def xbkTxBad (len : Nat) : Bool := decide (128 < len)

/-- 43_subpacket R145: the check is 32 bits wide iff the encoding is BIN32. -/
def wideCheck (enc : HdrEnc) : Bool := enc == .bin32

/-- B[0..4] of R120: the type, then the value low byte first (R15, R43 a). -/
def State.headerBody (s : State) : List Byte := s.htype :: leBytes s.hval

/-- PBUF[a] (R41). A byte nothing has written since hardware reset is a free value (R42; log entry 5). -/
def State.pbufByte (s : State) (a : Nat) : Byte := (s.pbuf.read a).getD (Config.unwrittenByte s.epoch a)

/-- PBUF[0 .. len-1]. -/
def State.payload (s : State) (len : Nat) : List Byte := (List.range len).map s.pbufByte

/-- The 128 payload bytes of XBK.TX: PBUF[i] for i < len, zero-padded (44_xblock R156). -/
def State.blockPayload (s : State) (len : Nat) : List Byte :=
  (List.range 128).map (fun i => if i < len then s.pbufByte i else 0x00)

end Sys2Proof.Machine
end

