-- ==== Sys2Proof/Machine/Ops.lean ====
section
/-! DEFINITION. The named operations over the state: the spec's pseudocode primitives (00_scope R7), completion
(60_exceptions R186), the receive buffers, PBUF stores, and reset. -/

namespace Sys2Proof.Machine

/-! ### Completion: the unit's only exception entry (60_exceptions R186) -/

/-- `complete(o, c)` (R186). -/
def State.complete (s : State) (o : CmdOutcome) (c : Cause) : State :=
  { s with outcome := o, cause := c, rxmode := .idle }

/-- `complete(o, c)` together with the RES value that every rule calling it states (R21, R186). -/
def State.finish (s : State) (o : CmdOutcome) (c : Cause) (res : Word) : State :=
  { s.complete o c with res := res }

/-- A completion that is not Ok: RES is 0 (R182). -/
def State.failWith (s : State) (o : CmdOutcome) (c : Cause) : State := s.finish o c 0

/-- R183. -/
def State.illegalCommand (s : State) : State := s.failWith .illegalCommand .none

/-- R184. -/
def State.badOperand (s : State) : State := s.failWith .badOperand .none

/-- The acceptance of a streaming command (42_header R123, 43_subpacket R146, 44_xblock R160): no completion yet. -/
def State.activate (s : State) (m : RxMode) : State :=
  { s with rxmode := m, phase := 0, idx := 0, outcome := .none, cause := .none }

/-! ### Checks (R7 Fold16, Fold32; 40_checksum) -/

/-- Seed CRC32 with all ones if `c32`, else CRC16 with 0. -/
def State.seedCheck (s : State) (c32 : Bool) : State :=
  if c32 then { s with crc32 := crc32Seed } else { s with crc16 := crc16Seed }

/-- Fold one logical byte into CRC32 if `c32`, else into CRC16. -/
def State.foldCheck (s : State) (c32 : Bool) (b : Byte) : State :=
  if c32 then { s with crc32 := crc32Step s.crc32 b } else { s with crc16 := crc16Step s.crc16 b }

/-- Seed, then fold a sequence. -/
def State.checkOver (s : State) (c32 : Bool) (m : List Byte) : State :=
  if c32 then { s with crc32 := crc32Run m } else { s with crc16 := crc16Of m }

/-- The check's bytes as they cross the wire (R43 b, c): CRC16 high byte first, or ~CRC32 low byte first. -/
def State.trailer (s : State) (c32 : Bool) : List Byte :=
  if c32 then leBytes (~~~ s.crc32) else beBytes s.crc16

/-- Seed the check of an XMODEM block by its mode (44_xblock R156, R160). -/
def State.seedBlock (s : State) (mode : CheckMode) : State :=
  match mode with
  | .crc => { s with crc16 := crc16Seed }
  | .sum => { s with sum8 := sum8Seed }

/-- Fold one payload byte of an XMODEM block (44_xblock R156, R161). -/
def State.foldBlock (s : State) (mode : CheckMode) (b : Byte) : State :=
  match mode with
  | .crc => { s with crc16 := crc16Step s.crc16 b }
  | .sum => { s with sum8 := sum8Step s.sum8 b }

/-- The check over a whole block payload (44_xblock R156). -/
def State.blockOver (s : State) (mode : CheckMode) (m : List Byte) : State :=
  match mode with
  | .crc => { s with crc16 := crc16Of m }
  | .sum => { s with sum8 := sum8Of m }

/-- The trailer of an XMODEM block (30_encoding R78). -/
def State.blockTrailer (s : State) (mode : CheckMode) : List Byte :=
  match mode with
  | .crc => beBytes s.crc16
  | .sum => [s.sum8]

/-! ### Transmit (R7 TxPut, TxPutEsc; 20_memory R47, 41_escape R106) -/

/-- `TxPut` of each byte in order: raw, at the tail. -/
def State.txPut (s : State) (bs : List Byte) : State := { s with txq := s.txq ++ bs }

/-- `TxPutEsc` of each byte in order: the escape encoder, which alone writes LASTTX. -/
def State.txPutEsc (s : State) (bs : List Byte) : State :=
  { s with txq := s.txq ++ escWires s.ctlesc s.lasttx bs, lasttx := escLasts s.ctlesc s.lasttx bs }

/-- Completion of a transmit command that began in `before`: RES is the number of bytes appended (R21). -/
def State.finishSent (s before : State) : State :=
  s.finish .ok .none (BitVec.ofNat 32 (s.txq.length - before.txq.length))

/-! ### Receive (R7 EscDec; 41_escape R108, R114) -/

/-- Step (1) of R108 on the state. -/
def State.countCancel (s : State) (w : Byte) : State := { s with cancnt := cancelRun s.cancnt w }

/-- `EscDec(w)`: the event, and the state with ESCP and CANCNT updated (R108). -/
def State.escDec (s : State) (w : Byte) : EscEvent × State :=
  let run := cancelRun s.cancnt w
  (escEvent s.escp run w, { s with cancnt := run, escp := escPending run w })

/-- `HBUF[j] <- b`, then `k`. -/
def State.storeHbuf (s : State) (j : Nat) (b : Byte) (k : State → Result) : Result :=
  if h : j < 9 then k { s with hbuf := s.hbuf.set j b } else .fault .hbufIndex

/-- `TBUF[j] <- b`, then `k`. -/
def State.storeTbuf (s : State) (j : Nat) (b : Byte) (k : State → Result) : Result :=
  if h : j < 4 then k { s with tbuf := s.tbuf.set j b } else .fault .tbufIndex

/-- `PBUF[a] <- b` by the unit (R41), then `k`. -/
def State.storePbuf (s : State) (a : Nat) (b : Byte) (k : State → Result) : Result :=
  if a < s.size then k { s with pbuf := s.pbuf.write a b } else .fault .pbufAddress

/-! ### Reset (10_state R35, 45_system R170, 70_reset R200, R202) -/

/-- Every register and hidden element at its reset value and the TX queue empty; PBUF, HBUF, TBUF, and what belongs to the
model alone, kept. -/
def State.toReset (s : State) : State :=
  { State.reset with
    pbuf := s.pbuf, hbuf := s.hbuf, tbuf := s.tbuf
    pbufSize := s.pbufSize, ctlesc := s.ctlesc, epoch := s.epoch, agenda := s.agenda, replies := s.replies }

/-- Hardware reset (R200): PBUF becomes unspecified, so no cell is listed and the free values are fresh (log entry 5);
HBUF and TBUF as in State.reset (log entry 6). -/
def State.hardReset (s : State) : State :=
  { s.toReset with
    pbuf := State.reset.pbuf, hbuf := State.reset.hbuf, tbuf := State.reset.tbuf, epoch := s.epoch + 1 }

end Sys2Proof.Machine
end

