-- ==== Sys2Proof/Machine/Csu.lean ====
section
/-! DEFINITION. The Checksum Unit commands (40_checksum R92 to R100). -/

namespace Sys2Proof.Machine

/-- R92. -/
def execCrc16Init (s : State) : Result := .next ({ s with crc16 := crc16Seed }.finish .ok .none 0)

/-- R93: RES is the new value. -/
def execCrc16Upd (byte : Byte) (s : State) : Result :=
  let c := crc16Step s.crc16 byte
  .next ({ s with crc16 := c }.finish .ok .none (c.setWidth 32))

/-- R94: the finished CRC is the accumulator itself. -/
def execCrc16Fin (s : State) : Result := .next (s.finish .ok .none (s.crc16.setWidth 32))

/-- R96. -/
def execCrc32Init (s : State) : Result := .next ({ s with crc32 := crc32Seed }.finish .ok .none 0)

/-- R97: RES is the new running value, un-inverted. -/
def execCrc32Upd (byte : Byte) (s : State) : Result :=
  let c := crc32Step s.crc32 byte
  .next ({ s with crc32 := c }.finish .ok .none c)

/-- R98: inverted in RES, CRC32 not modified. -/
def execCrc32Fin (s : State) : Result := .next (s.finish .ok .none (~~~ s.crc32))

/-- R99. -/
def execSum8Init (s : State) : Result := .next ({ s with sum8 := sum8Seed }.finish .ok .none 0)

/-- R100: RES is the new value. -/
def execSum8Upd (byte : Byte) (s : State) : Result :=
  let c := sum8Step s.sum8 byte
  .next ({ s with sum8 := c }.finish .ok .none (c.setWidth 32))

end Sys2Proof.Machine
end

