-- ==== Sys2Proof/Machine/Esc.lean ====
section
/-! DEFINITION. The Byte Escaping Codec commands (41_escape R105, R107, R109). -/

namespace Sys2Proof.Machine

/-- R105. -/
def execEscRst (s : State) : Result :=
  .next ({ s with escp := false, cancnt := 0, lasttx := 0x00 }.finish .ok .none 0)

/-- RES of ESC.ENC (R107): the count in 17:16, the first wire byte in 7:0, the second, if there is one, in 15:8. -/
def encReport (wire : List Byte) : Word :=
  (BitVec.ofNat 32 wire.length) <<< 16 ||| (wire.getD 1 0).setWidth 32 <<< 8 ||| (wire.getD 0 0).setWidth 32

/-- R107. -/
def execEscEnc (byte : Byte) (s : State) : Result :=
  .next ((s.txPutEsc [byte]).finish .ok .none (encReport (escWire s.ctlesc s.lasttx byte)))

/-- The kind of an event in RES[11:8] (R109). -/
def EscEvent.kind : EscEvent → BitVec 4
  | .data _ => 0
  | .escapeStarted => 1
  | .frameEnd _ => 2
  | .abort => 3
  | .badEscape _ => 4

/-- The value of an event in RES[7:0] (R109). -/
def EscEvent.value : EscEvent → Byte
  | .data b => b
  | .escapeStarted => 0
  | .frameEnd fe => letterOf fe
  | .abort => 0
  | .badEscape w => w

/-- RES of ESC.DEC (R109). -/
def EscEvent.report (e : EscEvent) : Word := e.kind.setWidth 32 <<< 8 ||| e.value.setWidth 32

/-- R109: the outcome is Ok whatever the event. -/
def execEscDec (byte : Byte) (s : State) : Result :=
  let (event, s') := s.escDec byte
  .next (s'.finish .ok .none event.report)

end Sys2Proof.Machine
end

