-- ==== Sys2Proof/Machine/Hdr.lean ====
section
/-! DEFINITION. The Header Codec: HDR.TX (42_header R120), the acceptance of HDR.RX (R123) and its RX-event rule
(R124 to R130). -/

namespace Sys2Proof.Machine

/-! ### HDR.TX (R120) -/

/-- The HEX form: all raw (30_encoding R72). -/
def hdrTxHex (s : State) : State :=
  let s1 := s.checkOver false s.headerBody
  let digits := (s.headerBody ++ s1.trailer false).flatMap hexPair
  (s1.txPut ([zpad, zpad, zdle, formatByte .hex] ++ digits ++ [charCR, charLF])).finishSent s

/-- The binary forms: the sentinel raw, the body and the check escaped (30_encoding R73). -/
def hdrTxBin (enc : HdrEnc) (s : State) : State :=
  let c32 := wideCheck enc
  let s1 := s.checkOver c32 s.headerBody
  ((s1.txPut [zpad, zdle, formatByte enc]).txPutEsc (s.headerBody ++ s1.trailer c32)).finishSent s

/-- R120. -/
def execHdrTx (enc : HdrEnc) (s : State) : Result :=
  if hdrTxBad enc then .next s.badOperand
  else if enc = .hex then .next (hdrTxHex s)
  else .next (hdrTxBin enc s)

/-! ### HDR.RX: acceptance (R123) -/

/-- The phases of HDR mode (10_state R28). -/
def phaseHunt : BitVec 3 := 0
def phasePad : BitVec 3 := 1
def phaseFmt : BitVec 3 := 2
def phaseBody : BitVec 3 := 3

/-- R123. -/
def execHdrRx (s : State) : Result := .next (s.activate .hdr)

/-! ### The RX-event rule (R124) -/

/-- `StartBody(enc)` (R124). -/
def startBody (enc : HdrEnc) (s : State) : State :=
  { s with rxenc := enc, rxc32 := wideCheck enc, phase := phaseBody, idx := 0, escp := false }.seedCheck (wideCheck enc)

/-- R129: the received trailer, assembled in wire order, equals the computed check. -/
def hdrCheckOk (s : State) : Bool :=
  if s.rxc32 then ofLe s.hbuf[5] s.hbuf[6] s.hbuf[7] s.hbuf[8] == ~~~ s.crc32
  else ofBe s.hbuf[5] s.hbuf[6] == s.crc16

/-- `Finish()` (R124, R129). -/
def hdrFinish (s : State) : State :=
  if hdrCheckOk s then
    { s with
      htype := s.hbuf[0]
      hval := ofLe s.hbuf[1] s.hbuf[2] s.hbuf[3] s.hbuf[4]
      henc := s.rxenc }.finish .ok .none 0
  else s.failWith .corrupt .checkMismatch

/-- Phase HUNT (R126). -/
def hdrHunt (w : Byte) (s : State) : State := if w = zpad then { s with phase := phasePad } else s

/-- Phase PAD (R126). -/
def hdrPad (w : Byte) (s : State) : State :=
  if w = zpad then { s with phase := phasePad }
  else if w = zdle then { s with phase := phaseFmt }
  else { s with phase := phaseHunt }

/-- Phase FMT (R126). -/
def hdrFmt (w : Byte) (s : State) : State :=
  match encOfFormat w with
  | some enc => startBody enc s
  | none => if w = zpad then { s with phase := phasePad } else { s with phase := phaseHunt }

/-- A digit of a HEX body (R127): the first of a pair is the high nibble; the second completes HBUF[IDX >> 1]. -/
def hdrHexDigit (d : BitVec 4) (s : State) : Result :=
  let j := s.idx.toNat / 2
  let i' := s.idx + 1
  if s.idx.getLsbD 0 then
    let b := s.hbuf.toList.getD j 0 ||| d.setWidth 8
    s.storeHbuf j b fun s1 =>
      let s2 := if j < 5 then s1.foldCheck false b else s1
      let s3 := { s2 with idx := i' }
      .next (if i' = 14 then hdrFinish s3 else s3)
  else s.storeHbuf j (d.setWidth 8 <<< 4) fun s1 => .next { s1 with idx := i' }

/-- Phase BODY in the HEX encoding (R127). -/
def hdrHexBody (w : Byte) (s : State) : Result :=
  if w = zdle then .next { s with phase := phaseHunt }
  else
    match hexVal w with
    | none => .next (s.failWith .corrupt .badHexDigit)
    | some d => hdrHexDigit d s

/-- A decoded byte of a binary body (R130). -/
def hdrBinByte (b : Byte) (s : State) : Result :=
  s.storeHbuf s.idx.toNat b fun s1 =>
    let s2 := if s.idx.toNat < 5 then s1.foldCheck s1.rxc32 b else s1
    let s3 := { s2 with idx := s.idx + 1 }
    .next (if s.idx + 1 = (if s.rxc32 then 9 else 7) then hdrFinish s3 else s3)

/-- Phase BODY in a binary encoding (R130). -/
def hdrBinBody (w : Byte) (s : State) : Result :=
  let (event, s1) := s.escDec w
  match event with
  | .abort => .next (s1.failWith .abort .none)
  | .escapeStarted => .next s1
  | .frameEnd _ => .next (s1.failWith .corrupt .unexpectedFrameEnd)
  | .badEscape _ => .next (s1.failWith .corrupt .badEscape)
  | .data b => hdrBinByte b s1

/-- The phases that match wire bytes raw (R125). -/
def hdrRaw (s : State) : Bool :=
  s.phase == phaseHunt || s.phase == phasePad || s.phase == phaseFmt || (s.phase == phaseBody && s.rxenc == .hex)

/-- A raw phase's own handler (R124), the cancel run already counted. -/
def hdrRawByte (w : Byte) (s : State) : Result :=
  if s.phase = phaseHunt then .next (hdrHunt w s)
  else if s.phase = phasePad then .next (hdrPad w s)
  else if s.phase = phaseFmt then .next (hdrFmt w s)
  else hdrHexBody w s

/-- `HdrRx(e)` (R124, R132). -/
def hdrRxEvent (e : RxEvent) (s : State) : Result :=
  match e with
  | .timeout => .next (s.failWith .timedOut .none)
  | .byte w =>
    if hdrRaw s then
      let s1 := s.countCancel w
      if s1.cancnt = 5 then .next (s1.failWith .abort .none) else hdrRawByte w s1
    else if s.phase = phaseBody then hdrBinBody w s
    else .fault .unnamedPhase

end Sys2Proof.Machine
end

