-- ==== Sys2Proof/Machine/Spk.lean ====
section
/-! DEFINITION. The Data Subpacket Codec: SPK.TX (43_subpacket R141), the acceptance of SPK.RX (R146) and its RX-event
rule (R147 to R151). -/

namespace Sys2Proof.Machine

/-! ### SPK.TX (R141) -/

/-- The effect of SPK.TX with legal operands: the check covers the logical payload and the letter (R144); the payload and
the check go through the encoder, the frame-end pair is raw. -/
def spkSend (enc : HdrEnc) (fe : FrameEnd) (len : Nat) (s : State) : State :=
  let c32 := wideCheck enc
  let s1 := s.checkOver c32 (s.payload len ++ [letterOf fe])
  (((s1.txPutEsc (s.payload len)).txPut [zdle, letterOf fe]).txPutEsc (s1.trailer c32)).finishSent s

/-- R141. -/
def execSpkTx (enc : HdrEnc) (fe : FrameEnd) (len : Nat) (s : State) : Result :=
  if s.spkTxBad enc len then .next s.badOperand else .next (spkSend enc fe len s)

/-! ### SPK.RX: acceptance (R146) -/

/-- The phases of SPK mode (10_state R28). -/
def phaseSpkData : BitVec 3 := 0
def phaseSpkTrail : BitVec 3 := 1

/-- R146: the CRC width comes from HENC (R145). -/
def spkStart (maxlen : Nat) (s : State) : State :=
  let c32 := wideCheck s.henc
  { s.activate .spk with
    tidx := 0, rxlen := 0, rxmax := BitVec.ofNat 16 maxlen, rxc32 := c32, escp := false }.seedCheck c32

/-- R146. -/
def execSpkRx (maxlen : Nat) (s : State) : Result :=
  if s.spkRxBad maxlen then .next s.badOperand else .next (spkStart maxlen s)

/-! ### The RX-event rule (R147) -/

/-- A payload byte (R147, R151): the byte that overruns is neither stored nor folded. -/
def spkData (b : Byte) (s : State) : Result :=
  if s.idx = s.rxmax then .next (s.failWith .overrun .none)
  else
    s.storePbuf s.idx.toNat b fun s1 =>
      .next { s1.foldCheck s1.rxc32 b with idx := s.idx + 1, rxlen := s.idx + 1 }

/-- R149: the received trailer equals the computed check. -/
def spkCheckOk (s : State) : Bool :=
  if s.rxc32 then ofLe s.tbuf[0] s.tbuf[1] s.tbuf[2] s.tbuf[3] == ~~~ s.crc32
  else ofBe s.tbuf[0] s.tbuf[1] == s.crc16

/-- How a trailer that has arrived whole ends the command (R149; 44_xblock R161). -/
def State.finishCheck (s : State) (ok : Bool) : State :=
  if ok then s.finish .ok .none 0 else s.failWith .corrupt .checkMismatch

/-- A trailer byte (R149). -/
def spkTrail (b : Byte) (s : State) : Result :=
  s.storeTbuf s.tidx.toNat b fun s1 =>
    let s2 := { s1 with tidx := s.tidx + 1 }
    .next (if s.tidx + 1 = (if s.rxc32 then 4 else 2) then s2.finishCheck (spkCheckOk s2) else s2)

/-- A frame-end marker (R148, R149). -/
def spkFrameEnd (fe : FrameEnd) (s : State) : State :=
  if s.phase = phaseSpkData then
    { s.foldCheck s.rxc32 (letterOf fe) with fe := fe, phase := phaseSpkTrail, tidx := 0 }
  else s.failWith .corrupt .unexpectedFrameEnd

/-- `SpkRx(e)` (R147). -/
def spkRxEvent (e : RxEvent) (s : State) : Result :=
  match e with
  | .timeout => .next (s.failWith .timedOut .none)
  | .byte w =>
    let (event, s1) := s.escDec w
    match event with
    | .abort => .next (s1.failWith .abort .none)
    | .escapeStarted => .next s1
    | .badEscape _ => .next (s1.failWith .corrupt .badEscape)
    | .data b => if s1.phase = phaseSpkData then spkData b s1 else spkTrail b s1
    | .frameEnd fe => .next (spkFrameEnd fe s1)

end Sys2Proof.Machine
end

