-- ==== Sys2Proof/Machine/Sys.lean ====
section
/-! DEFINITION. The system command RST (45_system R170) and the register port (R172, R173). -/

namespace Sys2Proof.Machine

/-- R170: hardware reset but for PBUF (and HBUF, TBUF) kept and OUTCOME Ok (70_reset R202). -/
def execRst (s : State) : Result := .next (s.toReset.finish .ok .none 0)

/-- R172, R26: the value of register `n`, zero-extended. -/
def State.regValue (s : State) (n : Nat) : Word :=
  match n with
  | 0 => idValue
  | 1 => s.statusView
  | 2 => s.res
  | 3 => s.crc16.setWidth 32
  | 4 => s.crc32
  | 5 => s.sum8.setWidth 32
  | 6 => s.htype.setWidth 32
  | 7 => s.hval
  | 8 => s.henc.code.setWidth 32
  | 9 => s.escstView
  | 10 => s.xblk.setWidth 32
  | 11 => s.xrblk.setWidth 32
  | 12 => s.rxlen.setWidth 32
  | 13 => s.rxstView
  | 14 => s.tmo
  | _ => 0

/-- R22: a host write of ESCST, CANCNT clamped to 5. -/
def State.writeEscst (s : State) (v : Word) : State :=
  { s with
    escp := v.getLsbD 0
    cancnt := BitVec.ofNat 3 (min (v.extractLsb' 4 3).toNat 5)
    lasttx := v.extractLsb' 8 8 }

/-- R173, R26: the effect of a host write of `v` to register `n`; read-only and absent registers ignore it. -/
def State.regStore (s : State) (n : Nat) (v : Word) : State :=
  match n with
  | 3 => { s with crc16 := v.setWidth 16 }
  | 4 => { s with crc32 := v }
  | 5 => { s with sum8 := v.setWidth 8 }
  | 6 => { s with htype := v.setWidth 8 }
  | 7 => { s with hval := v }
  | 8 => { s with henc := .ofCode (v.setWidth 2) }
  | 9 => s.writeEscst v
  | 10 => { s with xblk := v.setWidth 8 }
  | 14 => { s with tmo := v }
  | _ => s

end Sys2Proof.Machine
end

