-- ==== Sys2Proof/Machine/Xbk.lean ====
section
/-! DEFINITION. The XMODEM/YMODEM block codec: XBK.TX (44_xblock R156), the acceptance of XBK.RX (R160) and its RX-event
rule (R161 to R163). -/

namespace Sys2Proof.Machine

/-! ### XBK.TX (R156) -/

/-- The effect of XBK.TX with a legal length: every byte raw. -/
def xbkSend (mode : CheckMode) (len : Nat) (s : State) : State :=
  let s1 := s.blockOver mode (s.blockPayload len)
  (s1.txPut ([soh, s.xblk, s.xblk ^^^ 0xFF] ++ s.blockPayload len ++ s1.blockTrailer mode)).finishSent s

/-- R156. -/
def execXbkTx (mode : CheckMode) (len : Nat) (s : State) : Result :=
  if xbkTxBad len then .next s.badOperand else .next (xbkSend mode len s)

/-! ### XBK.RX: acceptance (R160) -/

/-- The phases of XBK mode (10_state R28). -/
def phaseStart : BitVec 3 := 0
def phaseBlk : BitVec 3 := 1
def phaseCblk : BitVec 3 := 2
def phaseXbkData : BitVec 3 := 3
def phaseXbkTrail : BitVec 3 := 4

/-- R160. -/
def execXbkRx (mode : CheckMode) (s : State) : Result :=
  .next ({ s.activate .xbk with tidx := 0, rxlen := 0, xmode := mode, rxc32 := false }.seedBlock mode)

/-! ### The RX-event rule (R161) -/

/-- Phase START (R163), the cancel run already counted and short of five. -/
def xbkStartByte (w : Byte) (s : State) : State :=
  if w = soh then { s with phase := phaseBlk }
  else if w = eot then s.failWith .ended .none
  else if w = zdle then s
  else s.failWith .corrupt .badStart

/-- Phase CBLK (R163). -/
def xbkComplement (w : Byte) (s : State) : State :=
  if w = s.xrblk ^^^ 0xFF then { s with phase := phaseXbkData, idx := 0 } else s.failWith .corrupt .badComplement

/-- Phase DATA (R163). -/
def xbkData (w : Byte) (s : State) : Result :=
  s.storePbuf s.idx.toNat w fun s1 =>
    let s2 := { s1.foldBlock s.xmode w with idx := s.idx + 1, rxlen := s.idx + 1 }
    .next (if s.idx + 1 = 128 then { s2 with phase := phaseXbkTrail, tidx := 0 } else s2)

/-- Phase TRAIL (R163). -/
def xbkTrail (w : Byte) (s : State) : Result :=
  match s.xmode with
  | .sum => .next (s.finishCheck (w == s.sum8))
  | .crc =>
    s.storeTbuf s.tidx.toNat w fun s1 =>
      let s2 := { s1 with tidx := s.tidx + 1 }
      .next (if s.tidx + 1 = 2 then s2.finishCheck (ofBe s2.tbuf[0] s2.tbuf[1] == s2.crc16) else s2)

/-- A phase after START (R161), CANCNT already cleared (R162). -/
def xbkInBlock (w : Byte) (s : State) : Result :=
  if s.phase = phaseBlk then .next { s with xrblk := w, phase := phaseCblk }
  else if s.phase = phaseCblk then .next (xbkComplement w s)
  else if s.phase = phaseXbkData then xbkData w s
  else if s.phase = phaseXbkTrail then xbkTrail w s
  else .fault .unnamedPhase

/-- `XbkRx(e)` (R161, R162). -/
def xbkRxEvent (e : RxEvent) (s : State) : Result :=
  match e with
  | .timeout => .next (s.failWith .timedOut .none)
  | .byte w =>
    if s.phase = phaseStart then
      let s1 := s.countCancel w
      .next (if s1.cancnt = 5 then s1.failWith .abort .none else xbkStartByte w s1)
    else xbkInBlock w { s with cancnt := 0 }

end Sys2Proof.Machine
end

