-- ==== Sys2Proof/Machine/Dispatch.lean ====
section
/-! DEFINITION. One arm per command: the command rule of an accepted, decoded word (30_encoding R62 step 3). -/

namespace Sys2Proof.Machine

def exec (i : Instr) (s : State) : Host.Outcome State Fault Refusal :=
  match i with
  | .rst => Sys2Proof.Machine.execRst s
  | .crc16Init => Sys2Proof.Machine.execCrc16Init s
  | .crc16Upd byte => Sys2Proof.Machine.execCrc16Upd byte s
  | .crc16Fin => Sys2Proof.Machine.execCrc16Fin s
  | .crc32Init => Sys2Proof.Machine.execCrc32Init s
  | .crc32Upd byte => Sys2Proof.Machine.execCrc32Upd byte s
  | .crc32Fin => Sys2Proof.Machine.execCrc32Fin s
  | .sum8Init => Sys2Proof.Machine.execSum8Init s
  | .sum8Upd byte => Sys2Proof.Machine.execSum8Upd byte s
  | .escRst => Sys2Proof.Machine.execEscRst s
  | .escEnc byte => Sys2Proof.Machine.execEscEnc byte s
  | .escDec byte => Sys2Proof.Machine.execEscDec byte s
  | .hdrTx enc => Sys2Proof.Machine.execHdrTx enc s
  | .hdrRx => Sys2Proof.Machine.execHdrRx s
  | .spkTx enc fe len => Sys2Proof.Machine.execSpkTx enc fe len s
  | .spkRx maxlen => Sys2Proof.Machine.execSpkRx maxlen s
  | .xbkTx mode len => Sys2Proof.Machine.execXbkTx mode len s
  | .xbkRx mode => Sys2Proof.Machine.execXbkRx mode s

end Sys2Proof.Machine
end

