-- ==== Sys2Proof/Machine/Ports.lean ====
section
/-! DEFINITION. The ports of the unit and which steps they accept (20_memory R46, R50; 45_system R172 to R175; 70_reset
R200). A step that is not accepted is refused by name. -/

namespace Sys2Proof.Machine

/-- A value handed out at a port (log entry 3). -/
def State.reply (s : State) (r : Reply) : State := { s with replies := s.replies ++ [r] }

/-- The command port accepts `w` (R50): always while idle, and the RST word in every mode. -/
def State.accepts (s : State) (w : Word) : Bool := !s.busy || w == rstWord

/-- `Cmd(w)` (R46; 30_encoding R62): decode, then the command rule; a word of no row completes IllegalCommand (R183). -/
def commandPort (w : Word) (s : State) : Result :=
  if s.accepts w then
    match decode w with
    | .ok i => exec i s
    | .error _ => .next s.illegalCommand
  else .refused .commandWhileBusy

/-- `RegRead(n)` (R172): accepted in every mode. -/
def registerReadPort (n : Nat) (s : State) : Result := .next (s.reply (.reg n (s.regValue n)))

/-- `RegWrite(n, v)` (R173): accepted while idle. -/
def registerWritePort (n : Nat) (v : Word) (s : State) : Result :=
  if s.busy then .refused .registerWriteWhileBusy else .next (s.regStore n v)

/-- `BufRead(a)` (R174): accepted while idle and a < PBUF_SIZE. -/
def bufferReadPort (a : Nat) (s : State) : Result :=
  if s.busy then .refused .bufferAccessWhileBusy
  else if a < s.size then .next (s.reply (.buf a (s.pbufByte a)))
  else .refused .bufferAddress

/-- `BufWrite(a, v)` (R174): accepted while idle and a < PBUF_SIZE. -/
def bufferWritePort (a : Nat) (b : Byte) (s : State) : Result :=
  if s.busy then .refused .bufferAccessWhileBusy
  else if a < s.size then .next { s with pbuf := s.pbuf.write a b }
  else .refused .bufferAddress

/-- `Rx(e)` (R46): the RX-event rule of the active command. -/
def rxPort (e : RxEvent) (s : State) : Result :=
  match s.rxmode with
  | .idle => .refused .rxWhileIdle
  | .hdr => hdrRxEvent e s
  | .spk => spkRxEvent e s
  | .xbk => xbkRxEvent e s

/-- `TxTake` (R175): the head of the TX queue leaves; accepted in every mode. -/
def txPort (s : State) : Result :=
  match s.txq with
  | [] => .refused .txQueueEmpty
  | b :: rest => .next ({ s with txq := rest }.reply (.tx b))

/-- One step at a port (R46), or hardware reset (R200), on a state whose agenda no longer holds it. -/
def portStep (p : PortStep) (s : State) : Result :=
  match p with
  | .cmd w => commandPort w s
  | .regRead n => registerReadPort n s
  | .regWrite n v => registerWritePort n v s
  | .bufRead a => bufferReadPort a s
  | .bufWrite a b => bufferWritePort a b s
  | .rx e => rxPort e s
  | .txTake => txPort s
  | .hardReset => .next s.hardReset

/-- A list of port steps in their total order (R51), stopping at the first that is not accepted. -/
def runPorts : List PortStep → State → Result
  | [], s => .next s
  | p :: rest, s =>
    match portStep p s with
    | .next s' => runPorts rest s'
    | .fault r => .fault r
    | .refused r => .refused r

end Sys2Proof.Machine
end

