-- ==== Sys2Proof/Machine/Step.lean ====
section
/-! DEFINITION. One step of the machine: the head of the agenda happens (20_memory R46, R51). -/

namespace Sys2Proof.Machine

/-- The next port step in the total order. With none presented nothing is enabled (60_exceptions R191; log entry 2). -/
def step (s : State) : Host.Outcome State Fault Refusal :=
  match s.agenda with
  | [] => .refused .nothingPresented
  | p :: rest => portStep p { s with agenda := rest }

/-- The word presented at the command port as the very next step (log entry 10). -/
def State.withFetchWord (s : State) (nbits w : Nat) : State :=
  { s with agenda := .cmd (tableWord nbits w) :: s.agenda }

end Sys2Proof.Machine
end

