-- ==== Sys2Proof/Machine/Calls.lean ====
section
/-! DEFINITION. The host sequences that realise the source's functions (45_system R176), as lists of port steps. R176 calls
them informative; no rule of the unit depends on them. Polling is written as one read after the last RX event. -/

namespace Sys2Proof.Machine

/-- The step that presents the command `i`. -/
def present (i : Instr) : PortStep := .cmd (encode i)

/-- The RX events that deliver a sequence of bytes. -/
def deliver (bs : List Byte) : List PortStep := bs.map (fun b => .rx (.byte b))

/-- `BUFWR i, bytes[i]` for each i from `a` on. -/
def fillBuffer : Nat → List Byte → List PortStep
  | _, [] => []
  | a, b :: bs => .bufWrite a b :: fillBuffer (a + 1) bs

/-- `crc16_init`, `crc16_update` over `m`, `crc16_finish`. -/
def callCrc16 (m : List Byte) : List PortStep :=
  present .crc16Init :: (m.map (fun b => present (.crc16Upd b)) ++ [present .crc16Fin, .regRead 2])

/-- `crc32_init`, `crc32_update` over `m`, `crc32_finish`. -/
def callCrc32 (m : List Byte) : List PortStep :=
  present .crc32Init :: (m.map (fun b => present (.crc32Upd b)) ++ [present .crc32Fin, .regRead 2])

/-- `xmodem_sum_update` over `m` from 0. -/
def callSum8 (m : List Byte) : List PortStep :=
  present .sum8Init :: (m.map (fun b => present (.sum8Upd b)) ++ [.regRead 2])

/-- `encode_byte(raw)`. -/
def callEncodeByte (raw : Byte) : List PortStep := [present (.escEnc raw), .regRead 2]

/-- `decode_event(w, pending)`: ESCP is supplied through ESCST, whose other fields keep their values. -/
def callDecodeEvent (s : State) (w : Byte) (pending : Bool) : List PortStep :=
  [.regWrite 9 ({ s with escp := pending }.escstView), present (.escDec w), .regRead 2]

/-- `write_header(header, enc)`. -/
def callWriteHeader (type : Byte) (value : Word) (enc : HdrEnc) : List PortStep :=
  [.regWrite 6 (type.setWidth 32), .regWrite 7 value, present (.hdrTx enc)]

/-- `read_header(timeout)`, the transport delivering `events`. -/
def callReadHeader (timeout : Word) (events : List RxEvent) : List PortStep :=
  [.regWrite 14 timeout, present .hdrRx] ++ events.map .rx ++ [.regRead 1, .regRead 6, .regRead 7, .regRead 8]

/-- `write_subpacket(bytes, end, enc)`. -/
def callWriteSubpacket (bytes : List Byte) (fe : FrameEnd) (enc : HdrEnc) : List PortStep :=
  fillBuffer 0 bytes ++ [present (.spkTx enc fe bytes.length)]

/-- `read_subpacket(max_len, timeout)`, the transport delivering `events`, and the read of the first `len` bytes. -/
def callReadSubpacket (maxlen : Nat) (timeout : Word) (events : List RxEvent) (len : Nat) : List PortStep :=
  [.regWrite 14 timeout, present (.spkRx maxlen)] ++ events.map .rx
    ++ [.regRead 1, .regRead 12] ++ (List.range len).map .bufRead

/-- An XMODEM block sent. -/
def callWriteBlock (blk : Byte) (bytes : List Byte) (mode : CheckMode) : List PortStep :=
  .regWrite 10 (blk.setWidth 32) :: (fillBuffer 0 bytes ++ [present (.xbkTx mode bytes.length)])

/-- An XMODEM block received, the transport delivering `events`. -/
def callReadBlock (mode : CheckMode) (events : List RxEvent) : List PortStep :=
  present (.xbkRx mode) :: (events.map .rx ++ [.regRead 1, .regRead 11] ++ (List.range 128).map .bufRead)

end Sys2Proof.Machine
end

