-- ==== Sys2Proof/Safety.lean ====
section
/-! DEFINITION. The terms claims use: which port steps are enabled (20_memory R50), the reset values (10_state R35), the read
and write sets of the commands (R36), and the invariants of the machine. -/

namespace Sys2Proof.Machine

/-! ### Enabled port steps (R46, R50) -/

/-- The table of R50, with the conditions of R46 on an address and on the TX queue. -/
def State.Enables (s : State) : PortStep → Prop
  | .cmd w => s.rxmode = .idle ∨ w = 0x01000000
  | .regRead _ => True
  | .regWrite _ _ => s.rxmode = .idle
  | .bufRead a => s.rxmode = .idle ∧ a < s.pbufSize.bytes
  | .bufWrite a _ => s.rxmode = .idle ∧ a < s.pbufSize.bytes
  | .rx _ => s.rxmode ≠ .idle
  | .txTake => s.txq ≠ []
  | .hardReset => True

/-! ### Reset values (R35) -/

/-- Every register and hidden element that R35 gives a value, but OUTCOME, holds it, and the TX queue is empty. -/
structure State.AtResetValues (s : State) : Prop where
  checks : s.crc16 = 0x0000 ∧ s.crc32 = 0xFFFFFFFF ∧ s.sum8 = 0x00
  header : s.htype = 0x00 ∧ s.hval = 0x00000000 ∧ s.henc = .bin16
  blocks : s.xblk = 0x00 ∧ s.xrblk = 0x00 ∧ s.rxlen = 0x0000
  results : s.res = 0x00000000 ∧ s.tmo = 0x00000000 ∧ s.cause = .none ∧ s.fe = .crce
  escape : s.escp = false ∧ s.cancnt = 0 ∧ s.lasttx = 0x00
  sequencing : s.rxmode = .idle ∧ s.phase = 0 ∧ s.idx = 0 ∧ s.tidx = 0
  latched : s.rxenc = .bin16 ∧ s.rxc32 = false ∧ s.rxmax = 0 ∧ s.xmode = .sum
  queue : s.txq = []

/-! ### Read and write sets (R36) -/

/-- The columns of the table of R36, and TMO, which the register table of 10_state section 2 says RST alone writes. -/
inductive Element where
  | crc16 | crc32 | sum8 | header | henc | escp | cancnt | lasttx | xblk | xrblk | rxlen | fe | pbuf | tx | tmo
deriving DecidableEq, Repr

/-- The element holds the same before and after; of PBUF, that every byte reads the same. -/
def State.Same (s t : State) : Element → Prop
  | .crc16 => t.crc16 = s.crc16
  | .crc32 => t.crc32 = s.crc32
  | .sum8 => t.sum8 = s.sum8
  | .header => t.htype = s.htype ∧ t.hval = s.hval
  | .henc => t.henc = s.henc
  | .escp => t.escp = s.escp
  | .cancnt => t.cancnt = s.cancnt
  | .lasttx => t.lasttx = s.lasttx
  | .xblk => t.xblk = s.xblk
  | .xrblk => t.xrblk = s.xrblk
  | .rxlen => t.rxlen = s.rxlen
  | .fe => t.fe = s.fe
  | .pbuf => ∀ a, t.pbuf.read a = s.pbuf.read a ∧ t.pbufByte a = s.pbufByte a
  | .tx => t.txq = s.txq
  | .tmo => t.tmo = s.tmo

/-- The accumulator a check of this width is computed in. -/
def accumulator (c32 : Bool) : Element := if c32 then .crc32 else .crc16

/-- The accumulator of an XMODEM check mode. -/
def blockAccumulator : CheckMode → Element
  | .sum => .sum8
  | .crc => .crc16

/-- The elements the rows of R36 mark "w" for a command, at its acceptance or in its one step, from a state with HENC = `henc`. -/
def writeSet (henc : HdrEnc) : Instr → List Element
  | .rst => [.crc16, .crc32, .sum8, .header, .henc, .escp, .cancnt, .lasttx, .xblk, .xrblk, .rxlen, .fe, .tx, .tmo]
  | .crc16Init => [.crc16]
  | .crc16Upd _ => [.crc16]
  | .crc16Fin => []
  | .crc32Init => [.crc32]
  | .crc32Upd _ => [.crc32]
  | .crc32Fin => []
  | .sum8Init => [.sum8]
  | .sum8Upd _ => [.sum8]
  | .escRst => [.escp, .cancnt, .lasttx]
  | .escEnc _ => [.lasttx, .tx]
  | .escDec _ => [.escp, .cancnt]
  | .hdrTx .hex => [.crc16, .tx]
  | .hdrTx .bin16 => [.crc16, .lasttx, .tx]
  | .hdrTx .bin32 => [.crc32, .lasttx, .tx]
  | .hdrTx .reserved => []
  | .hdrRx => []
  | .spkTx enc _ _ => [accumulator (enc == .bin32), .lasttx, .tx]
  | .spkRx _ => [accumulator (henc == .bin32), .escp, .rxlen]
  | .xbkTx mode _ => [blockAccumulator mode, .tx]
  | .xbkRx mode => [blockAccumulator mode, .rxlen]

/-- The elements the rows of R36 mark "w" for the RX events of the active command. -/
def eventWriteSet (s : State) : List Element :=
  match s.rxmode with
  | .idle => []
  | .hdr => [.crc16, .crc32, .header, .henc, .escp, .cancnt]
  | .spk => [accumulator s.rxc32, .escp, .cancnt, .rxlen, .fe, .pbuf]
  | .xbk => [blockAccumulator s.xmode, .cancnt, .xrblk, .rxlen, .pbuf]

/-! ### Invariants -/

/-- Digits or decoded bytes of a header body (42_header R127, R130). -/
def bodyLength : HdrEnc → Nat
  | .hex => 14
  | .bin32 => 9
  | .bin16 => 7
  | .reserved => 0

/-- Where an active streaming command stands (10_state R27 to R30, R33): a phase its mode names, and counters inside the
bounds of that phase. -/
def State.Position (s : State) : Prop :=
  match s.rxmode with
  | .idle => True
  | .hdr =>
    s.phase.toNat ≤ 3
      ∧ (s.phase = phaseBody → s.rxc32 = (s.rxenc == .bin32) ∧ s.idx.toNat < bodyLength s.rxenc)
  | .spk =>
    s.phase.toNat ≤ 1 ∧ s.rxlen = s.idx ∧ s.idx.toNat ≤ s.rxmax.toNat ∧ s.rxmax.toNat ≤ s.pbufSize.bytes
      ∧ (s.phase = phaseSpkTrail → s.tidx.toNat < if s.rxc32 then 4 else 2)
  | .xbk =>
    s.phase.toNat ≤ 4 ∧ s.rxlen = s.idx
      ∧ (s.phase.toNat < 3 → s.idx = 0)
      ∧ (s.phase = phaseXbkData → s.idx.toNat < 128)
      ∧ (s.phase = phaseXbkTrail → s.idx = 128 ∧ s.tidx.toNat < 2)

/-- What every step keeps. -/
structure State.Inv (s : State) : Prop where
  /-- PBUF is in its canonical form. -/
  canonical : s.pbuf.wf
  /-- Only addresses of PBUF are listed (20_memory R40). -/
  inside : ∀ c ∈ s.pbuf, c.1 < s.pbufSize.bytes
  /-- PBUF[0 .. RXLEN-1] are written (R42). -/
  received : ∀ a < s.rxlen.toNat, (s.pbuf.read a).isSome
  /-- CANCNT saturates at 5 (41_escape R114, 10_state R22). -/
  cancelRun : s.cancnt.toNat ≤ 5
  /-- CAUSE is non-zero exactly when OUTCOME = Corrupt (60_exceptions R181). -/
  cause : s.cause ≠ .none ↔ s.outcome = .corrupt
  /-- RES is 0 after every outcome that is not Ok (R182). -/
  failed : s.outcome ≠ .none → s.outcome ≠ .ok → s.res = 0
  /-- OUTCOME is None while a streaming command is active (10_state R20). -/
  active : s.rxmode ≠ .idle → s.outcome = .none
  /-- The sequencing state is one the rules name. -/
  position : s.Position

/-- The accumulator of the active check holds the check of `m`. -/
def State.CheckIs (s : State) (m : List Byte) : Prop :=
  if s.rxc32 then s.crc32 = crc32Run m else s.crc16 = crc16Of m

/-- The accumulator of an XMODEM check holds the check of `m`. -/
def State.BlockCheckIs (s : State) (m : List Byte) : Prop :=
  match s.xmode with
  | .sum => s.sum8 = sum8Of m
  | .crc => s.crc16 = crc16Of m

/-- How many whole body bytes a header body has so far. -/
def State.bodyBytes (s : State) : Nat := if s.rxenc = .hex then s.idx.toNat / 2 else s.idx.toNat

/-- While a streaming command is active its accumulator holds the check of exactly the logical bytes received so far: of a
header, its first five bytes (42_header R129); of a subpacket, the payload and then the frame-end letter (43_subpacket R144);
of a block, the payload (30_encoding R78). -/
def State.CheckCurrent (s : State) : Prop :=
  match s.rxmode with
  | .idle => True
  | .hdr => s.phase = phaseBody → s.CheckIs (s.hbuf.toList.take (min s.bodyBytes 5))
  | .spk => s.CheckIs (s.payload s.rxlen.toNat ++ if s.phase = phaseSpkTrail then [letterOf s.fe] else [])
  | .xbk => s.BlockCheckIs (s.payload s.rxlen.toNat)

/-- The cancel run never reaches 5 while the bytes `w` are counted from CANCNT = `c` (41_escape R114). -/
def RunStaysShort (c : BitVec 3) : List Byte → Prop
  | [] => True
  | w :: ws => cancelRun c w ≠ 5 ∧ RunStaysShort (cancelRun c w) ws

end Sys2Proof.Machine
end

