-- ==== Sys2Proof/Certificates/Slice0/Obligations.lean ====
section
/-! DEFINITION. The statements for the provers. Each docstring names the rule of spec/ it formalises. The parameters PBUF_SIZE
and CTLESC are fields of the state, so a statement about every state holds for every legal value of both (00_scope R5). -/

open Sys2Proof Sys2Proof.Machine

/-! ### Encoding (30_encoding) -/

/-- Every well-formed command, with every operand at every value its field admits, is read back from its own word. -/
def Obligations.DecodeOfEncode : Prop :=
  ∀ i : Instr, i.WellFormed → decode (encode i) = .ok i

/-- Each accepted word has one meaning and is the encoding of it. -/
def Obligations.EncodeOfDecode : Prop :=
  ∀ (w : Word) (i : Instr), decode w = .ok i → i.WellFormed ∧ encode i = w

/-- R63: a word is a command exactly if a row of the opcode map selects it, then that row is its mnemonic's, and no word is
selected by two rows. -/
def Obligations.OpcodeMapDecides : Prop :=
  (∀ w : Word,
    match decode w with
    | .ok i => ∃ r ∈ opcodeMap, r.mnemonic = i.mnemonic ∧ w &&& r.mask = r.pattern
    | .error _ => ∀ r ∈ opcodeMap, w &&& r.mask ≠ r.pattern)
  ∧ ∀ w : Word, ∀ r₁ ∈ opcodeMap, ∀ r₂ ∈ opcodeMap,
      w &&& r₁.mask = r₁.pattern → w &&& r₂.mask = r₂.pattern → r₁ = r₂

/-- R65: which bits of an accepted word each operand is. -/
def Obligations.OperandsAreTheirBits : Prop :=
  ∀ (w : Word) (i : Instr), decode w = .ok i →
    match i with
    | .crc16Upd b | .crc32Upd b | .sum8Upd b | .escEnc b | .escDec b => b = w.extractLsb' 16 8
    | .hdrTx enc => enc.code = w.extractLsb' 16 2
    | .spkTx enc fe len =>
      enc.code = w.extractLsb' 16 2 ∧ fe.code = w.extractLsb' 18 2 ∧ len = (w.extractLsb' 0 16).toNat
    | .spkRx maxlen => maxlen = (w.extractLsb' 0 16).toNat
    | .xbkTx mode len => mode.code = w.extractLsb' 16 1 ∧ len = (w.extractLsb' 0 16).toNat
    | .xbkRx mode => mode.code = w.extractLsb' 16 1
    | .rst | .crc16Init | .crc16Fin | .crc32Init | .crc32Fin | .sum8Init | .escRst | .hdrRx => True

/-- The example words of R66 decode to the commands they are written for. -/
def Obligations.ExampleWordsDecode : Prop :=
  decode 0x11310000 = .ok (.crc16Upd 0x31) ∧ decode 0x30010000 = .ok (.hdrTx .hex)
  ∧ decode 0x400C0005 = .ok (.spkTx .bin16 .crcw 5) ∧ decode 0x40060009 = .ok (.spkTx .bin32 .crcg 9)
  ∧ decode 0x41000400 = .ok (.spkRx 1024) ∧ decode 0x50010005 = .ok (.xbkTx .crc 5)
  ∧ decode 0x51000000 = .ok (.xbkRx .sum) ∧ decode 0x01000000 = .ok .rst

/-! ### Steps and ports (20_memory, 45_system) -/

/-- A step whose next port step is an accepted command word runs the decoded command on the state whose agenda has moved
past it (R46, R62). -/
def Obligations.StepRunsDecodedCommand : Prop :=
  ∀ (s : State) (w : Word) (rest : List PortStep) (i : Instr),
    s.agenda = .cmd w :: rest → (s.rxmode = .idle ∨ w = 0x01000000) → decode w = .ok i →
    step s = exec i { s with agenda := rest }

/-- R183: an accepted word of no row completes IllegalCommand with RES 0 and changes nothing else. -/
def Obligations.IllegalWordCompletes : Prop :=
  ∀ (s : State) (w : Word) (rest : List PortStep) (r : DecodeError),
    s.agenda = .cmd w :: rest → s.rxmode = .idle → decode w = .error r →
    step s = .next { s with agenda := rest, outcome := .illegalCommand, cause := .none, rxmode := .idle, res := 0 }

/-- R50: a port step is refused exactly if the table does not accept it. -/
def Obligations.RefusedIffNotEnabled : Prop :=
  ∀ (s : State) (p : PortStep), (∃ r, portStep p s = .refused r) ↔ ¬ s.Enables p

/-- A step that happens takes exactly the next port step, hands out at most one value, and never changes the parameters
(R48, R51, R5). The agenda, the reply log and the parameters as fields are the model's (log entries 1, 3, 4). -/
def Obligations.StepTakesTheNextPortStep : Prop :=
  ∀ s t : State, step s = .next t →
    (∃ p, s.agenda = p :: t.agenda) ∧ (∃ l : List Reply, t.replies = s.replies ++ l ∧ l.length ≤ 1)
      ∧ t.pbufSize = s.pbufSize ∧ t.ctlesc = s.ctlesc

/-- R172: the value a register read returns, in every RXMODE, with no side effect on the unit. What is returned stands in the
model's reply log (log entry 3). -/
def Obligations.RegisterRead : Prop :=
  ∀ (s : State) (n : Nat),
    let busy : Word := if s.rxmode = .idle then 0 else 1
    let v : Word :=
      match n with
      | 0 => 0x50424601
      | 1 => s.fe.code.setWidth 32 <<< 9 ||| busy <<< 8 ||| s.cause.code.setWidth 32 <<< 4 ||| s.outcome.code.setWidth 32
      | 2 => s.res
      | 3 => s.crc16.setWidth 32
      | 4 => s.crc32
      | 5 => s.sum8.setWidth 32
      | 6 => s.htype.setWidth 32
      | 7 => s.hval
      | 8 => s.henc.code.setWidth 32
      | 9 => s.lasttx.setWidth 32 <<< 8 ||| s.cancnt.setWidth 32 <<< 4 ||| (if s.escp then 1 else 0)
      | 10 => s.xblk.setWidth 32
      | 11 => s.xrblk.setWidth 32
      | 12 => s.rxlen.setWidth 32
      | 13 => s.rxenc.code.setWidth 32 <<< 27 ||| s.tidx.setWidth 32 <<< 24 ||| s.idx.setWidth 32 <<< 8
                ||| s.phase.setWidth 32 <<< 4 ||| s.rxmode.code.setWidth 32
      | 14 => s.tmo
      | _ => 0
    portStep (.regRead n) s = .next { s with replies := s.replies ++ [.reg n v] }

/-- R20, R22, R23: the fields of the three views, and that their reserved bits read 0. -/
def Obligations.ViewFields : Prop :=
  ∀ s : State,
    (s.statusView.extractLsb' 0 4 = s.outcome.code ∧ s.statusView.extractLsb' 4 4 = s.cause.code
      ∧ (s.statusView.getLsbD 8 = true ↔ s.rxmode ≠ .idle) ∧ s.statusView.extractLsb' 9 2 = s.fe.code
      ∧ s.statusView.extractLsb' 11 21 = 0)
    ∧ (s.escstView.getLsbD 0 = s.escp ∧ s.escstView.extractLsb' 1 3 = 0 ∧ s.escstView.extractLsb' 4 3 = s.cancnt
      ∧ s.escstView.getLsbD 7 = false ∧ s.escstView.extractLsb' 8 8 = s.lasttx ∧ s.escstView.extractLsb' 16 16 = 0)
    ∧ (s.rxstView.extractLsb' 0 3 = s.rxmode.code ∧ s.rxstView.getLsbD 3 = false ∧ s.rxstView.extractLsb' 4 3 = s.phase
      ∧ s.rxstView.getLsbD 7 = false ∧ s.rxstView.extractLsb' 8 16 = s.idx ∧ s.rxstView.extractLsb' 24 3 = s.tidx
      ∧ s.rxstView.extractLsb' 27 2 = s.rxenc.code ∧ s.rxstView.extractLsb' 29 3 = 0)

/-- R173: the effect of a register write while idle, by register number, and the refusal of one while a streaming command is
active. -/
def Obligations.RegisterWrite : Prop :=
  ∀ (s : State) (n : Nat) (v : Word),
    (s.rxmode ≠ .idle → portStep (.regWrite n v) s = .refused .registerWriteWhileBusy)
    ∧ (s.rxmode = .idle →
        ∃ t, portStep (.regWrite n v) s = .next t ∧
          match n with
          | 3 => t = { s with crc16 := v.extractLsb' 0 16 }
          | 4 => t = { s with crc32 := v }
          | 5 => t = { s with sum8 := v.extractLsb' 0 8 }
          | 6 => t = { s with htype := v.extractLsb' 0 8 }
          | 7 => t = { s with hval := v }
          | 8 => t = { s with henc := t.henc } ∧ t.henc.code = v.extractLsb' 0 2
          | 9 => t = { s with escp := t.escp, cancnt := t.cancnt, lasttx := t.lasttx } ∧ t.escp = v.getLsbD 0
                  ∧ t.cancnt.toNat = min (v.extractLsb' 4 3).toNat 5 ∧ t.lasttx = v.extractLsb' 8 8
          | 10 => t = { s with xblk := v.extractLsb' 0 8 }
          | 14 => t = { s with tmo := v }
          | _ => t = s)

/-- R174: while idle and below PBUF_SIZE a PBUF write stores one byte and changes nothing else, and a PBUF read returns the
byte and changes nothing; otherwise neither is enabled. What is returned stands in the model's reply log (log entry 3), and a
byte nothing has written is a free value (log entry 5). -/
def Obligations.BufferPort : Prop :=
  ∀ (s : State) (a : Nat) (b : Byte),
    (s.rxmode = .idle → a < s.pbufSize.bytes →
      portStep (.bufRead a) s = .next { s with replies := s.replies ++ [.buf a (s.pbufByte a)] }
      ∧ ∃ t, portStep (.bufWrite a b) s = .next t ∧ t = { s with pbuf := t.pbuf }
          ∧ t.pbuf.read a = some b ∧ t.pbufByte a = b
          ∧ ∀ a', a' ≠ a → t.pbuf.read a' = s.pbuf.read a' ∧ t.pbufByte a' = s.pbufByte a')
    ∧ (s.rxmode ≠ .idle ∨ s.pbufSize.bytes ≤ a →
        (∃ r, portStep (.bufRead a) s = .refused r) ∧ ∃ r, portStep (.bufWrite a b) s = .refused r)

/-- R175: TxTake removes the head of a queue that is not empty and hands it out, in every RXMODE, and changes no register; with
an empty queue it is not enabled. -/
def Obligations.TxTakeRemovesTheHead : Prop :=
  ∀ s : State,
    match s.txq with
    | b :: rest => portStep .txTake s = .next { s with txq := rest, replies := s.replies ++ [.tx b] }
    | [] => ∃ r, portStep .txTake s = .refused r

/-- The TX queue only ever grows at its tail, but for TxTake, RST and hardware reset (R47). -/
def Obligations.TxQueueGrowsAtTheTail : Prop :=
  ∀ (s t : State) (p : PortStep), portStep p s = .next t →
    p ≠ .txTake → p ≠ .hardReset → p ≠ .cmd 0x01000000 → ∃ bs : List Byte, t.txq = s.txq ++ bs

/-- R35: the state after hardware reset: what each register reads, the hidden elements, and no byte of PBUF written (that an
unwritten byte has no cell is the model's, log entry 5). -/
def Obligations.ResetState : Prop :=
  State.reset.AtResetValues ∧ State.reset.outcome = .none
  ∧ State.reset.regValue 0 = 0x50424601 ∧ State.reset.regValue 1 = 0 ∧ State.reset.regValue 9 = 0
  ∧ State.reset.regValue 13 = 0 ∧ State.reset.regValue 15 = 0 ∧ ∀ a, State.reset.pbuf.read a = none

/-- RST (R170, R202) in any RXMODE, and hardware reset at any point of the order (R200): every register and hidden element at
its reset value and the TX queue empty; OUTCOME Ok against None; PBUF, HBUF and TBUF unchanged against no written byte of PBUF.
The RST word is accepted in every RXMODE. That hardware reset is a step of the agenda, and that it leaves PBUF with no written
byte, are the model's choices (log entries 12 and 5). -/
def Obligations.ResetAndRst : Prop :=
  ∀ s : State,
    (∃ t, portStep .hardReset s = .next t ∧ t.AtResetValues ∧ t.outcome = .none ∧ ∀ a, t.pbuf.read a = none)
    ∧ encode .rst = 0x01000000 ∧ portStep (.cmd 0x01000000) s = exec .rst s
    ∧ ∃ t, exec .rst s = .next t ∧ t.AtResetValues ∧ t.outcome = .ok
        ∧ t.hbuf = s.hbuf ∧ t.tbuf = s.tbuf
        ∧ ∀ a, t.pbuf.read a = s.pbuf.read a ∧ t.pbufByte a = s.pbufByte a

/-- R184: the operands that complete BadOperand with RES 0 and no other change. -/
def Obligations.BadOperandChangesNothingElse : Prop :=
  ∀ (s : State) (i : Instr),
    (match i with
      | .hdrTx enc => enc = .reserved
      | .spkTx enc _ len => enc = .reserved ∨ s.pbufSize.bytes < len
      | .spkRx maxlen => s.henc = .reserved ∨ s.pbufSize.bytes < maxlen
      | .xbkTx _ len => 128 < len
      | _ => False) →
    exec i s = .next { s with outcome := .badOperand, cause := .none, rxmode := .idle, res := 0 }

/-- R36: an element the command's row does not mark written is untouched. -/
def Obligations.CommandWriteSets : Prop :=
  ∀ (s t : State) (i : Instr), exec i s = .next t → ∀ e : Element, e ∉ writeSet s.henc i → s.Same t e

/-- R36: an element the row of the active command does not mark written is untouched by its RX events. -/
def Obligations.EventWriteSets : Prop :=
  ∀ (s t : State) (ev : RxEvent), portStep (.rx ev) s = .next t → ∀ e : Element, e ∉ eventWriteSet s → s.Same t e

/-- PBUF is written by the PBUF port, by hardware reset, and by the RX events of SPK.RX and XBK.RX alone; such an event stores
at most at PBUF[IDX], and then IDX and RXLEN move past it (R56, R42, R179). -/
def Obligations.OnlyReceiversWriteTheBuffer : Prop :=
  ∀ (s t : State) (p : PortStep), portStep p s = .next t →
    match p with
    | .bufWrite a _ => ∀ a', a' ≠ a → t.pbuf.read a' = s.pbuf.read a'
    | .hardReset => True
    | .rx _ =>
      t.pbuf = s.pbuf
        ∨ (s.rxmode = .spk ∨ s.rxmode = .xbk) ∧ t.idx = s.idx + 1 ∧ t.rxlen = t.idx
          ∧ ∀ a', a' ≠ s.idx.toNat → t.pbuf.read a' = s.pbuf.read a' ∧ t.pbufByte a' = s.pbufByte a'
    | _ => t.pbuf = s.pbuf

/-! ### Checksum Unit (40_checksum) -/

/-- R92, R93, R94, R96, R97, R98, R99, R100: each command's word and its whole effect. -/
def Obligations.ChecksumCommands : Prop :=
  ∀ (s : State) (b : Byte),
    (encode .crc16Init = 0x10000000 ∧ exec .crc16Init s =
      .next { s with crc16 := 0x0000, outcome := .ok, cause := .none, rxmode := .idle, res := 0 })
    ∧ (encode (.crc16Upd b) = 0x11000000#32 ||| b.setWidth 32 <<< 16 ∧ exec (.crc16Upd b) s =
      .next { s with
        crc16 := crc16Step s.crc16 b, outcome := .ok, cause := .none, rxmode := .idle
        res := (crc16Step s.crc16 b).setWidth 32 })
    ∧ (encode .crc16Fin = 0x12000000 ∧ exec .crc16Fin s =
      .next { s with outcome := .ok, cause := .none, rxmode := .idle, res := s.crc16.setWidth 32 })
    ∧ (encode .crc32Init = 0x14000000 ∧ exec .crc32Init s =
      .next { s with crc32 := 0xFFFFFFFF, outcome := .ok, cause := .none, rxmode := .idle, res := 0 })
    ∧ (encode (.crc32Upd b) = 0x15000000#32 ||| b.setWidth 32 <<< 16 ∧ exec (.crc32Upd b) s =
      .next { s with
        crc32 := crc32Step s.crc32 b, outcome := .ok, cause := .none, rxmode := .idle, res := crc32Step s.crc32 b })
    ∧ (encode .crc32Fin = 0x16000000 ∧ exec .crc32Fin s =
      .next { s with outcome := .ok, cause := .none, rxmode := .idle, res := ~~~ s.crc32 })
    ∧ (encode .sum8Init = 0x18000000 ∧ exec .sum8Init s =
      .next { s with sum8 := 0x00, outcome := .ok, cause := .none, rxmode := .idle, res := 0 })
    ∧ (encode (.sum8Upd b) = 0x19000000#32 ||| b.setWidth 32 <<< 16 ∧ exec (.sum8Upd b) s =
      .next { s with
        sum8 := s.sum8 + b, outcome := .ok, cause := .none, rxmode := .idle, res := (s.sum8 + b).setWidth 32 })

/-- The host's checksum calls over a message return its CRC16, its CRC32 and its modulo-256 sum in RES, from any idle state
and for any message (R11, R12, R176). -/
def Obligations.ChecksumCalls : Prop :=
  ∀ (s : State) (m : List Byte), s.rxmode = .idle →
    (∃ t, runPorts (callCrc16 m) s = .next t ∧ t.crc16 = crc16Of m
      ∧ t.replies = s.replies ++ [.reg 2 ((crc16Of m).setWidth 32)])
    ∧ (∃ t, runPorts (callCrc32 m) s = .next t ∧ t.crc32 = ~~~ crc32Of m ∧ t.replies = s.replies ++ [.reg 2 (crc32Of m)])
    ∧ ∃ t, runPorts (callSum8 m) s = .next t ∧ t.sum8 = sum8Of m
        ∧ t.replies = s.replies ++ [.reg 2 ((sum8Of m).setWidth 32)]

/-- The table form of R91 with the table T16 that R103 prints computes the same step, for every accumulator and byte. -/
def Obligations.Crc16ByTable : Prop :=
  ∀ (c : Half) (b : Byte), crc16Step c b = crc16StepByTable c b

/-- The table form of R95 with the table T32 that R103 prints computes the same step, for every accumulator and byte. -/
def Obligations.Crc32ByTable : Prop :=
  ∀ (c : Word) (b : Byte), crc32Step c b = crc32StepByTable c b

/-- R102 (e): each step is a bijection on the accumulator for a fixed byte, and is linear. -/
def Obligations.CrcStepsBijectiveAndLinear : Prop :=
  (∀ b : Byte, Function.Bijective (fun c => crc16Step c b))
  ∧ (∀ (c c' : Half) (b : Byte), crc16Step c b ^^^ crc16Step c' b = crc16Step (c ^^^ c') 0)
  ∧ (∀ b : Byte, Function.Bijective (fun c => crc32Step c b))
  ∧ ∀ (c c' : Word) (b : Byte), crc32Step c b ^^^ crc32Step c' b = crc32Step (c ^^^ c') 0

/-- R102 (c), (d): folding a message and then its own check leaves the residue. -/
def Obligations.CrcResidues : Prop :=
  (∀ m : List Byte, crc16Of (m ++ [(crc16Of m).extractLsb' 8 8, (crc16Of m).extractLsb' 0 8]) = 0x0000)
  ∧ ∀ m : List Byte,
      crc32Run (m ++ [(crc32Of m).extractLsb' 0 8, (crc32Of m).extractLsb' 8 8, (crc32Of m).extractLsb' 16 8,
        (crc32Of m).extractLsb' 24 8]) = 0xDEBB20E3

/-- R102 (a), (b), (f): the empty message, the zero accumulator, and what the order of the bytes does. -/
def Obligations.ChecksumLaws : Prop :=
  crc16Of [] = 0x0000 ∧ crc32Run [] = 0xFFFFFFFF ∧ crc32Of [] = 0x00000000
  ∧ (∀ n : Nat, crc16Of (List.replicate n 0x00) = 0x0000)
  ∧ (∀ m m' : List Byte, m.Perm m' → sum8Of m = sum8Of m')
  ∧ (∃ m m' : List Byte, m.Perm m' ∧ crc16Of m ≠ crc16Of m')
  ∧ ∃ m m' : List Byte, m.Perm m' ∧ crc32Of m ≠ crc32Of m'

/-- Two messages that differ in exactly one byte never have the same CRC16, CRC32 or sum: the ground of the corruption
properties (42_header R133, 43_subpacket R153, 44_xblock R165). -/
def Obligations.OneByteChangeIsDetected : Prop :=
  ∀ (pre post : List Byte) (b b' : Byte), b ≠ b' →
    crc16Of (pre ++ b :: post) ≠ crc16Of (pre ++ b' :: post)
    ∧ crc32Of (pre ++ b :: post) ≠ crc32Of (pre ++ b' :: post)
    ∧ sum8Of (pre ++ b :: post) ≠ sum8Of (pre ++ b' :: post)

/-! ### Byte Escaping Codec (41_escape) -/

/-- R105, R107: the words and whole effects of ESC.RST and ESC.ENC, with the escape test of R106 written out. -/
def Obligations.EscapeCommands : Prop :=
  ∀ (s : State) (b : Byte),
    (encode .escRst = 0x20000000 ∧ exec .escRst s =
      .next { s with escp := false, cancnt := 0, lasttx := 0x00, outcome := .ok, cause := .none, rxmode := .idle, res := 0 })
    ∧ encode (.escEnc b) = 0x21000000#32 ||| b.setWidth 32 <<< 16
    ∧ exec (.escEnc b) s =
        if b &&& 0x60 = 0 ∧ (s.ctlesc = true ∨ b ∈ [0x10#8, 0x11#8, 0x13#8, 0x18#8, 0x90#8, 0x91#8, 0x93#8]
            ∨ b ∈ [0x0D#8, 0x8D#8] ∧ s.lasttx &&& 0x7F = 0x40) then
          .next { s with
            txq := s.txq ++ [0x18, b ^^^ 0x40], lasttx := b ^^^ 0x40, outcome := .ok, cause := .none, rxmode := .idle
            res := 0x00020000#32 ||| (b ^^^ 0x40).setWidth 32 <<< 8 ||| 0x18#32 }
        else
          .next { s with
            txq := s.txq ++ [b], lasttx := b, outcome := .ok, cause := .none, rxmode := .idle
            res := 0x00010000#32 ||| b.setWidth 32 }

/-- R108, R109: ESC.DEC classifies a wire byte in the order of the rule and reports the event in RES. -/
def Obligations.EscapeDecode : Prop :=
  ∀ (s : State) (w : Byte),
    let run : Nat := if w = 0x18 then min (s.cancnt.toNat + 1) 5 else 0
    let answer (escp : Bool) (kind value : Word) : Result :=
      .next { s with
        escp := escp, cancnt := BitVec.ofNat 3 run, outcome := .ok, cause := .none, rxmode := .idle
        res := kind <<< 8 ||| value }
    encode (.escDec w) = 0x22000000#32 ||| w.setWidth 32 <<< 16
    ∧ exec (.escDec w) s =
        if run = 5 then answer false 3 0
        else if w = 0x18 then answer true 1 0
        else if s.escp = false then answer false 0 (w.setWidth 32)
        else if 0x68#8 ≤ w ∧ w ≤ 0x6B#8 then answer false 2 (w.setWidth 32)
        else if w = 0x6C then answer false 0 0x7F
        else if w = 0x6D then answer false 0 0xFF
        else if w &&& 0x60 = 0x40 then answer false 0 ((w ^^^ 0x40).setWidth 32)
        else answer false 4 (w.setWidth 32)

/-- R112: the escape sets, by CTLESC and the last wire byte, and why '@' arises from an escaped 00 or 80. -/
def Obligations.EscapeSets : Prop :=
  ∀ b last : Byte,
    (last &&& 0x7F ≠ 0x40 →
      (escNeeds false b last = true ↔ b ∈ [0x10#8, 0x11#8, 0x13#8, 0x18#8, 0x90#8, 0x91#8, 0x93#8]))
    ∧ (last &&& 0x7F = 0x40 →
      (escNeeds false b last = true ↔
        b ∈ [0x10#8, 0x11#8, 0x13#8, 0x18#8, 0x90#8, 0x91#8, 0x93#8, 0x0D#8, 0x8D#8]))
    ∧ (escNeeds true b last = true ↔ b ≤ 0x1F#8 ∨ 0x80#8 ≤ b ∧ b ≤ 0x9F#8)
    ∧ (∀ ctlesc, escNeeds ctlesc 0x7F last = false ∧ escNeeds ctlesc 0xFF last = false)
    ∧ escLast true last 0x00 = 0x40 ∧ escLast true last 0x80 = 0xC0 ∧ escNeeds false 0x00 last = false
    ∧ escNeeds true 0x0D last = true

/-- R115: the class of the second byte of a pair by its range, and how many of the 255 bytes are in each class. -/
def Obligations.SecondByteClasses : Prop :=
  let seconds : List Byte := ((List.range 256).map (BitVec.ofNat 8)).filter (· ≠ 0x18)
  let toggled (w : Byte) : Bool := decide (0x40#8 ≤ w ∧ w ≤ 0x5F#8 ∨ 0xC0#8 ≤ w ∧ w ≤ 0xDF#8)
  let bad (w : Byte) : Bool := decide (w ≤ 0x17#8 ∨ 0x19#8 ≤ w ∧ w ≤ 0x3F#8 ∨ 0x60#8 ≤ w ∧ w ≤ 0x67#8
    ∨ 0x6E#8 ≤ w ∧ w ≤ 0xBF#8 ∨ 0xE0#8 ≤ w)
  (∀ fe : FrameEnd, escSecond (0x68 + fe.code.setWidth 8) = .frameEnd fe)
  ∧ escSecond 0x6C = .data 0x7F ∧ escSecond 0x6D = .data 0xFF
  ∧ (∀ w : Byte, toggled w = true → escSecond w = .data (w ^^^ 0x40))
  ∧ (∀ w : Byte, bad w = true → escSecond w = .badEscape w)
  ∧ seconds.countP (fun w => decide (0x68#8 ≤ w ∧ w ≤ 0x6B#8)) = 4 ∧ seconds.countP toggled = 64 ∧ seconds.countP bad = 185

/-- R110: what the encoder emits for a byte sequence decodes, the EscapeStarted events deleted, to exactly that sequence, and
CANCNT never exceeds 1 on the way. -/
def Obligations.EscapeRoundTrip : Prop :=
  ∀ (ctlesc : Bool) (last : Byte) (m : List Byte),
    (escEvents false 0 (escWires ctlesc last m)).filter (· ≠ .escapeStarted) = m.map .data
    ∧ ∀ k, ((escWires ctlesc last m).take k).foldl cancelRun 0 ≤ 1

/-- R111, R114: from a run of length k < 5, consecutive 0x18 bytes give EscapeStarted 4 - k times and then Abort for the next
and every further one, whatever ESCP is. -/
def Obligations.FifthCancelAborts : Prop :=
  ∀ (escp : Bool) (cancnt : BitVec 3) (more : Nat), cancnt.toNat < 5 →
    escEvents escp cancnt (List.replicate (4 - cancnt.toNat + (more + 1)) 0x18)
      = List.replicate (4 - cancnt.toNat) .escapeStarted ++ List.replicate (more + 1) .abort

/-! ### Header Codec (42_header) -/

/-- R80: the digits of a byte on transmit, and which bytes are digits, of which value, on receive. -/
def Obligations.HexDigits : Prop :=
  let alphabet : List Byte :=
    [0x30, 0x31, 0x32, 0x33, 0x34, 0x35, 0x36, 0x37, 0x38, 0x39, 0x61, 0x62, 0x63, 0x64, 0x65, 0x66]
  (∀ b : Byte, hexPair b = [alphabet.getD (b.toNat / 16) 0, alphabet.getD (b.toNat % 16) 0])
  ∧ ∀ w : Byte, (hexVal w).map BitVec.toNat = if w ∈ alphabet then some (alphabet.idxOf w) else none

/-- R120: the word and the whole effect of HDR.TX in each encoding, for every header. -/
def Obligations.HeaderTransmit : Prop :=
  ∀ (s : State) (enc : HdrEnc),
    let body : List Byte := [s.htype, s.hval.extractLsb' 0 8, s.hval.extractLsb' 8 8, s.hval.extractLsb' 16 8,
      s.hval.extractLsb' 24 8]
    let c := crc16Of body
    let f := ~~~ crc32Run body
    let wire16 := escWires s.ctlesc s.lasttx (body ++ [c.extractLsb' 8 8, c.extractLsb' 0 8])
    let wire32 := escWires s.ctlesc s.lasttx
      (body ++ [f.extractLsb' 0 8, f.extractLsb' 8 8, f.extractLsb' 16 8, f.extractLsb' 24 8])
    encode (.hdrTx enc) = 0x30000000#32 ||| enc.code.setWidth 32 <<< 16
    ∧ exec (.hdrTx enc) s =
        match enc with
        | .reserved => .next { s with outcome := .badOperand, cause := .none, rxmode := .idle, res := 0 }
        | .hex => .next { s with
            crc16 := c
            txq := s.txq ++ ([0x2A, 0x2A, 0x18, 0x42]
              ++ (body ++ [c.extractLsb' 8 8, c.extractLsb' 0 8]).flatMap hexPair ++ [0x0D, 0x0A])
            outcome := .ok, cause := .none, rxmode := .idle, res := 20 }
        | .bin16 => .next { s with
            crc16 := c, txq := s.txq ++ ([0x2A, 0x18, 0x41] ++ wire16), lasttx := wire16.getLastD s.lasttx
            outcome := .ok, cause := .none, rxmode := .idle, res := BitVec.ofNat 32 (3 + wire16.length) }
        | .bin32 => .next { s with
            crc32 := crc32Run body, txq := s.txq ++ ([0x2A, 0x18, 0x43] ++ wire32), lasttx := wire32.getLastD s.lasttx
            outcome := .ok, cause := .none, rxmode := .idle, res := BitVec.ofNat 32 (3 + wire32.length) }

/-- The acceptance of HDR.RX, SPK.RX and XBK.RX: the whole effect, for operands that are legal (R123, R146, R160). -/
def Obligations.ReceiversStart : Prop :=
  ∀ (s : State) (maxlen : Nat),
    (encode .hdrRx = 0x31000000
      ∧ exec .hdrRx s = .next { s with rxmode := .hdr, phase := 0, idx := 0, outcome := .none, cause := .none })
    ∧ (s.henc ≠ .reserved → maxlen ≤ s.pbufSize.bytes →
        exec (.spkRx maxlen) s = .next
          { s with
            rxmode := .spk, phase := 0, idx := 0, tidx := 0, rxlen := 0, rxmax := BitVec.ofNat 16 maxlen
            rxc32 := s.henc == .bin32, escp := false
            crc32 := if s.henc = .bin32 then 0xFFFFFFFF else s.crc32
            crc16 := if s.henc = .bin32 then s.crc16 else 0x0000
            outcome := .none, cause := .none })
    ∧ exec (.xbkRx .sum) s = .next
        { s with
          rxmode := .xbk, phase := 0, idx := 0, tidx := 0, rxlen := 0, xmode := .sum, rxc32 := false, sum8 := 0x00
          outcome := .none, cause := .none }
    ∧ exec (.xbkRx .crc) s = .next
        { s with
          rxmode := .xbk, phase := 0, idx := 0, tidx := 0, rxlen := 0, xmode := .crc, rxc32 := false, crc16 := 0x0000
          outcome := .none, cause := .none }

/-- A Timeout event completes the active command TimedOut in any phase and changes nothing else (R132, R147, R161). -/
def Obligations.TimeoutCompletes : Prop :=
  ∀ s : State, s.rxmode ≠ .idle →
    portStep (.rx .timeout) s = .next { s with outcome := .timedOut, cause := .none, rxmode := .idle, res := 0 }

/-- R126: hunting for the sentinel, for a byte that does not complete a cancel run. Phases 0 HUNT, 1 PAD, 2 FMT, 3 BODY. -/
def Obligations.HeaderHunt : Prop :=
  ∀ (s : State) (w : Byte), s.rxmode = .hdr → cancelRun s.cancnt w ≠ 5 →
    let t : State := { s with cancnt := cancelRun s.cancnt w }
    (s.phase = 0 → portStep (.rx (.byte w)) s = .next { t with phase := if w = 0x2A then 1 else 0 })
    ∧ (s.phase = 1 → portStep (.rx (.byte w)) s =
        .next { t with phase := if w = 0x2A then 1 else if w = 0x18 then 2 else 0 })
    ∧ (s.phase = 2 → w ∉ [0x41#8, 0x42#8, 0x43#8] →
        portStep (.rx (.byte w)) s = .next { t with phase := if w = 0x2A then 1 else 0 })
    ∧ (s.phase = 2 → ∀ enc ∈ [HdrEnc.bin16, HdrEnc.hex], w = 0x41 + enc.code.setWidth 8 →
        portStep (.rx (.byte w)) s = .next
          { t with phase := 3, idx := 0, escp := false, rxenc := enc, rxc32 := false, crc16 := 0x0000 })
    ∧ (s.phase = 2 → w = 0x43 →
        portStep (.rx (.byte w)) s = .next
          { t with phase := 3, idx := 0, escp := false, rxenc := .bin32, rxc32 := true, crc32 := 0xFFFFFFFF })

/-- R127: a byte of a HEX body that completes no cancel run: the high digit; the low digit with its fold; the fourteenth digit,
after which the trailer is compared with the check (R129) and the command completes Ok with the header registers written or
Corrupt with CheckMismatch; 0x18; a byte that is no digit. Phases 0 HUNT, 3 BODY. -/
def Obligations.HexBodyByte : Prop :=
  ∀ (s : State) (w : Byte), s.Inv → s.rxmode = .hdr → s.phase = 3 → s.rxenc = .hex → cancelRun s.cancnt w ≠ 5 →
    let j := s.idx.toNat / 2
    let t : State := { s with cancnt := cancelRun s.cancnt w }
    (w = 0x18 → portStep (.rx (.byte w)) s = .next { t with phase := 0 })
    ∧ (w ≠ 0x18 → hexVal w = none →
        portStep (.rx (.byte w)) s =
          .next { t with outcome := .corrupt, cause := .badHexDigit, rxmode := .idle, res := 0 })
    ∧ ∀ d, hexVal w = some d → ∃ h : j < 9,
        let b := s.hbuf[j] ||| d.setWidth 8
        (s.idx.toNat % 2 = 0 →
          portStep (.rx (.byte w)) s = .next { t with hbuf := s.hbuf.set j (d.setWidth 8 <<< 4), idx := s.idx + 1 })
        ∧ (s.idx.toNat % 2 = 1 → s.idx.toNat < 13 →
            portStep (.rx (.byte w)) s = .next
              { t with
                hbuf := s.hbuf.set j b, idx := s.idx + 1
                crc16 := if j < 5 then crc16Step s.crc16 b else s.crc16 })
        ∧ (s.idx.toNat = 13 →
            let hbuf := s.hbuf.set j b
            let u : State := { t with hbuf := hbuf, idx := 14 }
            ([hbuf[5], hbuf[6]] = beBytes s.crc16 → portStep (.rx (.byte w)) s = .next
              { u with
                htype := hbuf[0]
                hval := hbuf[1].setWidth 32 ||| hbuf[2].setWidth 32 <<< 8 ||| hbuf[3].setWidth 32 <<< 16
                  ||| hbuf[4].setWidth 32 <<< 24
                henc := .hex, outcome := .ok, cause := .none, rxmode := .idle, res := 0 })
            ∧ ([hbuf[5], hbuf[6]] ≠ beBytes s.crc16 → portStep (.rx (.byte w)) s = .next
              { u with outcome := .corrupt, cause := .checkMismatch, rxmode := .idle, res := 0 }))

/-- R123, R129, R130. First: an RX event of HDR.RX writes HTYPE, HVAL and HENC exactly when it completes Ok; it completes Ok
only if the received trailer, assembled in wire order, equals the check in the accumulator, and then the header is the body
received. Second, the binary body: what each event of the escape decoder does; a decoded byte short of the last is stored, folded
if it is one of the first five, and not yet accepted; the last completes Ok exactly if the trailer equals the check, else Corrupt
with CheckMismatch. The HEX body is HexBodyByte. -/
def Obligations.HeaderAcceptedOnlyIfCheckVerifies : Prop :=
  (∀ (s t : State) (ev : RxEvent), s.Inv → s.CheckCurrent → s.rxmode = .hdr → portStep (.rx ev) s = .next t →
    (t.outcome ≠ .ok → t.htype = s.htype ∧ t.hval = s.hval ∧ t.henc = s.henc)
    ∧ (t.outcome = .ok →
        let body : List Byte := [t.hbuf[0], t.hbuf[1], t.hbuf[2], t.hbuf[3], t.hbuf[4]]
        t.htype = t.hbuf[0] ∧ leBytes t.hval = [t.hbuf[1], t.hbuf[2], t.hbuf[3], t.hbuf[4]] ∧ t.henc = s.rxenc
        ∧ if s.rxenc = .bin32 then leBytes (crc32Of body) = [t.hbuf[5], t.hbuf[6], t.hbuf[7], t.hbuf[8]]
          else beBytes (crc16Of body) = [t.hbuf[5], t.hbuf[6]]))
  ∧ ∀ (s : State) (w : Byte), s.Inv → s.rxmode = .hdr → s.phase = 3 → s.rxenc ≠ .hex →
    let event := escEvent s.escp (cancelRun s.cancnt w) w
    let done (t : State) (o : CmdOutcome) (c : Cause) : State := { t with outcome := o, cause := c, rxmode := .idle, res := 0 }
    let t : State := { s with cancnt := 0, escp := false }
    (event = .abort → portStep (.rx (.byte w)) s = .next (done { t with cancnt := 5 } .abort .none))
    ∧ (event = .escapeStarted →
        portStep (.rx (.byte w)) s = .next { s with cancnt := cancelRun s.cancnt w, escp := true })
    ∧ (∀ fe, event = .frameEnd fe → portStep (.rx (.byte w)) s = .next (done t .corrupt .unexpectedFrameEnd))
    ∧ (∀ x, event = .badEscape x → portStep (.rx (.byte w)) s = .next (done t .corrupt .badEscape))
    ∧ ∀ b, event = .data b → ∃ h : s.idx.toNat < 9,
        let wide : Prop := s.rxenc = .bin32
        let hbuf := s.hbuf.set s.idx.toNat b
        let u : State :=
          { t with
            hbuf := hbuf, idx := s.idx + 1
            crc32 := if wide ∧ s.idx.toNat < 5 then crc32Step s.crc32 b else s.crc32
            crc16 := if ¬ wide ∧ s.idx.toNat < 5 then crc16Step s.crc16 b else s.crc16 }
        let verified : Prop :=
          if wide then [hbuf[5], hbuf[6], hbuf[7], hbuf[8]] = leBytes (~~~ s.crc32)
          else [hbuf[5], hbuf[6]] = beBytes s.crc16
        (s.idx.toNat + 1 < (if wide then 9 else 7) → portStep (.rx (.byte w)) s = .next u)
        ∧ (s.idx.toNat + 1 = (if wide then 9 else 7) →
            (verified → portStep (.rx (.byte w)) s = .next (done
              { u with
                htype := hbuf[0]
                hval := hbuf[1].setWidth 32 ||| hbuf[2].setWidth 32 <<< 8 ||| hbuf[3].setWidth 32 <<< 16
                  ||| hbuf[4].setWidth 32 <<< 24
                henc := s.rxenc } .ok .none))
            ∧ (¬ verified → portStep (.rx (.byte w)) s = .next (done u .corrupt .checkMismatch)))

/-- R133 (its round trip): the bytes HDR.TX appends, after any prefix with no 0x2A that completes no cancel run, delivered to
an HDR.RX complete Ok on the last byte (for HEX, the last before CR LF) with the same header. -/
def Obligations.HeaderRoundTrip : Prop :=
  ∀ (a a' b : State) (enc : HdrEnc) (junk : List Byte), enc ≠ .reserved → exec (.hdrTx enc) a = .next a' →
    b.rxmode = .idle → 0x2A#8 ∉ junk → RunStaysShort b.cancnt junk →
    let wire := a'.txq.drop a.txq.length
    let heard := if enc = .hex then wire.take (wire.length - 2) else wire
    ∃ t, runPorts (present .hdrRx :: deliver (junk ++ heard)) b = .next t
      ∧ t.outcome = .ok ∧ t.rxmode = .idle ∧ t.htype = a.htype ∧ t.hval = a.hval ∧ t.henc = enc

/-- R128, R150, R162, R111, R114: with a run of k cancel bytes counted, an active HDR.RX or SPK.RX in any phase, or XBK.RX in
phase START, stays active through 4 - k further bytes 0x18 and completes Abort on the next; with k = 5, a saturated run carried
over from before the command, it completes Abort on the first. -/
def Obligations.CancelRunAborts : Prop :=
  ∀ s : State, s.Inv → s.rxmode = .hdr ∨ s.rxmode = .spk ∨ (s.rxmode = .xbk ∧ s.phase = 0) →
    ∃ t u, runPorts (deliver (List.replicate (4 - s.cancnt.toNat) 0x18)) s = .next t ∧ t.rxmode = s.rxmode
      ∧ portStep (.rx (.byte 0x18)) t = .next u
      ∧ u.rxmode = .idle ∧ u.outcome = .abort ∧ u.cause = .none ∧ u.res = 0 ∧ u.cancnt = 5
      ∧ u.pbuf = s.pbuf ∧ u.rxlen = s.rxlen ∧ u.htype = s.htype ∧ u.hval = s.hval ∧ u.henc = s.henc

/-! ### Data Subpacket Codec (43_subpacket) -/

/-- R141: the word and the whole effect of SPK.TX, for every payload, marker and encoding. That a payload reaching bytes never
written since hardware reset is sent with free values, and does not fault as R42 advises, is the model's choice (log entry 5). -/
def Obligations.SubpacketTransmit : Prop :=
  ∀ (s : State) (enc : HdrEnc) (fe : FrameEnd) (len : Nat),
    (len < 65536 → encode (.spkTx enc fe len)
      = 0x40000000#32 ||| fe.code.setWidth 32 <<< 18 ||| enc.code.setWidth 32 <<< 16 ||| BitVec.ofNat 32 len)
    ∧ (enc = .reserved ∨ s.pbufSize.bytes < len →
        exec (.spkTx enc fe len) s = .next { s with outcome := .badOperand, cause := .none, rxmode := .idle, res := 0 })
    ∧ (enc ≠ .reserved → len ≤ s.pbufSize.bytes →
        let payload := (List.range len).map s.pbufByte
        let letter : Byte := 0x68 + fe.code.setWidth 8
        let c := crc16Of (payload ++ [letter])
        let f := ~~~ crc32Run (payload ++ [letter])
        let trailer : List Byte :=
          if enc = .bin32 then [f.extractLsb' 0 8, f.extractLsb' 8 8, f.extractLsb' 16 8, f.extractLsb' 24 8]
          else [c.extractLsb' 8 8, c.extractLsb' 0 8]
        let first := escWires s.ctlesc s.lasttx payload
        let second := escWires s.ctlesc (first.getLastD s.lasttx) trailer
        exec (.spkTx enc fe len) s = .next
          { s with
            crc32 := if enc = .bin32 then ~~~ f else s.crc32
            crc16 := if enc = .bin32 then s.crc16 else c
            txq := s.txq ++ (first ++ [0x18, letter] ++ second)
            lasttx := second.getLastD (first.getLastD s.lasttx)
            outcome := .ok, cause := .none, rxmode := .idle
            res := BitVec.ofNat 32 (first.length + 2 + second.length) })

/-- R148: a frame-end marker in phase DATA is folded and latched and opens the trailer; a command that ends in phase DATA
leaves FE as it was, and so does everything in the trailer. -/
def Obligations.FrameEndIsLatched : Prop :=
  ∀ (s : State) (w : Byte) (fe : FrameEnd), s.rxmode = .spk →
    (s.phase = 0 → escEvent s.escp (cancelRun s.cancnt w) w = .frameEnd fe →
      w = 0x68 + fe.code.setWidth 8 ∧ portStep (.rx (.byte w)) s = .next
        { s with
          cancnt := 0, escp := false, fe := fe, phase := 1, tidx := 0
          crc32 := if s.rxc32 then crc32Step s.crc32 w else s.crc32
          crc16 := if s.rxc32 then s.crc16 else crc16Step s.crc16 w })
    ∧ ∀ (ev : RxEvent) (t : State), portStep (.rx ev) s = .next t → t.rxmode = .idle ∨ s.phase = 1 → t.fe = s.fe

/-- R151, R147: what each event of the escape decoder but a frame end (FrameEndIsLatched) does in phase DATA of SPK.RX. The
payload byte after the maxlen-th completes Overrun at once, neither stored nor folded; a payload byte before it is stored and
folded; EscapeStarted changes only ESCP and CANCNT; a bad second byte completes Corrupt with BadEscape. -/
def Obligations.PayloadOrOverrun : Prop :=
  ∀ (s : State) (w : Byte), s.Inv → s.rxmode = .spk → s.phase = 0 →
    let event := escEvent s.escp (cancelRun s.cancnt w) w
    let done (t : State) (o : CmdOutcome) (c : Cause) : State := { t with outcome := o, cause := c, rxmode := .idle, res := 0 }
    let t : State := { s with cancnt := 0, escp := false }
    (event = .abort → portStep (.rx (.byte w)) s = .next (done { t with cancnt := 5 } .abort .none))
    ∧ (event = .escapeStarted →
        portStep (.rx (.byte w)) s = .next { s with cancnt := cancelRun s.cancnt w, escp := true })
    ∧ (∀ x, event = .badEscape x → portStep (.rx (.byte w)) s = .next (done t .corrupt .badEscape))
    ∧ ∀ b, event = .data b →
        (s.idx = s.rxmax → s.rxlen = s.rxmax ∧ portStep (.rx (.byte w)) s = .next (done t .overrun .none))
        ∧ (s.idx ≠ s.rxmax → ∃ u, portStep (.rx (.byte w)) s = .next u
            ∧ u = { t with
                idx := s.idx + 1, rxlen := s.idx + 1, pbuf := u.pbuf
                crc32 := if s.rxc32 then crc32Step s.crc32 b else s.crc32
                crc16 := if s.rxc32 then s.crc16 else crc16Step s.crc16 b }
            ∧ u.pbuf.read s.idx.toNat = some b
            ∧ ∀ a, a ≠ s.idx.toNat → u.pbuf.read a = s.pbuf.read a)

/-- R149, R147: what each event of the escape decoder does in phase TRAIL of SPK.RX. A trailer byte is stored and not folded;
the last one completes Ok exactly if the trailer equals the computed check, else Corrupt with CheckMismatch; a frame end
completes Corrupt with UnexpectedFrameEnd; EscapeStarted changes only ESCP and CANCNT; a bad second byte completes Corrupt with
BadEscape. -/
def Obligations.SubpacketTrailer : Prop :=
  ∀ (s : State) (w : Byte), s.Inv → s.rxmode = .spk → s.phase = 1 →
    (escEvent s.escp (cancelRun s.cancnt w) w = .abort → portStep (.rx (.byte w)) s = .next
      { s with cancnt := 5, escp := false, outcome := .abort, cause := .none, rxmode := .idle, res := 0 })
    ∧ (escEvent s.escp (cancelRun s.cancnt w) w = .escapeStarted →
        portStep (.rx (.byte w)) s = .next { s with cancnt := cancelRun s.cancnt w, escp := true })
    ∧ (∀ x, escEvent s.escp (cancelRun s.cancnt w) w = .badEscape x → portStep (.rx (.byte w)) s = .next
        { s with cancnt := 0, escp := false, outcome := .corrupt, cause := .badEscape, rxmode := .idle, res := 0 })
    ∧ (∀ fe, escEvent s.escp (cancelRun s.cancnt w) w = .frameEnd fe →
      portStep (.rx (.byte w)) s = .next
        { s with cancnt := 0, escp := false, outcome := .corrupt, cause := .unexpectedFrameEnd, rxmode := .idle, res := 0 })
    ∧ ∀ b, escEvent s.escp (cancelRun s.cancnt w) w = .data b → ∃ h : s.tidx.toNat < 4,
        let tbuf := s.tbuf.set s.tidx.toNat b
        let t : State := { s with cancnt := 0, escp := false, tbuf := tbuf, tidx := s.tidx + 1 }
        let verified : Prop :=
          if s.rxc32 then [tbuf[0], tbuf[1], tbuf[2], tbuf[3]] = leBytes (~~~ s.crc32)
          else [tbuf[0], tbuf[1]] = beBytes s.crc16
        (s.tidx.toNat + 1 < (if s.rxc32 then 4 else 2) → portStep (.rx (.byte w)) s = .next t)
        ∧ (s.tidx.toNat + 1 = (if s.rxc32 then 4 else 2) →
            (verified → portStep (.rx (.byte w)) s =
              .next { t with outcome := .ok, cause := .none, rxmode := .idle, res := 0 })
            ∧ (¬ verified → portStep (.rx (.byte w)) s =
              .next { t with outcome := .corrupt, cause := .checkMismatch, rxmode := .idle, res := 0 }))

/-- R144: whenever SPK.RX completes Ok, the trailer it received is the check of the logical payload and the frame-end letter. -/
def Obligations.SubpacketOkMeansVerified : Prop :=
  ∀ (s t : State) (ev : RxEvent), s.Inv → s.CheckCurrent → s.rxmode = .spk → portStep (.rx ev) s = .next t →
    t.outcome = .ok →
    let m := t.payload t.rxlen.toNat ++ [(0x68 : Byte) + t.fe.code.setWidth 8]
    if t.rxc32 then leBytes (crc32Of m) = [t.tbuf[0], t.tbuf[1], t.tbuf[2], t.tbuf[3]]
    else beBytes (crc16Of m) = [t.tbuf[0], t.tbuf[1]]

/-- R152: the bytes SPK.TX appends, delivered to an SPK.RX whose HENC agrees with the sender's encoding in CRC width, complete
Ok on the last byte with the payload, its length and the marker. -/
def Obligations.SubpacketRoundTrip : Prop :=
  ∀ (a a' b : State) (enc : HdrEnc) (fe : FrameEnd) (len maxlen : Nat),
    enc ≠ .reserved → len ≤ a.pbufSize.bytes → exec (.spkTx enc fe len) a = .next a' →
    b.rxmode = .idle → b.henc ≠ .reserved → (b.henc = .bin32 ↔ enc = .bin32) →
    len ≤ maxlen → maxlen ≤ b.pbufSize.bytes → b.cancnt.toNat ≤ 3 →
    ∃ t, runPorts (present (.spkRx maxlen) :: deliver (a'.txq.drop a.txq.length)) b = .next t
      ∧ t.outcome = .ok ∧ t.rxmode = .idle ∧ t.rxlen.toNat = len ∧ t.fe = fe
      ∧ ∀ i < len, t.pbufByte i = a.pbufByte i

/-! ### XMODEM/YMODEM blocks (44_xblock) -/

/-- R156: the word and the whole effect of XBK.TX in both modes, for every payload and block number. That a payload reaching
bytes never written since hardware reset is sent with free values, and does not fault as R42 advises, is the model's choice (log
entry 5). -/
def Obligations.BlockTransmit : Prop :=
  ∀ (s : State) (mode : CheckMode) (len : Nat),
    (len < 65536 → encode (.xbkTx mode len) = 0x50000000#32 ||| mode.code.setWidth 32 <<< 16 ||| BitVec.ofNat 32 len)
    ∧ (128 < len →
        exec (.xbkTx mode len) s = .next { s with outcome := .badOperand, cause := .none, rxmode := .idle, res := 0 })
    ∧ (len ≤ 128 →
        let d := (List.range len).map s.pbufByte ++ List.replicate (128 - len) 0x00
        let c := crc16Of d
        exec (.xbkTx mode len) s =
          match mode with
          | .sum => .next { s with
              sum8 := sum8Of d, txq := s.txq ++ ([0x01, s.xblk, s.xblk ^^^ 0xFF] ++ d ++ [sum8Of d])
              outcome := .ok, cause := .none, rxmode := .idle, res := 132 }
          | .crc => .next { s with
              crc16 := c
              txq := s.txq ++ ([0x01, s.xblk, s.xblk ^^^ 0xFF] ++ d ++ [c.extractLsb' 8 8, c.extractLsb' 0 8])
              outcome := .ok, cause := .none, rxmode := .idle, res := 133 })

/-- R161, R162, R163: phases START, BLK and CBLK of XBK.RX. Phases 0 START, 1 BLK, 2 CBLK, 3 DATA. -/
def Obligations.BlockHeaderBytes : Prop :=
  ∀ (s : State) (w : Byte), s.rxmode = .xbk →
    let done (t : State) (o : CmdOutcome) (c : Cause) : State := { t with outcome := o, cause := c, rxmode := .idle, res := 0 }
    (s.phase = 0 →
      let t : State := { s with cancnt := cancelRun s.cancnt w }
      portStep (.rx (.byte w)) s = .next
        (if cancelRun s.cancnt w = 5 then done t .abort .none
         else if w = 0x01 then { t with phase := 1 }
         else if w = 0x04 then done t .ended .none
         else if w = 0x18 then t
         else done t .corrupt .badStart))
    ∧ (s.phase = 1 → portStep (.rx (.byte w)) s = .next { s with cancnt := 0, xrblk := w, phase := 2 })
    ∧ (s.phase = 2 → portStep (.rx (.byte w)) s = .next
        (if w = s.xrblk ^^^ 0xFF then { s with cancnt := 0, phase := 3, idx := 0 }
         else done { s with cancnt := 0 } .corrupt .badComplement))

/-- R161, R163: phases DATA and TRAIL of XBK.RX: every byte of the payload is stored and folded, whatever its value, and the
trailer is compared with the computed check. Phases 3 DATA, 4 TRAIL. -/
def Obligations.BlockPayloadAndTrailer : Prop :=
  ∀ (s : State) (w : Byte), s.Inv → s.rxmode = .xbk →
    let done (t : State) (ok : Bool) : State :=
      { t with
        outcome := if ok then .ok else .corrupt, cause := if ok then .none else .checkMismatch, rxmode := .idle, res := 0 }
    (s.phase = 3 → ∃ t, portStep (.rx (.byte w)) s = .next t
      ∧ t = { s with
          cancnt := 0, idx := s.idx + 1, rxlen := s.idx + 1, pbuf := t.pbuf
          sum8 := if s.xmode = .sum then s.sum8 + w else s.sum8
          crc16 := if s.xmode = .crc then crc16Step s.crc16 w else s.crc16
          phase := if s.idx = 127 then 4 else 3, tidx := if s.idx = 127 then 0 else s.tidx }
      ∧ t.pbuf.read s.idx.toNat = some w ∧ ∀ a, a ≠ s.idx.toNat → t.pbuf.read a = s.pbuf.read a)
    ∧ (s.phase = 4 → s.xmode = .sum → portStep (.rx (.byte w)) s = .next (done { s with cancnt := 0 } (w == s.sum8)))
    ∧ (s.phase = 4 → s.xmode = .crc → s.tidx = 0 →
        portStep (.rx (.byte w)) s = .next { s with cancnt := 0, tbuf := s.tbuf.set 0 w, tidx := 1 })
    ∧ (s.phase = 4 → s.xmode = .crc → s.tidx = 1 →
        portStep (.rx (.byte w)) s = .next
          (done { s with cancnt := 0, tbuf := s.tbuf.set 1 w, tidx := 2 } ([s.tbuf[0], w] == beBytes s.crc16)))

/-- R165 (its round trip): the bytes XBK.TX appends, delivered to an XBK.RX in the same mode, complete Ok on the last byte with
the block number and the payload, zero-padded to 128 bytes. -/
def Obligations.BlockRoundTrip : Prop :=
  ∀ (a a' b : State) (mode : CheckMode) (len : Nat),
    len ≤ 128 → exec (.xbkTx mode len) a = .next a' → b.rxmode = .idle →
    ∃ t, runPorts (present (.xbkRx mode) :: deliver (a'.txq.drop a.txq.length)) b = .next t
      ∧ t.outcome = .ok ∧ t.rxmode = .idle ∧ t.xrblk = a.xblk ∧ t.rxlen = 128
      ∧ ∀ i < 128, t.pbufByte i = if i < len then a.pbufByte i else 0x00

/-! ### The whole machine -/

/-- R177, R186: an RX event either leaves the command active with OUTCOME None, CAUSE None and RES unchanged, or completes it
with an outcome, RES 0 unless the outcome says otherwise, and RXMODE IDLE, all in that one step. -/
def Obligations.EventCompletesInOneStep : Prop :=
  ∀ (s t : State) (ev : RxEvent), s.Inv → portStep (.rx ev) s = .next t →
    (t.rxmode = s.rxmode ∧ t.outcome = .none ∧ t.cause = .none ∧ t.res = s.res)
    ∨ (t.rxmode = .idle ∧ t.outcome ∈ [CmdOutcome.ok, .timedOut, .corrupt, .overrun, .abort, .ended] ∧ t.res = 0)

/-- Which commands give which outcomes (R180, R184, R185): a command in its one step completes Ok, or BadOperand for an operand
of R184, or is accepted as a streaming command with OUTCOME None. That exec answers so whatever RXMODE is, and that SPK.TX and
XBK.TX complete on bytes never written, are the model's choices (log entries 10 and 5). -/
def Obligations.CommandOutcomes : Prop :=
  ∀ (s : State) (i : Instr), ∃ t, exec i s = .next t ∧ t.cause = .none
    ∧ match i with
      | .hdrRx => t.outcome = .none ∧ t.rxmode = .hdr
      | .xbkRx _ => t.outcome = .none ∧ t.rxmode = .xbk
      | .spkRx maxlen =>
        if s.henc = .reserved ∨ s.pbufSize.bytes < maxlen then t.outcome = .badOperand ∧ t.rxmode = .idle
        else t.outcome = .none ∧ t.rxmode = .spk
      | .hdrTx enc => t.rxmode = .idle ∧ t.outcome = if enc = .reserved then .badOperand else .ok
      | .spkTx enc _ len =>
        t.rxmode = .idle ∧ t.outcome = if enc = .reserved ∨ s.pbufSize.bytes < len then .badOperand else .ok
      | .xbkTx _ len => t.rxmode = .idle ∧ t.outcome = if 128 < len then .badOperand else .ok
      | _ => t.rxmode = .idle ∧ t.outcome = .ok

/-- The invariant holds right after reset. -/
def Obligations.ResetMeetsInvariant : Prop := State.reset.Inv ∧ State.reset.CheckCurrent

/-- Every step keeps the invariant: PBUF stays canonical and inside its bounds, the received bytes are written, CANCNT, CAUSE,
RES and OUTCOME stay consistent, and the sequencing state stays one the rules name. -/
def Obligations.StepKeepsInvariant : Prop :=
  ∀ s t : State, s.Inv → step s = .next t → t.Inv

/-- Every step keeps the accumulator of an active receive command equal to the check of exactly the logical bytes received so
far (R129, R144). -/
def Obligations.StepKeepsCheckCurrent : Prop :=
  ∀ s t : State, s.Inv → s.CheckCurrent → step s = .next t → t.CheckCurrent

/-- Under the invariant no step faults: every enabled port step has a defined effect, and the counters never leave their
buffers (R30, R41, R179). -/
def Obligations.NoStepFaults : Prop :=
  ∀ (s : State) (r : Fault), s.Inv → step s ≠ .fault r
end

