-- ==== Sys2Proof/Laws/State.lean ====
section
/-! SUPPORT. One lemma per field per update: what each named operation of Machine/Ops.lean leaves in each field, so that no
later proof unfolds a record update. Each is true by rfl; the proof stands in parentheses so that simp treats the lemma as a
rewrite rule and carries the decidability of a condition along. -/

namespace Sys2Proof.Machine

variable (s : State)

theorem State.failWith_eq (o : CmdOutcome) (c : Cause) : s.failWith o c = s.finish o c 0 := rfl
theorem State.illegalCommand_eq : s.illegalCommand = s.finish .illegalCommand .none 0 := rfl
theorem State.badOperand_eq : s.badOperand = s.finish .badOperand .none 0 := rfl
theorem State.finishSent_eq (b : State) :
    s.finishSent b = s.finish .ok .none (BitVec.ofNat 32 (s.txq.length - b.txq.length)) := rfl
theorem State.hardReset_eq :
    s.hardReset = { State.reset with
      pbufSize := s.pbufSize, ctlesc := s.ctlesc, epoch := s.epoch + 1, agenda := s.agenda, replies := s.replies } := rfl

/-! ### complete -/

@[simp] theorem State.complete_crc16 (o : CmdOutcome) (c : Cause) : (s.complete o c).crc16 = s.crc16 := (rfl)
@[simp] theorem State.complete_crc32 (o : CmdOutcome) (c : Cause) : (s.complete o c).crc32 = s.crc32 := (rfl)
@[simp] theorem State.complete_sum8 (o : CmdOutcome) (c : Cause) : (s.complete o c).sum8 = s.sum8 := (rfl)
@[simp] theorem State.complete_htype (o : CmdOutcome) (c : Cause) : (s.complete o c).htype = s.htype := (rfl)
@[simp] theorem State.complete_hval (o : CmdOutcome) (c : Cause) : (s.complete o c).hval = s.hval := (rfl)
@[simp] theorem State.complete_henc (o : CmdOutcome) (c : Cause) : (s.complete o c).henc = s.henc := (rfl)
@[simp] theorem State.complete_xblk (o : CmdOutcome) (c : Cause) : (s.complete o c).xblk = s.xblk := (rfl)
@[simp] theorem State.complete_xrblk (o : CmdOutcome) (c : Cause) : (s.complete o c).xrblk = s.xrblk := (rfl)
@[simp] theorem State.complete_rxlen (o : CmdOutcome) (c : Cause) : (s.complete o c).rxlen = s.rxlen := (rfl)
@[simp] theorem State.complete_tmo (o : CmdOutcome) (c : Cause) : (s.complete o c).tmo = s.tmo := (rfl)
@[simp] theorem State.complete_res (o : CmdOutcome) (c : Cause) : (s.complete o c).res = s.res := (rfl)
@[simp] theorem State.complete_outcome (o : CmdOutcome) (c : Cause) : (s.complete o c).outcome = o := (rfl)
@[simp] theorem State.complete_cause (o : CmdOutcome) (c : Cause) : (s.complete o c).cause = c := (rfl)
@[simp] theorem State.complete_fe (o : CmdOutcome) (c : Cause) : (s.complete o c).fe = s.fe := (rfl)
@[simp] theorem State.complete_escp (o : CmdOutcome) (c : Cause) : (s.complete o c).escp = s.escp := (rfl)
@[simp] theorem State.complete_cancnt (o : CmdOutcome) (c : Cause) : (s.complete o c).cancnt = s.cancnt := (rfl)
@[simp] theorem State.complete_lasttx (o : CmdOutcome) (c : Cause) : (s.complete o c).lasttx = s.lasttx := (rfl)
@[simp] theorem State.complete_rxmode (o : CmdOutcome) (c : Cause) : (s.complete o c).rxmode = .idle := (rfl)
@[simp] theorem State.complete_phase (o : CmdOutcome) (c : Cause) : (s.complete o c).phase = s.phase := (rfl)
@[simp] theorem State.complete_idx (o : CmdOutcome) (c : Cause) : (s.complete o c).idx = s.idx := (rfl)
@[simp] theorem State.complete_tidx (o : CmdOutcome) (c : Cause) : (s.complete o c).tidx = s.tidx := (rfl)
@[simp] theorem State.complete_hbuf (o : CmdOutcome) (c : Cause) : (s.complete o c).hbuf = s.hbuf := (rfl)
@[simp] theorem State.complete_tbuf (o : CmdOutcome) (c : Cause) : (s.complete o c).tbuf = s.tbuf := (rfl)
@[simp] theorem State.complete_rxenc (o : CmdOutcome) (c : Cause) : (s.complete o c).rxenc = s.rxenc := (rfl)
@[simp] theorem State.complete_rxc32 (o : CmdOutcome) (c : Cause) : (s.complete o c).rxc32 = s.rxc32 := (rfl)
@[simp] theorem State.complete_rxmax (o : CmdOutcome) (c : Cause) : (s.complete o c).rxmax = s.rxmax := (rfl)
@[simp] theorem State.complete_xmode (o : CmdOutcome) (c : Cause) : (s.complete o c).xmode = s.xmode := (rfl)
@[simp] theorem State.complete_pbuf (o : CmdOutcome) (c : Cause) : (s.complete o c).pbuf = s.pbuf := (rfl)
@[simp] theorem State.complete_txq (o : CmdOutcome) (c : Cause) : (s.complete o c).txq = s.txq := (rfl)
@[simp] theorem State.complete_pbufSize (o : CmdOutcome) (c : Cause) : (s.complete o c).pbufSize = s.pbufSize := (rfl)
@[simp] theorem State.complete_ctlesc (o : CmdOutcome) (c : Cause) : (s.complete o c).ctlesc = s.ctlesc := (rfl)
@[simp] theorem State.complete_epoch (o : CmdOutcome) (c : Cause) : (s.complete o c).epoch = s.epoch := (rfl)
@[simp] theorem State.complete_agenda (o : CmdOutcome) (c : Cause) : (s.complete o c).agenda = s.agenda := (rfl)
@[simp] theorem State.complete_replies (o : CmdOutcome) (c : Cause) : (s.complete o c).replies = s.replies := (rfl)

/-! ### finish -/

@[simp] theorem State.finish_crc16 (o : CmdOutcome) (c : Cause) (r : Word) : (s.finish o c r).crc16 = s.crc16 := (rfl)
@[simp] theorem State.finish_crc32 (o : CmdOutcome) (c : Cause) (r : Word) : (s.finish o c r).crc32 = s.crc32 := (rfl)
@[simp] theorem State.finish_sum8 (o : CmdOutcome) (c : Cause) (r : Word) : (s.finish o c r).sum8 = s.sum8 := (rfl)
@[simp] theorem State.finish_htype (o : CmdOutcome) (c : Cause) (r : Word) : (s.finish o c r).htype = s.htype := (rfl)
@[simp] theorem State.finish_hval (o : CmdOutcome) (c : Cause) (r : Word) : (s.finish o c r).hval = s.hval := (rfl)
@[simp] theorem State.finish_henc (o : CmdOutcome) (c : Cause) (r : Word) : (s.finish o c r).henc = s.henc := (rfl)
@[simp] theorem State.finish_xblk (o : CmdOutcome) (c : Cause) (r : Word) : (s.finish o c r).xblk = s.xblk := (rfl)
@[simp] theorem State.finish_xrblk (o : CmdOutcome) (c : Cause) (r : Word) : (s.finish o c r).xrblk = s.xrblk := (rfl)
@[simp] theorem State.finish_rxlen (o : CmdOutcome) (c : Cause) (r : Word) : (s.finish o c r).rxlen = s.rxlen := (rfl)
@[simp] theorem State.finish_tmo (o : CmdOutcome) (c : Cause) (r : Word) : (s.finish o c r).tmo = s.tmo := (rfl)
@[simp] theorem State.finish_res (o : CmdOutcome) (c : Cause) (r : Word) : (s.finish o c r).res = r := (rfl)
@[simp] theorem State.finish_outcome (o : CmdOutcome) (c : Cause) (r : Word) : (s.finish o c r).outcome = o := (rfl)
@[simp] theorem State.finish_cause (o : CmdOutcome) (c : Cause) (r : Word) : (s.finish o c r).cause = c := (rfl)
@[simp] theorem State.finish_fe (o : CmdOutcome) (c : Cause) (r : Word) : (s.finish o c r).fe = s.fe := (rfl)
@[simp] theorem State.finish_escp (o : CmdOutcome) (c : Cause) (r : Word) : (s.finish o c r).escp = s.escp := (rfl)
@[simp] theorem State.finish_cancnt (o : CmdOutcome) (c : Cause) (r : Word) : (s.finish o c r).cancnt = s.cancnt := (rfl)
@[simp] theorem State.finish_lasttx (o : CmdOutcome) (c : Cause) (r : Word) : (s.finish o c r).lasttx = s.lasttx := (rfl)
@[simp] theorem State.finish_rxmode (o : CmdOutcome) (c : Cause) (r : Word) : (s.finish o c r).rxmode = .idle := (rfl)
@[simp] theorem State.finish_phase (o : CmdOutcome) (c : Cause) (r : Word) : (s.finish o c r).phase = s.phase := (rfl)
@[simp] theorem State.finish_idx (o : CmdOutcome) (c : Cause) (r : Word) : (s.finish o c r).idx = s.idx := (rfl)
@[simp] theorem State.finish_tidx (o : CmdOutcome) (c : Cause) (r : Word) : (s.finish o c r).tidx = s.tidx := (rfl)
@[simp] theorem State.finish_hbuf (o : CmdOutcome) (c : Cause) (r : Word) : (s.finish o c r).hbuf = s.hbuf := (rfl)
@[simp] theorem State.finish_tbuf (o : CmdOutcome) (c : Cause) (r : Word) : (s.finish o c r).tbuf = s.tbuf := (rfl)
@[simp] theorem State.finish_rxenc (o : CmdOutcome) (c : Cause) (r : Word) : (s.finish o c r).rxenc = s.rxenc := (rfl)
@[simp] theorem State.finish_rxc32 (o : CmdOutcome) (c : Cause) (r : Word) : (s.finish o c r).rxc32 = s.rxc32 := (rfl)
@[simp] theorem State.finish_rxmax (o : CmdOutcome) (c : Cause) (r : Word) : (s.finish o c r).rxmax = s.rxmax := (rfl)
@[simp] theorem State.finish_xmode (o : CmdOutcome) (c : Cause) (r : Word) : (s.finish o c r).xmode = s.xmode := (rfl)
@[simp] theorem State.finish_pbuf (o : CmdOutcome) (c : Cause) (r : Word) : (s.finish o c r).pbuf = s.pbuf := (rfl)
@[simp] theorem State.finish_txq (o : CmdOutcome) (c : Cause) (r : Word) : (s.finish o c r).txq = s.txq := (rfl)
@[simp] theorem State.finish_pbufSize (o : CmdOutcome) (c : Cause) (r : Word) : (s.finish o c r).pbufSize = s.pbufSize := (rfl)
@[simp] theorem State.finish_ctlesc (o : CmdOutcome) (c : Cause) (r : Word) : (s.finish o c r).ctlesc = s.ctlesc := (rfl)
@[simp] theorem State.finish_epoch (o : CmdOutcome) (c : Cause) (r : Word) : (s.finish o c r).epoch = s.epoch := (rfl)
@[simp] theorem State.finish_agenda (o : CmdOutcome) (c : Cause) (r : Word) : (s.finish o c r).agenda = s.agenda := (rfl)
@[simp] theorem State.finish_replies (o : CmdOutcome) (c : Cause) (r : Word) : (s.finish o c r).replies = s.replies := (rfl)

/-! ### activate -/

@[simp] theorem State.activate_crc16 (m : RxMode) : (s.activate m).crc16 = s.crc16 := (rfl)
@[simp] theorem State.activate_crc32 (m : RxMode) : (s.activate m).crc32 = s.crc32 := (rfl)
@[simp] theorem State.activate_sum8 (m : RxMode) : (s.activate m).sum8 = s.sum8 := (rfl)
@[simp] theorem State.activate_htype (m : RxMode) : (s.activate m).htype = s.htype := (rfl)
@[simp] theorem State.activate_hval (m : RxMode) : (s.activate m).hval = s.hval := (rfl)
@[simp] theorem State.activate_henc (m : RxMode) : (s.activate m).henc = s.henc := (rfl)
@[simp] theorem State.activate_xblk (m : RxMode) : (s.activate m).xblk = s.xblk := (rfl)
@[simp] theorem State.activate_xrblk (m : RxMode) : (s.activate m).xrblk = s.xrblk := (rfl)
@[simp] theorem State.activate_rxlen (m : RxMode) : (s.activate m).rxlen = s.rxlen := (rfl)
@[simp] theorem State.activate_tmo (m : RxMode) : (s.activate m).tmo = s.tmo := (rfl)
@[simp] theorem State.activate_res (m : RxMode) : (s.activate m).res = s.res := (rfl)
@[simp] theorem State.activate_outcome (m : RxMode) : (s.activate m).outcome = .none := (rfl)
@[simp] theorem State.activate_cause (m : RxMode) : (s.activate m).cause = .none := (rfl)
@[simp] theorem State.activate_fe (m : RxMode) : (s.activate m).fe = s.fe := (rfl)
@[simp] theorem State.activate_escp (m : RxMode) : (s.activate m).escp = s.escp := (rfl)
@[simp] theorem State.activate_cancnt (m : RxMode) : (s.activate m).cancnt = s.cancnt := (rfl)
@[simp] theorem State.activate_lasttx (m : RxMode) : (s.activate m).lasttx = s.lasttx := (rfl)
@[simp] theorem State.activate_rxmode (m : RxMode) : (s.activate m).rxmode = m := (rfl)
@[simp] theorem State.activate_phase (m : RxMode) : (s.activate m).phase = 0 := (rfl)
@[simp] theorem State.activate_idx (m : RxMode) : (s.activate m).idx = 0 := (rfl)
@[simp] theorem State.activate_tidx (m : RxMode) : (s.activate m).tidx = s.tidx := (rfl)
@[simp] theorem State.activate_hbuf (m : RxMode) : (s.activate m).hbuf = s.hbuf := (rfl)
@[simp] theorem State.activate_tbuf (m : RxMode) : (s.activate m).tbuf = s.tbuf := (rfl)
@[simp] theorem State.activate_rxenc (m : RxMode) : (s.activate m).rxenc = s.rxenc := (rfl)
@[simp] theorem State.activate_rxc32 (m : RxMode) : (s.activate m).rxc32 = s.rxc32 := (rfl)
@[simp] theorem State.activate_rxmax (m : RxMode) : (s.activate m).rxmax = s.rxmax := (rfl)
@[simp] theorem State.activate_xmode (m : RxMode) : (s.activate m).xmode = s.xmode := (rfl)
@[simp] theorem State.activate_pbuf (m : RxMode) : (s.activate m).pbuf = s.pbuf := (rfl)
@[simp] theorem State.activate_txq (m : RxMode) : (s.activate m).txq = s.txq := (rfl)
@[simp] theorem State.activate_pbufSize (m : RxMode) : (s.activate m).pbufSize = s.pbufSize := (rfl)
@[simp] theorem State.activate_ctlesc (m : RxMode) : (s.activate m).ctlesc = s.ctlesc := (rfl)
@[simp] theorem State.activate_epoch (m : RxMode) : (s.activate m).epoch = s.epoch := (rfl)
@[simp] theorem State.activate_agenda (m : RxMode) : (s.activate m).agenda = s.agenda := (rfl)
@[simp] theorem State.activate_replies (m : RxMode) : (s.activate m).replies = s.replies := (rfl)

/-! ### seedCheck -/

@[simp] theorem State.seedCheck_crc16 (w : Bool) : (s.seedCheck w).crc16 = if w then s.crc16 else crc16Seed := by cases w <;> rfl
@[simp] theorem State.seedCheck_crc32 (w : Bool) : (s.seedCheck w).crc32 = if w then crc32Seed else s.crc32 := by cases w <;> rfl
@[simp] theorem State.seedCheck_sum8 (w : Bool) : (s.seedCheck w).sum8 = s.sum8 := by cases w <;> rfl
@[simp] theorem State.seedCheck_htype (w : Bool) : (s.seedCheck w).htype = s.htype := by cases w <;> rfl
@[simp] theorem State.seedCheck_hval (w : Bool) : (s.seedCheck w).hval = s.hval := by cases w <;> rfl
@[simp] theorem State.seedCheck_henc (w : Bool) : (s.seedCheck w).henc = s.henc := by cases w <;> rfl
@[simp] theorem State.seedCheck_xblk (w : Bool) : (s.seedCheck w).xblk = s.xblk := by cases w <;> rfl
@[simp] theorem State.seedCheck_xrblk (w : Bool) : (s.seedCheck w).xrblk = s.xrblk := by cases w <;> rfl
@[simp] theorem State.seedCheck_rxlen (w : Bool) : (s.seedCheck w).rxlen = s.rxlen := by cases w <;> rfl
@[simp] theorem State.seedCheck_tmo (w : Bool) : (s.seedCheck w).tmo = s.tmo := by cases w <;> rfl
@[simp] theorem State.seedCheck_res (w : Bool) : (s.seedCheck w).res = s.res := by cases w <;> rfl
@[simp] theorem State.seedCheck_outcome (w : Bool) : (s.seedCheck w).outcome = s.outcome := by cases w <;> rfl
@[simp] theorem State.seedCheck_cause (w : Bool) : (s.seedCheck w).cause = s.cause := by cases w <;> rfl
@[simp] theorem State.seedCheck_fe (w : Bool) : (s.seedCheck w).fe = s.fe := by cases w <;> rfl
@[simp] theorem State.seedCheck_escp (w : Bool) : (s.seedCheck w).escp = s.escp := by cases w <;> rfl
@[simp] theorem State.seedCheck_cancnt (w : Bool) : (s.seedCheck w).cancnt = s.cancnt := by cases w <;> rfl
@[simp] theorem State.seedCheck_lasttx (w : Bool) : (s.seedCheck w).lasttx = s.lasttx := by cases w <;> rfl
@[simp] theorem State.seedCheck_rxmode (w : Bool) : (s.seedCheck w).rxmode = s.rxmode := by cases w <;> rfl
@[simp] theorem State.seedCheck_phase (w : Bool) : (s.seedCheck w).phase = s.phase := by cases w <;> rfl
@[simp] theorem State.seedCheck_idx (w : Bool) : (s.seedCheck w).idx = s.idx := by cases w <;> rfl
@[simp] theorem State.seedCheck_tidx (w : Bool) : (s.seedCheck w).tidx = s.tidx := by cases w <;> rfl
@[simp] theorem State.seedCheck_hbuf (w : Bool) : (s.seedCheck w).hbuf = s.hbuf := by cases w <;> rfl
@[simp] theorem State.seedCheck_tbuf (w : Bool) : (s.seedCheck w).tbuf = s.tbuf := by cases w <;> rfl
@[simp] theorem State.seedCheck_rxenc (w : Bool) : (s.seedCheck w).rxenc = s.rxenc := by cases w <;> rfl
@[simp] theorem State.seedCheck_rxc32 (w : Bool) : (s.seedCheck w).rxc32 = s.rxc32 := by cases w <;> rfl
@[simp] theorem State.seedCheck_rxmax (w : Bool) : (s.seedCheck w).rxmax = s.rxmax := by cases w <;> rfl
@[simp] theorem State.seedCheck_xmode (w : Bool) : (s.seedCheck w).xmode = s.xmode := by cases w <;> rfl
@[simp] theorem State.seedCheck_pbuf (w : Bool) : (s.seedCheck w).pbuf = s.pbuf := by cases w <;> rfl
@[simp] theorem State.seedCheck_txq (w : Bool) : (s.seedCheck w).txq = s.txq := by cases w <;> rfl
@[simp] theorem State.seedCheck_pbufSize (w : Bool) : (s.seedCheck w).pbufSize = s.pbufSize := by cases w <;> rfl
@[simp] theorem State.seedCheck_ctlesc (w : Bool) : (s.seedCheck w).ctlesc = s.ctlesc := by cases w <;> rfl
@[simp] theorem State.seedCheck_epoch (w : Bool) : (s.seedCheck w).epoch = s.epoch := by cases w <;> rfl
@[simp] theorem State.seedCheck_agenda (w : Bool) : (s.seedCheck w).agenda = s.agenda := by cases w <;> rfl
@[simp] theorem State.seedCheck_replies (w : Bool) : (s.seedCheck w).replies = s.replies := by cases w <;> rfl

/-! ### foldCheck -/

@[simp] theorem State.foldCheck_crc16 (w : Bool) (b : Byte) : (s.foldCheck w b).crc16 = if w then s.crc16 else crc16Step s.crc16 b := by cases w <;> rfl
@[simp] theorem State.foldCheck_crc32 (w : Bool) (b : Byte) : (s.foldCheck w b).crc32 = if w then crc32Step s.crc32 b else s.crc32 := by cases w <;> rfl
@[simp] theorem State.foldCheck_sum8 (w : Bool) (b : Byte) : (s.foldCheck w b).sum8 = s.sum8 := by cases w <;> rfl
@[simp] theorem State.foldCheck_htype (w : Bool) (b : Byte) : (s.foldCheck w b).htype = s.htype := by cases w <;> rfl
@[simp] theorem State.foldCheck_hval (w : Bool) (b : Byte) : (s.foldCheck w b).hval = s.hval := by cases w <;> rfl
@[simp] theorem State.foldCheck_henc (w : Bool) (b : Byte) : (s.foldCheck w b).henc = s.henc := by cases w <;> rfl
@[simp] theorem State.foldCheck_xblk (w : Bool) (b : Byte) : (s.foldCheck w b).xblk = s.xblk := by cases w <;> rfl
@[simp] theorem State.foldCheck_xrblk (w : Bool) (b : Byte) : (s.foldCheck w b).xrblk = s.xrblk := by cases w <;> rfl
@[simp] theorem State.foldCheck_rxlen (w : Bool) (b : Byte) : (s.foldCheck w b).rxlen = s.rxlen := by cases w <;> rfl
@[simp] theorem State.foldCheck_tmo (w : Bool) (b : Byte) : (s.foldCheck w b).tmo = s.tmo := by cases w <;> rfl
@[simp] theorem State.foldCheck_res (w : Bool) (b : Byte) : (s.foldCheck w b).res = s.res := by cases w <;> rfl
@[simp] theorem State.foldCheck_outcome (w : Bool) (b : Byte) : (s.foldCheck w b).outcome = s.outcome := by cases w <;> rfl
@[simp] theorem State.foldCheck_cause (w : Bool) (b : Byte) : (s.foldCheck w b).cause = s.cause := by cases w <;> rfl
@[simp] theorem State.foldCheck_fe (w : Bool) (b : Byte) : (s.foldCheck w b).fe = s.fe := by cases w <;> rfl
@[simp] theorem State.foldCheck_escp (w : Bool) (b : Byte) : (s.foldCheck w b).escp = s.escp := by cases w <;> rfl
@[simp] theorem State.foldCheck_cancnt (w : Bool) (b : Byte) : (s.foldCheck w b).cancnt = s.cancnt := by cases w <;> rfl
@[simp] theorem State.foldCheck_lasttx (w : Bool) (b : Byte) : (s.foldCheck w b).lasttx = s.lasttx := by cases w <;> rfl
@[simp] theorem State.foldCheck_rxmode (w : Bool) (b : Byte) : (s.foldCheck w b).rxmode = s.rxmode := by cases w <;> rfl
@[simp] theorem State.foldCheck_phase (w : Bool) (b : Byte) : (s.foldCheck w b).phase = s.phase := by cases w <;> rfl
@[simp] theorem State.foldCheck_idx (w : Bool) (b : Byte) : (s.foldCheck w b).idx = s.idx := by cases w <;> rfl
@[simp] theorem State.foldCheck_tidx (w : Bool) (b : Byte) : (s.foldCheck w b).tidx = s.tidx := by cases w <;> rfl
@[simp] theorem State.foldCheck_hbuf (w : Bool) (b : Byte) : (s.foldCheck w b).hbuf = s.hbuf := by cases w <;> rfl
@[simp] theorem State.foldCheck_tbuf (w : Bool) (b : Byte) : (s.foldCheck w b).tbuf = s.tbuf := by cases w <;> rfl
@[simp] theorem State.foldCheck_rxenc (w : Bool) (b : Byte) : (s.foldCheck w b).rxenc = s.rxenc := by cases w <;> rfl
@[simp] theorem State.foldCheck_rxc32 (w : Bool) (b : Byte) : (s.foldCheck w b).rxc32 = s.rxc32 := by cases w <;> rfl
@[simp] theorem State.foldCheck_rxmax (w : Bool) (b : Byte) : (s.foldCheck w b).rxmax = s.rxmax := by cases w <;> rfl
@[simp] theorem State.foldCheck_xmode (w : Bool) (b : Byte) : (s.foldCheck w b).xmode = s.xmode := by cases w <;> rfl
@[simp] theorem State.foldCheck_pbuf (w : Bool) (b : Byte) : (s.foldCheck w b).pbuf = s.pbuf := by cases w <;> rfl
@[simp] theorem State.foldCheck_txq (w : Bool) (b : Byte) : (s.foldCheck w b).txq = s.txq := by cases w <;> rfl
@[simp] theorem State.foldCheck_pbufSize (w : Bool) (b : Byte) : (s.foldCheck w b).pbufSize = s.pbufSize := by cases w <;> rfl
@[simp] theorem State.foldCheck_ctlesc (w : Bool) (b : Byte) : (s.foldCheck w b).ctlesc = s.ctlesc := by cases w <;> rfl
@[simp] theorem State.foldCheck_epoch (w : Bool) (b : Byte) : (s.foldCheck w b).epoch = s.epoch := by cases w <;> rfl
@[simp] theorem State.foldCheck_agenda (w : Bool) (b : Byte) : (s.foldCheck w b).agenda = s.agenda := by cases w <;> rfl
@[simp] theorem State.foldCheck_replies (w : Bool) (b : Byte) : (s.foldCheck w b).replies = s.replies := by cases w <;> rfl

/-! ### checkOver -/

@[simp] theorem State.checkOver_crc16 (w : Bool) (m : List Byte) : (s.checkOver w m).crc16 = if w then s.crc16 else crc16Of m := by cases w <;> rfl
@[simp] theorem State.checkOver_crc32 (w : Bool) (m : List Byte) : (s.checkOver w m).crc32 = if w then crc32Run m else s.crc32 := by cases w <;> rfl
@[simp] theorem State.checkOver_sum8 (w : Bool) (m : List Byte) : (s.checkOver w m).sum8 = s.sum8 := by cases w <;> rfl
@[simp] theorem State.checkOver_htype (w : Bool) (m : List Byte) : (s.checkOver w m).htype = s.htype := by cases w <;> rfl
@[simp] theorem State.checkOver_hval (w : Bool) (m : List Byte) : (s.checkOver w m).hval = s.hval := by cases w <;> rfl
@[simp] theorem State.checkOver_henc (w : Bool) (m : List Byte) : (s.checkOver w m).henc = s.henc := by cases w <;> rfl
@[simp] theorem State.checkOver_xblk (w : Bool) (m : List Byte) : (s.checkOver w m).xblk = s.xblk := by cases w <;> rfl
@[simp] theorem State.checkOver_xrblk (w : Bool) (m : List Byte) : (s.checkOver w m).xrblk = s.xrblk := by cases w <;> rfl
@[simp] theorem State.checkOver_rxlen (w : Bool) (m : List Byte) : (s.checkOver w m).rxlen = s.rxlen := by cases w <;> rfl
@[simp] theorem State.checkOver_tmo (w : Bool) (m : List Byte) : (s.checkOver w m).tmo = s.tmo := by cases w <;> rfl
@[simp] theorem State.checkOver_res (w : Bool) (m : List Byte) : (s.checkOver w m).res = s.res := by cases w <;> rfl
@[simp] theorem State.checkOver_outcome (w : Bool) (m : List Byte) : (s.checkOver w m).outcome = s.outcome := by cases w <;> rfl
@[simp] theorem State.checkOver_cause (w : Bool) (m : List Byte) : (s.checkOver w m).cause = s.cause := by cases w <;> rfl
@[simp] theorem State.checkOver_fe (w : Bool) (m : List Byte) : (s.checkOver w m).fe = s.fe := by cases w <;> rfl
@[simp] theorem State.checkOver_escp (w : Bool) (m : List Byte) : (s.checkOver w m).escp = s.escp := by cases w <;> rfl
@[simp] theorem State.checkOver_cancnt (w : Bool) (m : List Byte) : (s.checkOver w m).cancnt = s.cancnt := by cases w <;> rfl
@[simp] theorem State.checkOver_lasttx (w : Bool) (m : List Byte) : (s.checkOver w m).lasttx = s.lasttx := by cases w <;> rfl
@[simp] theorem State.checkOver_rxmode (w : Bool) (m : List Byte) : (s.checkOver w m).rxmode = s.rxmode := by cases w <;> rfl
@[simp] theorem State.checkOver_phase (w : Bool) (m : List Byte) : (s.checkOver w m).phase = s.phase := by cases w <;> rfl
@[simp] theorem State.checkOver_idx (w : Bool) (m : List Byte) : (s.checkOver w m).idx = s.idx := by cases w <;> rfl
@[simp] theorem State.checkOver_tidx (w : Bool) (m : List Byte) : (s.checkOver w m).tidx = s.tidx := by cases w <;> rfl
@[simp] theorem State.checkOver_hbuf (w : Bool) (m : List Byte) : (s.checkOver w m).hbuf = s.hbuf := by cases w <;> rfl
@[simp] theorem State.checkOver_tbuf (w : Bool) (m : List Byte) : (s.checkOver w m).tbuf = s.tbuf := by cases w <;> rfl
@[simp] theorem State.checkOver_rxenc (w : Bool) (m : List Byte) : (s.checkOver w m).rxenc = s.rxenc := by cases w <;> rfl
@[simp] theorem State.checkOver_rxc32 (w : Bool) (m : List Byte) : (s.checkOver w m).rxc32 = s.rxc32 := by cases w <;> rfl
@[simp] theorem State.checkOver_rxmax (w : Bool) (m : List Byte) : (s.checkOver w m).rxmax = s.rxmax := by cases w <;> rfl
@[simp] theorem State.checkOver_xmode (w : Bool) (m : List Byte) : (s.checkOver w m).xmode = s.xmode := by cases w <;> rfl
@[simp] theorem State.checkOver_pbuf (w : Bool) (m : List Byte) : (s.checkOver w m).pbuf = s.pbuf := by cases w <;> rfl
@[simp] theorem State.checkOver_txq (w : Bool) (m : List Byte) : (s.checkOver w m).txq = s.txq := by cases w <;> rfl
@[simp] theorem State.checkOver_pbufSize (w : Bool) (m : List Byte) : (s.checkOver w m).pbufSize = s.pbufSize := by cases w <;> rfl
@[simp] theorem State.checkOver_ctlesc (w : Bool) (m : List Byte) : (s.checkOver w m).ctlesc = s.ctlesc := by cases w <;> rfl
@[simp] theorem State.checkOver_epoch (w : Bool) (m : List Byte) : (s.checkOver w m).epoch = s.epoch := by cases w <;> rfl
@[simp] theorem State.checkOver_agenda (w : Bool) (m : List Byte) : (s.checkOver w m).agenda = s.agenda := by cases w <;> rfl
@[simp] theorem State.checkOver_replies (w : Bool) (m : List Byte) : (s.checkOver w m).replies = s.replies := by cases w <;> rfl

/-! ### seedBlock -/

@[simp] theorem State.seedBlock_crc16 (k : CheckMode) : (s.seedBlock k).crc16 = if k = .crc then crc16Seed else s.crc16 := by cases k <;> rfl
@[simp] theorem State.seedBlock_crc32 (k : CheckMode) : (s.seedBlock k).crc32 = s.crc32 := by cases k <;> rfl
@[simp] theorem State.seedBlock_sum8 (k : CheckMode) : (s.seedBlock k).sum8 = if k = .crc then s.sum8 else sum8Seed := by cases k <;> rfl
@[simp] theorem State.seedBlock_htype (k : CheckMode) : (s.seedBlock k).htype = s.htype := by cases k <;> rfl
@[simp] theorem State.seedBlock_hval (k : CheckMode) : (s.seedBlock k).hval = s.hval := by cases k <;> rfl
@[simp] theorem State.seedBlock_henc (k : CheckMode) : (s.seedBlock k).henc = s.henc := by cases k <;> rfl
@[simp] theorem State.seedBlock_xblk (k : CheckMode) : (s.seedBlock k).xblk = s.xblk := by cases k <;> rfl
@[simp] theorem State.seedBlock_xrblk (k : CheckMode) : (s.seedBlock k).xrblk = s.xrblk := by cases k <;> rfl
@[simp] theorem State.seedBlock_rxlen (k : CheckMode) : (s.seedBlock k).rxlen = s.rxlen := by cases k <;> rfl
@[simp] theorem State.seedBlock_tmo (k : CheckMode) : (s.seedBlock k).tmo = s.tmo := by cases k <;> rfl
@[simp] theorem State.seedBlock_res (k : CheckMode) : (s.seedBlock k).res = s.res := by cases k <;> rfl
@[simp] theorem State.seedBlock_outcome (k : CheckMode) : (s.seedBlock k).outcome = s.outcome := by cases k <;> rfl
@[simp] theorem State.seedBlock_cause (k : CheckMode) : (s.seedBlock k).cause = s.cause := by cases k <;> rfl
@[simp] theorem State.seedBlock_fe (k : CheckMode) : (s.seedBlock k).fe = s.fe := by cases k <;> rfl
@[simp] theorem State.seedBlock_escp (k : CheckMode) : (s.seedBlock k).escp = s.escp := by cases k <;> rfl
@[simp] theorem State.seedBlock_cancnt (k : CheckMode) : (s.seedBlock k).cancnt = s.cancnt := by cases k <;> rfl
@[simp] theorem State.seedBlock_lasttx (k : CheckMode) : (s.seedBlock k).lasttx = s.lasttx := by cases k <;> rfl
@[simp] theorem State.seedBlock_rxmode (k : CheckMode) : (s.seedBlock k).rxmode = s.rxmode := by cases k <;> rfl
@[simp] theorem State.seedBlock_phase (k : CheckMode) : (s.seedBlock k).phase = s.phase := by cases k <;> rfl
@[simp] theorem State.seedBlock_idx (k : CheckMode) : (s.seedBlock k).idx = s.idx := by cases k <;> rfl
@[simp] theorem State.seedBlock_tidx (k : CheckMode) : (s.seedBlock k).tidx = s.tidx := by cases k <;> rfl
@[simp] theorem State.seedBlock_hbuf (k : CheckMode) : (s.seedBlock k).hbuf = s.hbuf := by cases k <;> rfl
@[simp] theorem State.seedBlock_tbuf (k : CheckMode) : (s.seedBlock k).tbuf = s.tbuf := by cases k <;> rfl
@[simp] theorem State.seedBlock_rxenc (k : CheckMode) : (s.seedBlock k).rxenc = s.rxenc := by cases k <;> rfl
@[simp] theorem State.seedBlock_rxc32 (k : CheckMode) : (s.seedBlock k).rxc32 = s.rxc32 := by cases k <;> rfl
@[simp] theorem State.seedBlock_rxmax (k : CheckMode) : (s.seedBlock k).rxmax = s.rxmax := by cases k <;> rfl
@[simp] theorem State.seedBlock_xmode (k : CheckMode) : (s.seedBlock k).xmode = s.xmode := by cases k <;> rfl
@[simp] theorem State.seedBlock_pbuf (k : CheckMode) : (s.seedBlock k).pbuf = s.pbuf := by cases k <;> rfl
@[simp] theorem State.seedBlock_txq (k : CheckMode) : (s.seedBlock k).txq = s.txq := by cases k <;> rfl
@[simp] theorem State.seedBlock_pbufSize (k : CheckMode) : (s.seedBlock k).pbufSize = s.pbufSize := by cases k <;> rfl
@[simp] theorem State.seedBlock_ctlesc (k : CheckMode) : (s.seedBlock k).ctlesc = s.ctlesc := by cases k <;> rfl
@[simp] theorem State.seedBlock_epoch (k : CheckMode) : (s.seedBlock k).epoch = s.epoch := by cases k <;> rfl
@[simp] theorem State.seedBlock_agenda (k : CheckMode) : (s.seedBlock k).agenda = s.agenda := by cases k <;> rfl
@[simp] theorem State.seedBlock_replies (k : CheckMode) : (s.seedBlock k).replies = s.replies := by cases k <;> rfl

/-! ### foldBlock -/

@[simp] theorem State.foldBlock_crc16 (k : CheckMode) (b : Byte) : (s.foldBlock k b).crc16 = if k = .crc then crc16Step s.crc16 b else s.crc16 := by cases k <;> rfl
@[simp] theorem State.foldBlock_crc32 (k : CheckMode) (b : Byte) : (s.foldBlock k b).crc32 = s.crc32 := by cases k <;> rfl
@[simp] theorem State.foldBlock_sum8 (k : CheckMode) (b : Byte) : (s.foldBlock k b).sum8 = if k = .crc then s.sum8 else sum8Step s.sum8 b := by cases k <;> rfl
@[simp] theorem State.foldBlock_htype (k : CheckMode) (b : Byte) : (s.foldBlock k b).htype = s.htype := by cases k <;> rfl
@[simp] theorem State.foldBlock_hval (k : CheckMode) (b : Byte) : (s.foldBlock k b).hval = s.hval := by cases k <;> rfl
@[simp] theorem State.foldBlock_henc (k : CheckMode) (b : Byte) : (s.foldBlock k b).henc = s.henc := by cases k <;> rfl
@[simp] theorem State.foldBlock_xblk (k : CheckMode) (b : Byte) : (s.foldBlock k b).xblk = s.xblk := by cases k <;> rfl
@[simp] theorem State.foldBlock_xrblk (k : CheckMode) (b : Byte) : (s.foldBlock k b).xrblk = s.xrblk := by cases k <;> rfl
@[simp] theorem State.foldBlock_rxlen (k : CheckMode) (b : Byte) : (s.foldBlock k b).rxlen = s.rxlen := by cases k <;> rfl
@[simp] theorem State.foldBlock_tmo (k : CheckMode) (b : Byte) : (s.foldBlock k b).tmo = s.tmo := by cases k <;> rfl
@[simp] theorem State.foldBlock_res (k : CheckMode) (b : Byte) : (s.foldBlock k b).res = s.res := by cases k <;> rfl
@[simp] theorem State.foldBlock_outcome (k : CheckMode) (b : Byte) : (s.foldBlock k b).outcome = s.outcome := by cases k <;> rfl
@[simp] theorem State.foldBlock_cause (k : CheckMode) (b : Byte) : (s.foldBlock k b).cause = s.cause := by cases k <;> rfl
@[simp] theorem State.foldBlock_fe (k : CheckMode) (b : Byte) : (s.foldBlock k b).fe = s.fe := by cases k <;> rfl
@[simp] theorem State.foldBlock_escp (k : CheckMode) (b : Byte) : (s.foldBlock k b).escp = s.escp := by cases k <;> rfl
@[simp] theorem State.foldBlock_cancnt (k : CheckMode) (b : Byte) : (s.foldBlock k b).cancnt = s.cancnt := by cases k <;> rfl
@[simp] theorem State.foldBlock_lasttx (k : CheckMode) (b : Byte) : (s.foldBlock k b).lasttx = s.lasttx := by cases k <;> rfl
@[simp] theorem State.foldBlock_rxmode (k : CheckMode) (b : Byte) : (s.foldBlock k b).rxmode = s.rxmode := by cases k <;> rfl
@[simp] theorem State.foldBlock_phase (k : CheckMode) (b : Byte) : (s.foldBlock k b).phase = s.phase := by cases k <;> rfl
@[simp] theorem State.foldBlock_idx (k : CheckMode) (b : Byte) : (s.foldBlock k b).idx = s.idx := by cases k <;> rfl
@[simp] theorem State.foldBlock_tidx (k : CheckMode) (b : Byte) : (s.foldBlock k b).tidx = s.tidx := by cases k <;> rfl
@[simp] theorem State.foldBlock_hbuf (k : CheckMode) (b : Byte) : (s.foldBlock k b).hbuf = s.hbuf := by cases k <;> rfl
@[simp] theorem State.foldBlock_tbuf (k : CheckMode) (b : Byte) : (s.foldBlock k b).tbuf = s.tbuf := by cases k <;> rfl
@[simp] theorem State.foldBlock_rxenc (k : CheckMode) (b : Byte) : (s.foldBlock k b).rxenc = s.rxenc := by cases k <;> rfl
@[simp] theorem State.foldBlock_rxc32 (k : CheckMode) (b : Byte) : (s.foldBlock k b).rxc32 = s.rxc32 := by cases k <;> rfl
@[simp] theorem State.foldBlock_rxmax (k : CheckMode) (b : Byte) : (s.foldBlock k b).rxmax = s.rxmax := by cases k <;> rfl
@[simp] theorem State.foldBlock_xmode (k : CheckMode) (b : Byte) : (s.foldBlock k b).xmode = s.xmode := by cases k <;> rfl
@[simp] theorem State.foldBlock_pbuf (k : CheckMode) (b : Byte) : (s.foldBlock k b).pbuf = s.pbuf := by cases k <;> rfl
@[simp] theorem State.foldBlock_txq (k : CheckMode) (b : Byte) : (s.foldBlock k b).txq = s.txq := by cases k <;> rfl
@[simp] theorem State.foldBlock_pbufSize (k : CheckMode) (b : Byte) : (s.foldBlock k b).pbufSize = s.pbufSize := by cases k <;> rfl
@[simp] theorem State.foldBlock_ctlesc (k : CheckMode) (b : Byte) : (s.foldBlock k b).ctlesc = s.ctlesc := by cases k <;> rfl
@[simp] theorem State.foldBlock_epoch (k : CheckMode) (b : Byte) : (s.foldBlock k b).epoch = s.epoch := by cases k <;> rfl
@[simp] theorem State.foldBlock_agenda (k : CheckMode) (b : Byte) : (s.foldBlock k b).agenda = s.agenda := by cases k <;> rfl
@[simp] theorem State.foldBlock_replies (k : CheckMode) (b : Byte) : (s.foldBlock k b).replies = s.replies := by cases k <;> rfl

/-! ### blockOver -/

@[simp] theorem State.blockOver_crc16 (k : CheckMode) (m : List Byte) : (s.blockOver k m).crc16 = if k = .crc then crc16Of m else s.crc16 := by cases k <;> rfl
@[simp] theorem State.blockOver_crc32 (k : CheckMode) (m : List Byte) : (s.blockOver k m).crc32 = s.crc32 := by cases k <;> rfl
@[simp] theorem State.blockOver_sum8 (k : CheckMode) (m : List Byte) : (s.blockOver k m).sum8 = if k = .crc then s.sum8 else sum8Of m := by cases k <;> rfl
@[simp] theorem State.blockOver_htype (k : CheckMode) (m : List Byte) : (s.blockOver k m).htype = s.htype := by cases k <;> rfl
@[simp] theorem State.blockOver_hval (k : CheckMode) (m : List Byte) : (s.blockOver k m).hval = s.hval := by cases k <;> rfl
@[simp] theorem State.blockOver_henc (k : CheckMode) (m : List Byte) : (s.blockOver k m).henc = s.henc := by cases k <;> rfl
@[simp] theorem State.blockOver_xblk (k : CheckMode) (m : List Byte) : (s.blockOver k m).xblk = s.xblk := by cases k <;> rfl
@[simp] theorem State.blockOver_xrblk (k : CheckMode) (m : List Byte) : (s.blockOver k m).xrblk = s.xrblk := by cases k <;> rfl
@[simp] theorem State.blockOver_rxlen (k : CheckMode) (m : List Byte) : (s.blockOver k m).rxlen = s.rxlen := by cases k <;> rfl
@[simp] theorem State.blockOver_tmo (k : CheckMode) (m : List Byte) : (s.blockOver k m).tmo = s.tmo := by cases k <;> rfl
@[simp] theorem State.blockOver_res (k : CheckMode) (m : List Byte) : (s.blockOver k m).res = s.res := by cases k <;> rfl
@[simp] theorem State.blockOver_outcome (k : CheckMode) (m : List Byte) : (s.blockOver k m).outcome = s.outcome := by cases k <;> rfl
@[simp] theorem State.blockOver_cause (k : CheckMode) (m : List Byte) : (s.blockOver k m).cause = s.cause := by cases k <;> rfl
@[simp] theorem State.blockOver_fe (k : CheckMode) (m : List Byte) : (s.blockOver k m).fe = s.fe := by cases k <;> rfl
@[simp] theorem State.blockOver_escp (k : CheckMode) (m : List Byte) : (s.blockOver k m).escp = s.escp := by cases k <;> rfl
@[simp] theorem State.blockOver_cancnt (k : CheckMode) (m : List Byte) : (s.blockOver k m).cancnt = s.cancnt := by cases k <;> rfl
@[simp] theorem State.blockOver_lasttx (k : CheckMode) (m : List Byte) : (s.blockOver k m).lasttx = s.lasttx := by cases k <;> rfl
@[simp] theorem State.blockOver_rxmode (k : CheckMode) (m : List Byte) : (s.blockOver k m).rxmode = s.rxmode := by cases k <;> rfl
@[simp] theorem State.blockOver_phase (k : CheckMode) (m : List Byte) : (s.blockOver k m).phase = s.phase := by cases k <;> rfl
@[simp] theorem State.blockOver_idx (k : CheckMode) (m : List Byte) : (s.blockOver k m).idx = s.idx := by cases k <;> rfl
@[simp] theorem State.blockOver_tidx (k : CheckMode) (m : List Byte) : (s.blockOver k m).tidx = s.tidx := by cases k <;> rfl
@[simp] theorem State.blockOver_hbuf (k : CheckMode) (m : List Byte) : (s.blockOver k m).hbuf = s.hbuf := by cases k <;> rfl
@[simp] theorem State.blockOver_tbuf (k : CheckMode) (m : List Byte) : (s.blockOver k m).tbuf = s.tbuf := by cases k <;> rfl
@[simp] theorem State.blockOver_rxenc (k : CheckMode) (m : List Byte) : (s.blockOver k m).rxenc = s.rxenc := by cases k <;> rfl
@[simp] theorem State.blockOver_rxc32 (k : CheckMode) (m : List Byte) : (s.blockOver k m).rxc32 = s.rxc32 := by cases k <;> rfl
@[simp] theorem State.blockOver_rxmax (k : CheckMode) (m : List Byte) : (s.blockOver k m).rxmax = s.rxmax := by cases k <;> rfl
@[simp] theorem State.blockOver_xmode (k : CheckMode) (m : List Byte) : (s.blockOver k m).xmode = s.xmode := by cases k <;> rfl
@[simp] theorem State.blockOver_pbuf (k : CheckMode) (m : List Byte) : (s.blockOver k m).pbuf = s.pbuf := by cases k <;> rfl
@[simp] theorem State.blockOver_txq (k : CheckMode) (m : List Byte) : (s.blockOver k m).txq = s.txq := by cases k <;> rfl
@[simp] theorem State.blockOver_pbufSize (k : CheckMode) (m : List Byte) : (s.blockOver k m).pbufSize = s.pbufSize := by cases k <;> rfl
@[simp] theorem State.blockOver_ctlesc (k : CheckMode) (m : List Byte) : (s.blockOver k m).ctlesc = s.ctlesc := by cases k <;> rfl
@[simp] theorem State.blockOver_epoch (k : CheckMode) (m : List Byte) : (s.blockOver k m).epoch = s.epoch := by cases k <;> rfl
@[simp] theorem State.blockOver_agenda (k : CheckMode) (m : List Byte) : (s.blockOver k m).agenda = s.agenda := by cases k <;> rfl
@[simp] theorem State.blockOver_replies (k : CheckMode) (m : List Byte) : (s.blockOver k m).replies = s.replies := by cases k <;> rfl

/-! ### txPut -/

@[simp] theorem State.txPut_crc16 (bs : List Byte) : (s.txPut bs).crc16 = s.crc16 := (rfl)
@[simp] theorem State.txPut_crc32 (bs : List Byte) : (s.txPut bs).crc32 = s.crc32 := (rfl)
@[simp] theorem State.txPut_sum8 (bs : List Byte) : (s.txPut bs).sum8 = s.sum8 := (rfl)
@[simp] theorem State.txPut_htype (bs : List Byte) : (s.txPut bs).htype = s.htype := (rfl)
@[simp] theorem State.txPut_hval (bs : List Byte) : (s.txPut bs).hval = s.hval := (rfl)
@[simp] theorem State.txPut_henc (bs : List Byte) : (s.txPut bs).henc = s.henc := (rfl)
@[simp] theorem State.txPut_xblk (bs : List Byte) : (s.txPut bs).xblk = s.xblk := (rfl)
@[simp] theorem State.txPut_xrblk (bs : List Byte) : (s.txPut bs).xrblk = s.xrblk := (rfl)
@[simp] theorem State.txPut_rxlen (bs : List Byte) : (s.txPut bs).rxlen = s.rxlen := (rfl)
@[simp] theorem State.txPut_tmo (bs : List Byte) : (s.txPut bs).tmo = s.tmo := (rfl)
@[simp] theorem State.txPut_res (bs : List Byte) : (s.txPut bs).res = s.res := (rfl)
@[simp] theorem State.txPut_outcome (bs : List Byte) : (s.txPut bs).outcome = s.outcome := (rfl)
@[simp] theorem State.txPut_cause (bs : List Byte) : (s.txPut bs).cause = s.cause := (rfl)
@[simp] theorem State.txPut_fe (bs : List Byte) : (s.txPut bs).fe = s.fe := (rfl)
@[simp] theorem State.txPut_escp (bs : List Byte) : (s.txPut bs).escp = s.escp := (rfl)
@[simp] theorem State.txPut_cancnt (bs : List Byte) : (s.txPut bs).cancnt = s.cancnt := (rfl)
@[simp] theorem State.txPut_lasttx (bs : List Byte) : (s.txPut bs).lasttx = s.lasttx := (rfl)
@[simp] theorem State.txPut_rxmode (bs : List Byte) : (s.txPut bs).rxmode = s.rxmode := (rfl)
@[simp] theorem State.txPut_phase (bs : List Byte) : (s.txPut bs).phase = s.phase := (rfl)
@[simp] theorem State.txPut_idx (bs : List Byte) : (s.txPut bs).idx = s.idx := (rfl)
@[simp] theorem State.txPut_tidx (bs : List Byte) : (s.txPut bs).tidx = s.tidx := (rfl)
@[simp] theorem State.txPut_hbuf (bs : List Byte) : (s.txPut bs).hbuf = s.hbuf := (rfl)
@[simp] theorem State.txPut_tbuf (bs : List Byte) : (s.txPut bs).tbuf = s.tbuf := (rfl)
@[simp] theorem State.txPut_rxenc (bs : List Byte) : (s.txPut bs).rxenc = s.rxenc := (rfl)
@[simp] theorem State.txPut_rxc32 (bs : List Byte) : (s.txPut bs).rxc32 = s.rxc32 := (rfl)
@[simp] theorem State.txPut_rxmax (bs : List Byte) : (s.txPut bs).rxmax = s.rxmax := (rfl)
@[simp] theorem State.txPut_xmode (bs : List Byte) : (s.txPut bs).xmode = s.xmode := (rfl)
@[simp] theorem State.txPut_pbuf (bs : List Byte) : (s.txPut bs).pbuf = s.pbuf := (rfl)
@[simp] theorem State.txPut_txq (bs : List Byte) : (s.txPut bs).txq = s.txq ++ bs := (rfl)
@[simp] theorem State.txPut_pbufSize (bs : List Byte) : (s.txPut bs).pbufSize = s.pbufSize := (rfl)
@[simp] theorem State.txPut_ctlesc (bs : List Byte) : (s.txPut bs).ctlesc = s.ctlesc := (rfl)
@[simp] theorem State.txPut_epoch (bs : List Byte) : (s.txPut bs).epoch = s.epoch := (rfl)
@[simp] theorem State.txPut_agenda (bs : List Byte) : (s.txPut bs).agenda = s.agenda := (rfl)
@[simp] theorem State.txPut_replies (bs : List Byte) : (s.txPut bs).replies = s.replies := (rfl)

/-! ### txPutEsc -/

@[simp] theorem State.txPutEsc_crc16 (bs : List Byte) : (s.txPutEsc bs).crc16 = s.crc16 := (rfl)
@[simp] theorem State.txPutEsc_crc32 (bs : List Byte) : (s.txPutEsc bs).crc32 = s.crc32 := (rfl)
@[simp] theorem State.txPutEsc_sum8 (bs : List Byte) : (s.txPutEsc bs).sum8 = s.sum8 := (rfl)
@[simp] theorem State.txPutEsc_htype (bs : List Byte) : (s.txPutEsc bs).htype = s.htype := (rfl)
@[simp] theorem State.txPutEsc_hval (bs : List Byte) : (s.txPutEsc bs).hval = s.hval := (rfl)
@[simp] theorem State.txPutEsc_henc (bs : List Byte) : (s.txPutEsc bs).henc = s.henc := (rfl)
@[simp] theorem State.txPutEsc_xblk (bs : List Byte) : (s.txPutEsc bs).xblk = s.xblk := (rfl)
@[simp] theorem State.txPutEsc_xrblk (bs : List Byte) : (s.txPutEsc bs).xrblk = s.xrblk := (rfl)
@[simp] theorem State.txPutEsc_rxlen (bs : List Byte) : (s.txPutEsc bs).rxlen = s.rxlen := (rfl)
@[simp] theorem State.txPutEsc_tmo (bs : List Byte) : (s.txPutEsc bs).tmo = s.tmo := (rfl)
@[simp] theorem State.txPutEsc_res (bs : List Byte) : (s.txPutEsc bs).res = s.res := (rfl)
@[simp] theorem State.txPutEsc_outcome (bs : List Byte) : (s.txPutEsc bs).outcome = s.outcome := (rfl)
@[simp] theorem State.txPutEsc_cause (bs : List Byte) : (s.txPutEsc bs).cause = s.cause := (rfl)
@[simp] theorem State.txPutEsc_fe (bs : List Byte) : (s.txPutEsc bs).fe = s.fe := (rfl)
@[simp] theorem State.txPutEsc_escp (bs : List Byte) : (s.txPutEsc bs).escp = s.escp := (rfl)
@[simp] theorem State.txPutEsc_cancnt (bs : List Byte) : (s.txPutEsc bs).cancnt = s.cancnt := (rfl)
@[simp] theorem State.txPutEsc_lasttx (bs : List Byte) : (s.txPutEsc bs).lasttx = escLasts s.ctlesc s.lasttx bs := (rfl)
@[simp] theorem State.txPutEsc_rxmode (bs : List Byte) : (s.txPutEsc bs).rxmode = s.rxmode := (rfl)
@[simp] theorem State.txPutEsc_phase (bs : List Byte) : (s.txPutEsc bs).phase = s.phase := (rfl)
@[simp] theorem State.txPutEsc_idx (bs : List Byte) : (s.txPutEsc bs).idx = s.idx := (rfl)
@[simp] theorem State.txPutEsc_tidx (bs : List Byte) : (s.txPutEsc bs).tidx = s.tidx := (rfl)
@[simp] theorem State.txPutEsc_hbuf (bs : List Byte) : (s.txPutEsc bs).hbuf = s.hbuf := (rfl)
@[simp] theorem State.txPutEsc_tbuf (bs : List Byte) : (s.txPutEsc bs).tbuf = s.tbuf := (rfl)
@[simp] theorem State.txPutEsc_rxenc (bs : List Byte) : (s.txPutEsc bs).rxenc = s.rxenc := (rfl)
@[simp] theorem State.txPutEsc_rxc32 (bs : List Byte) : (s.txPutEsc bs).rxc32 = s.rxc32 := (rfl)
@[simp] theorem State.txPutEsc_rxmax (bs : List Byte) : (s.txPutEsc bs).rxmax = s.rxmax := (rfl)
@[simp] theorem State.txPutEsc_xmode (bs : List Byte) : (s.txPutEsc bs).xmode = s.xmode := (rfl)
@[simp] theorem State.txPutEsc_pbuf (bs : List Byte) : (s.txPutEsc bs).pbuf = s.pbuf := (rfl)
@[simp] theorem State.txPutEsc_txq (bs : List Byte) : (s.txPutEsc bs).txq = s.txq ++ escWires s.ctlesc s.lasttx bs := (rfl)
@[simp] theorem State.txPutEsc_pbufSize (bs : List Byte) : (s.txPutEsc bs).pbufSize = s.pbufSize := (rfl)
@[simp] theorem State.txPutEsc_ctlesc (bs : List Byte) : (s.txPutEsc bs).ctlesc = s.ctlesc := (rfl)
@[simp] theorem State.txPutEsc_epoch (bs : List Byte) : (s.txPutEsc bs).epoch = s.epoch := (rfl)
@[simp] theorem State.txPutEsc_agenda (bs : List Byte) : (s.txPutEsc bs).agenda = s.agenda := (rfl)
@[simp] theorem State.txPutEsc_replies (bs : List Byte) : (s.txPutEsc bs).replies = s.replies := (rfl)

/-! ### countCancel -/

@[simp] theorem State.countCancel_crc16 (w : Byte) : (s.countCancel w).crc16 = s.crc16 := (rfl)
@[simp] theorem State.countCancel_crc32 (w : Byte) : (s.countCancel w).crc32 = s.crc32 := (rfl)
@[simp] theorem State.countCancel_sum8 (w : Byte) : (s.countCancel w).sum8 = s.sum8 := (rfl)
@[simp] theorem State.countCancel_htype (w : Byte) : (s.countCancel w).htype = s.htype := (rfl)
@[simp] theorem State.countCancel_hval (w : Byte) : (s.countCancel w).hval = s.hval := (rfl)
@[simp] theorem State.countCancel_henc (w : Byte) : (s.countCancel w).henc = s.henc := (rfl)
@[simp] theorem State.countCancel_xblk (w : Byte) : (s.countCancel w).xblk = s.xblk := (rfl)
@[simp] theorem State.countCancel_xrblk (w : Byte) : (s.countCancel w).xrblk = s.xrblk := (rfl)
@[simp] theorem State.countCancel_rxlen (w : Byte) : (s.countCancel w).rxlen = s.rxlen := (rfl)
@[simp] theorem State.countCancel_tmo (w : Byte) : (s.countCancel w).tmo = s.tmo := (rfl)
@[simp] theorem State.countCancel_res (w : Byte) : (s.countCancel w).res = s.res := (rfl)
@[simp] theorem State.countCancel_outcome (w : Byte) : (s.countCancel w).outcome = s.outcome := (rfl)
@[simp] theorem State.countCancel_cause (w : Byte) : (s.countCancel w).cause = s.cause := (rfl)
@[simp] theorem State.countCancel_fe (w : Byte) : (s.countCancel w).fe = s.fe := (rfl)
@[simp] theorem State.countCancel_escp (w : Byte) : (s.countCancel w).escp = s.escp := (rfl)
@[simp] theorem State.countCancel_cancnt (w : Byte) : (s.countCancel w).cancnt = Sys2Proof.Machine.cancelRun s.cancnt w := (rfl)
@[simp] theorem State.countCancel_lasttx (w : Byte) : (s.countCancel w).lasttx = s.lasttx := (rfl)
@[simp] theorem State.countCancel_rxmode (w : Byte) : (s.countCancel w).rxmode = s.rxmode := (rfl)
@[simp] theorem State.countCancel_phase (w : Byte) : (s.countCancel w).phase = s.phase := (rfl)
@[simp] theorem State.countCancel_idx (w : Byte) : (s.countCancel w).idx = s.idx := (rfl)
@[simp] theorem State.countCancel_tidx (w : Byte) : (s.countCancel w).tidx = s.tidx := (rfl)
@[simp] theorem State.countCancel_hbuf (w : Byte) : (s.countCancel w).hbuf = s.hbuf := (rfl)
@[simp] theorem State.countCancel_tbuf (w : Byte) : (s.countCancel w).tbuf = s.tbuf := (rfl)
@[simp] theorem State.countCancel_rxenc (w : Byte) : (s.countCancel w).rxenc = s.rxenc := (rfl)
@[simp] theorem State.countCancel_rxc32 (w : Byte) : (s.countCancel w).rxc32 = s.rxc32 := (rfl)
@[simp] theorem State.countCancel_rxmax (w : Byte) : (s.countCancel w).rxmax = s.rxmax := (rfl)
@[simp] theorem State.countCancel_xmode (w : Byte) : (s.countCancel w).xmode = s.xmode := (rfl)
@[simp] theorem State.countCancel_pbuf (w : Byte) : (s.countCancel w).pbuf = s.pbuf := (rfl)
@[simp] theorem State.countCancel_txq (w : Byte) : (s.countCancel w).txq = s.txq := (rfl)
@[simp] theorem State.countCancel_pbufSize (w : Byte) : (s.countCancel w).pbufSize = s.pbufSize := (rfl)
@[simp] theorem State.countCancel_ctlesc (w : Byte) : (s.countCancel w).ctlesc = s.ctlesc := (rfl)
@[simp] theorem State.countCancel_epoch (w : Byte) : (s.countCancel w).epoch = s.epoch := (rfl)
@[simp] theorem State.countCancel_agenda (w : Byte) : (s.countCancel w).agenda = s.agenda := (rfl)
@[simp] theorem State.countCancel_replies (w : Byte) : (s.countCancel w).replies = s.replies := (rfl)

/-! ### reply -/

@[simp] theorem State.reply_crc16 (r : Reply) : (s.reply r).crc16 = s.crc16 := (rfl)
@[simp] theorem State.reply_crc32 (r : Reply) : (s.reply r).crc32 = s.crc32 := (rfl)
@[simp] theorem State.reply_sum8 (r : Reply) : (s.reply r).sum8 = s.sum8 := (rfl)
@[simp] theorem State.reply_htype (r : Reply) : (s.reply r).htype = s.htype := (rfl)
@[simp] theorem State.reply_hval (r : Reply) : (s.reply r).hval = s.hval := (rfl)
@[simp] theorem State.reply_henc (r : Reply) : (s.reply r).henc = s.henc := (rfl)
@[simp] theorem State.reply_xblk (r : Reply) : (s.reply r).xblk = s.xblk := (rfl)
@[simp] theorem State.reply_xrblk (r : Reply) : (s.reply r).xrblk = s.xrblk := (rfl)
@[simp] theorem State.reply_rxlen (r : Reply) : (s.reply r).rxlen = s.rxlen := (rfl)
@[simp] theorem State.reply_tmo (r : Reply) : (s.reply r).tmo = s.tmo := (rfl)
@[simp] theorem State.reply_res (r : Reply) : (s.reply r).res = s.res := (rfl)
@[simp] theorem State.reply_outcome (r : Reply) : (s.reply r).outcome = s.outcome := (rfl)
@[simp] theorem State.reply_cause (r : Reply) : (s.reply r).cause = s.cause := (rfl)
@[simp] theorem State.reply_fe (r : Reply) : (s.reply r).fe = s.fe := (rfl)
@[simp] theorem State.reply_escp (r : Reply) : (s.reply r).escp = s.escp := (rfl)
@[simp] theorem State.reply_cancnt (r : Reply) : (s.reply r).cancnt = s.cancnt := (rfl)
@[simp] theorem State.reply_lasttx (r : Reply) : (s.reply r).lasttx = s.lasttx := (rfl)
@[simp] theorem State.reply_rxmode (r : Reply) : (s.reply r).rxmode = s.rxmode := (rfl)
@[simp] theorem State.reply_phase (r : Reply) : (s.reply r).phase = s.phase := (rfl)
@[simp] theorem State.reply_idx (r : Reply) : (s.reply r).idx = s.idx := (rfl)
@[simp] theorem State.reply_tidx (r : Reply) : (s.reply r).tidx = s.tidx := (rfl)
@[simp] theorem State.reply_hbuf (r : Reply) : (s.reply r).hbuf = s.hbuf := (rfl)
@[simp] theorem State.reply_tbuf (r : Reply) : (s.reply r).tbuf = s.tbuf := (rfl)
@[simp] theorem State.reply_rxenc (r : Reply) : (s.reply r).rxenc = s.rxenc := (rfl)
@[simp] theorem State.reply_rxc32 (r : Reply) : (s.reply r).rxc32 = s.rxc32 := (rfl)
@[simp] theorem State.reply_rxmax (r : Reply) : (s.reply r).rxmax = s.rxmax := (rfl)
@[simp] theorem State.reply_xmode (r : Reply) : (s.reply r).xmode = s.xmode := (rfl)
@[simp] theorem State.reply_pbuf (r : Reply) : (s.reply r).pbuf = s.pbuf := (rfl)
@[simp] theorem State.reply_txq (r : Reply) : (s.reply r).txq = s.txq := (rfl)
@[simp] theorem State.reply_pbufSize (r : Reply) : (s.reply r).pbufSize = s.pbufSize := (rfl)
@[simp] theorem State.reply_ctlesc (r : Reply) : (s.reply r).ctlesc = s.ctlesc := (rfl)
@[simp] theorem State.reply_epoch (r : Reply) : (s.reply r).epoch = s.epoch := (rfl)
@[simp] theorem State.reply_agenda (r : Reply) : (s.reply r).agenda = s.agenda := (rfl)
@[simp] theorem State.reply_replies (r : Reply) : (s.reply r).replies = s.replies ++ [r] := (rfl)

/-! ### The state after escDec -/

@[simp] theorem State.escDec_crc16 (w : Byte) : (s.escDec w).2.crc16 = s.crc16 := (rfl)
@[simp] theorem State.escDec_crc32 (w : Byte) : (s.escDec w).2.crc32 = s.crc32 := (rfl)
@[simp] theorem State.escDec_sum8 (w : Byte) : (s.escDec w).2.sum8 = s.sum8 := (rfl)
@[simp] theorem State.escDec_htype (w : Byte) : (s.escDec w).2.htype = s.htype := (rfl)
@[simp] theorem State.escDec_hval (w : Byte) : (s.escDec w).2.hval = s.hval := (rfl)
@[simp] theorem State.escDec_henc (w : Byte) : (s.escDec w).2.henc = s.henc := (rfl)
@[simp] theorem State.escDec_xblk (w : Byte) : (s.escDec w).2.xblk = s.xblk := (rfl)
@[simp] theorem State.escDec_xrblk (w : Byte) : (s.escDec w).2.xrblk = s.xrblk := (rfl)
@[simp] theorem State.escDec_rxlen (w : Byte) : (s.escDec w).2.rxlen = s.rxlen := (rfl)
@[simp] theorem State.escDec_tmo (w : Byte) : (s.escDec w).2.tmo = s.tmo := (rfl)
@[simp] theorem State.escDec_res (w : Byte) : (s.escDec w).2.res = s.res := (rfl)
@[simp] theorem State.escDec_outcome (w : Byte) : (s.escDec w).2.outcome = s.outcome := (rfl)
@[simp] theorem State.escDec_cause (w : Byte) : (s.escDec w).2.cause = s.cause := (rfl)
@[simp] theorem State.escDec_fe (w : Byte) : (s.escDec w).2.fe = s.fe := (rfl)
@[simp] theorem State.escDec_escp (w : Byte) : (s.escDec w).2.escp = escPending (Sys2Proof.Machine.cancelRun s.cancnt w) w := (rfl)
@[simp] theorem State.escDec_cancnt (w : Byte) : (s.escDec w).2.cancnt = Sys2Proof.Machine.cancelRun s.cancnt w := (rfl)
@[simp] theorem State.escDec_lasttx (w : Byte) : (s.escDec w).2.lasttx = s.lasttx := (rfl)
@[simp] theorem State.escDec_rxmode (w : Byte) : (s.escDec w).2.rxmode = s.rxmode := (rfl)
@[simp] theorem State.escDec_phase (w : Byte) : (s.escDec w).2.phase = s.phase := (rfl)
@[simp] theorem State.escDec_idx (w : Byte) : (s.escDec w).2.idx = s.idx := (rfl)
@[simp] theorem State.escDec_tidx (w : Byte) : (s.escDec w).2.tidx = s.tidx := (rfl)
@[simp] theorem State.escDec_hbuf (w : Byte) : (s.escDec w).2.hbuf = s.hbuf := (rfl)
@[simp] theorem State.escDec_tbuf (w : Byte) : (s.escDec w).2.tbuf = s.tbuf := (rfl)
@[simp] theorem State.escDec_rxenc (w : Byte) : (s.escDec w).2.rxenc = s.rxenc := (rfl)
@[simp] theorem State.escDec_rxc32 (w : Byte) : (s.escDec w).2.rxc32 = s.rxc32 := (rfl)
@[simp] theorem State.escDec_rxmax (w : Byte) : (s.escDec w).2.rxmax = s.rxmax := (rfl)
@[simp] theorem State.escDec_xmode (w : Byte) : (s.escDec w).2.xmode = s.xmode := (rfl)
@[simp] theorem State.escDec_pbuf (w : Byte) : (s.escDec w).2.pbuf = s.pbuf := (rfl)
@[simp] theorem State.escDec_txq (w : Byte) : (s.escDec w).2.txq = s.txq := (rfl)
@[simp] theorem State.escDec_pbufSize (w : Byte) : (s.escDec w).2.pbufSize = s.pbufSize := (rfl)
@[simp] theorem State.escDec_ctlesc (w : Byte) : (s.escDec w).2.ctlesc = s.ctlesc := (rfl)
@[simp] theorem State.escDec_epoch (w : Byte) : (s.escDec w).2.epoch = s.epoch := (rfl)
@[simp] theorem State.escDec_agenda (w : Byte) : (s.escDec w).2.agenda = s.agenda := (rfl)
@[simp] theorem State.escDec_replies (w : Byte) : (s.escDec w).2.replies = s.replies := (rfl)

/-! ### toReset -/

@[simp] theorem State.toReset_crc16 : s.toReset.crc16 = State.reset.crc16 := (rfl)
@[simp] theorem State.toReset_crc32 : s.toReset.crc32 = State.reset.crc32 := (rfl)
@[simp] theorem State.toReset_sum8 : s.toReset.sum8 = State.reset.sum8 := (rfl)
@[simp] theorem State.toReset_htype : s.toReset.htype = State.reset.htype := (rfl)
@[simp] theorem State.toReset_hval : s.toReset.hval = State.reset.hval := (rfl)
@[simp] theorem State.toReset_henc : s.toReset.henc = State.reset.henc := (rfl)
@[simp] theorem State.toReset_xblk : s.toReset.xblk = State.reset.xblk := (rfl)
@[simp] theorem State.toReset_xrblk : s.toReset.xrblk = State.reset.xrblk := (rfl)
@[simp] theorem State.toReset_rxlen : s.toReset.rxlen = State.reset.rxlen := (rfl)
@[simp] theorem State.toReset_tmo : s.toReset.tmo = State.reset.tmo := (rfl)
@[simp] theorem State.toReset_res : s.toReset.res = State.reset.res := (rfl)
@[simp] theorem State.toReset_outcome : s.toReset.outcome = State.reset.outcome := (rfl)
@[simp] theorem State.toReset_cause : s.toReset.cause = State.reset.cause := (rfl)
@[simp] theorem State.toReset_fe : s.toReset.fe = State.reset.fe := (rfl)
@[simp] theorem State.toReset_escp : s.toReset.escp = State.reset.escp := (rfl)
@[simp] theorem State.toReset_cancnt : s.toReset.cancnt = State.reset.cancnt := (rfl)
@[simp] theorem State.toReset_lasttx : s.toReset.lasttx = State.reset.lasttx := (rfl)
@[simp] theorem State.toReset_rxmode : s.toReset.rxmode = State.reset.rxmode := (rfl)
@[simp] theorem State.toReset_phase : s.toReset.phase = State.reset.phase := (rfl)
@[simp] theorem State.toReset_idx : s.toReset.idx = State.reset.idx := (rfl)
@[simp] theorem State.toReset_tidx : s.toReset.tidx = State.reset.tidx := (rfl)
@[simp] theorem State.toReset_hbuf : s.toReset.hbuf = s.hbuf := (rfl)
@[simp] theorem State.toReset_tbuf : s.toReset.tbuf = s.tbuf := (rfl)
@[simp] theorem State.toReset_rxenc : s.toReset.rxenc = State.reset.rxenc := (rfl)
@[simp] theorem State.toReset_rxc32 : s.toReset.rxc32 = State.reset.rxc32 := (rfl)
@[simp] theorem State.toReset_rxmax : s.toReset.rxmax = State.reset.rxmax := (rfl)
@[simp] theorem State.toReset_xmode : s.toReset.xmode = State.reset.xmode := (rfl)
@[simp] theorem State.toReset_pbuf : s.toReset.pbuf = s.pbuf := (rfl)
@[simp] theorem State.toReset_txq : s.toReset.txq = State.reset.txq := (rfl)
@[simp] theorem State.toReset_pbufSize : s.toReset.pbufSize = s.pbufSize := (rfl)
@[simp] theorem State.toReset_ctlesc : s.toReset.ctlesc = s.ctlesc := (rfl)
@[simp] theorem State.toReset_epoch : s.toReset.epoch = s.epoch := (rfl)
@[simp] theorem State.toReset_agenda : s.toReset.agenda = s.agenda := (rfl)
@[simp] theorem State.toReset_replies : s.toReset.replies = s.replies := (rfl)

end Sys2Proof.Machine
end

