-- ==== Sys2Proof/Laws/Checksum.lean ====
section
/-! SUPPORT. The checksum steps (40_checksum R91, R95, R101, R102): linearity, what a step does to a byte that is already the
accumulator's end, and the folds over messages. -/

namespace Sys2Proof.Machine

/-! ### Folds over messages -/

@[simp] theorem crc16Of_nil : crc16Of [] = crc16Seed := rfl
@[simp] theorem crc32Run_nil : crc32Run [] = crc32Seed := rfl
@[simp] theorem sum8Of_nil : sum8Of [] = sum8Seed := rfl

theorem crc16Of_append (m m' : List Byte) : crc16Of (m ++ m') = m'.foldl crc16Step (crc16Of m) := by
  simp [crc16Of]

theorem crc32Run_append (m m' : List Byte) : crc32Run (m ++ m') = m'.foldl crc32Step (crc32Run m) := by
  simp [crc32Run]

theorem sum8Of_append (m m' : List Byte) : sum8Of (m ++ m') = m'.foldl sum8Step (sum8Of m) := by
  simp [sum8Of]

theorem crc16Of_concat (m : List Byte) (b : Byte) : crc16Of (m ++ [b]) = crc16Step (crc16Of m) b := by
  simp [crc16Of]

theorem crc32Run_concat (m : List Byte) (b : Byte) : crc32Run (m ++ [b]) = crc32Step (crc32Run m) b := by
  simp [crc32Run]

theorem sum8Of_concat (m : List Byte) (b : Byte) : sum8Of (m ++ [b]) = sum8Step (sum8Of m) b := by
  simp [sum8Of]

/-! ### Linearity of the shifts -/

theorem crc16Shift_xor (c d : Half) : crc16Shift (c ^^^ d) = crc16Shift c ^^^ crc16Shift d := by
  unfold crc16Shift
  rw [BitVec.msb_xor]
  cases c.msb <;> cases d.msb <;> simp [BitVec.shiftLeft_xor_distrib] <;> ac_nf <;> simp

theorem crc32Shift_xor (c d : Word) : crc32Shift (c ^^^ d) = crc32Shift c ^^^ crc32Shift d := by
  unfold crc32Shift
  rw [BitVec.getLsbD_xor]
  cases c.getLsbD 0 <;> cases d.getLsbD 0 <;> simp [BitVec.ushiftRight_xor_distrib] <;> ac_nf <;> simp

theorem crc16Shifts_xor (k : Nat) (c d : Half) :
    crc16Shifts k (c ^^^ d) = crc16Shifts k c ^^^ crc16Shifts k d := by
  induction k generalizing c d with
  | zero => rfl
  | succ k ih => simp only [crc16Shifts, crc16Shift_xor, ih]

theorem crc32Shifts_xor (k : Nat) (c d : Word) :
    crc32Shifts k (c ^^^ d) = crc32Shifts k c ^^^ crc32Shifts k d := by
  induction k generalizing c d with
  | zero => rfl
  | succ k ih => simp only [crc32Shifts, crc32Shift_xor, ih]

@[simp] theorem crc16Shifts_zero (k : Nat) : crc16Shifts k 0 = 0 := by
  induction k with
  | zero => rfl
  | succ k ih => exact ih

@[simp] theorem crc32Shifts_zero (k : Nat) : crc32Shifts k 0 = 0 := by
  induction k with
  | zero => rfl
  | succ k ih => exact ih

/-- A shift loses nothing: only 0 goes to 0. -/
theorem crc16Shift_eq_zero {c : Half} (h : crc16Shift c = 0) : c = 0 := by
  unfold crc16Shift at h
  split at h
  · have := congrArg (BitVec.getLsbD · 0) h
    simp at this
  · rename_i hm
    have h2 : c.toNat * 2 % 65536 = 0 := by
      have := congrArg BitVec.toNat h
      simpa [BitVec.toNat_shiftLeft, Nat.shiftLeft_eq] using this
    have h3 : c.toNat < 32768 := by
      have := BitVec.msb_eq_decide c
      simp only [this] at hm
      simpa using hm
    apply BitVec.eq_of_toNat_eq
    simp
    omega

theorem crc32Shift_eq_zero {c : Word} (h : crc32Shift c = 0) : c = 0 := by
  unfold crc32Shift at h
  split at h
  · have := congrArg (BitVec.getLsbD · 31) h
    simp at this
  · rename_i hm
    have h2 : c.toNat / 2 = 0 := by
      have := congrArg BitVec.toNat h
      simpa [BitVec.toNat_ushiftRight, Nat.shiftRight_eq_div_pow] using this
    have h3 : c.toNat % 2 = 0 := by
      have : c.getLsbD 0 = false := by simpa using hm
      simpa [BitVec.getLsbD, Nat.testBit_zero] using this
    apply BitVec.eq_of_toNat_eq
    simp
    omega

theorem crc16Shifts_eq_zero (k : Nat) {c : Half} (h : crc16Shifts k c = 0) : c = 0 := by
  induction k generalizing c with
  | zero => exact h
  | succ k ih => exact crc16Shift_eq_zero (ih h)

theorem crc32Shifts_eq_zero (k : Nat) {c : Word} (h : crc32Shifts k c = 0) : c = 0 := by
  induction k generalizing c with
  | zero => exact h
  | succ k ih => exact crc32Shift_eq_zero (ih h)

/-! ### Shifts that feed nothing back -/

/-- A value below 2^8 shifted eight times moves up whole: no bit of it leaves at the top. -/
theorem crc16Shifts_low (b : Byte) : crc16Shifts 8 (b.setWidth 16) = b.setWidth 16 <<< 8 := by
  revert b
  decide +kernel

/-- A value with no bit below bit 8 shifted eight times moves down whole. -/
theorem crc32Shifts_high (c : Word) (h : c.setWidth 8 = 0) : crc32Shifts 8 c = c >>> 8 := by
  have bits : ∀ i < 8, c.getLsbD i = false := fun i hi => by
    have := congrArg (BitVec.getLsbD · i) h
    simpa [BitVec.getLsbD_setWidth, hi] using this
  have step : ∀ k ≤ 8, crc32Shifts k c = c >>> k := by
    intro k
    suffices H : ∀ (j k : Nat), j + k ≤ 8 → crc32Shifts k (c >>> j) = c >>> (j + k) from fun hk => by
      simpa using H 0 k (by omega)
    intro j k
    induction k generalizing j with
    | zero => intro _; rfl
    | succ k ih =>
      intro hk
      have hj : (c >>> j).getLsbD 0 = false := by
        simpa [BitVec.getLsbD_ushiftRight] using bits j (by omega)
      rw [crc32Shifts, crc32Shift, hj, if_neg (by simp), ← BitVec.shiftRight_add, ih (j + 1) (by omega)]
      congr 1
      omega
  exact step 8 (by omega)

end Sys2Proof.Machine
end

