-- ==== Sys2Proof/Laws/Decode.lean ====
section
/-! SUPPORT. The fields of a command word (30_encoding R60): a word is its three fields, and a row of the opcode map is
matched field by field. -/

namespace Sys2Proof

/-- The bits of a word by its fields. -/
theorem getLsbD_wordOf (op a : Byte) (n : Half) (i : Nat) : (wordOf op a n).getLsbD i =
    if i < 16 then n.getLsbD i else if i < 24 then a.getLsbD (i - 16) else op.getLsbD (i - 24) := by
  have h := BitVec.getLsbD_append (x := op ++ a) (y := n) (i := i)
  rw [BitVec.getLsbD_append (x := op) (y := a)] at h
  have e : (wordOf op a n).getLsbD i = ((op ++ a) ++ n).getLsbD i := rfl
  rw [e, h]
  by_cases h16 : i < 16
  · simp [h16]
  · by_cases h24 : i < 24
    · have : i - 16 < 8 := by omega
      simp [h16, h24, this]
    · have : ¬ i - 16 < 8 := by omega
      have e' : i - 16 - 8 = i - 24 := by omega
      simp [h16, h24, this, e']

@[simp] theorem opField_wordOf (op a : Byte) (n : Half) : opField (wordOf op a n) = op := by
  apply BitVec.eq_of_getLsbD_eq
  intro i hi
  have h1 : ¬ 24 + i < 16 := by omega
  have h2 : ¬ 24 + i < 24 := by omega
  simp [opField, getLsbD_wordOf, hi, h1]

@[simp] theorem aField_wordOf (op a : Byte) (n : Half) : aField (wordOf op a n) = a := by
  apply BitVec.eq_of_getLsbD_eq
  intro i hi
  have h1 : ¬ 16 + i < 16 := by omega
  have h2 : 16 + i < 24 := by omega
  simp [aField, getLsbD_wordOf, hi, h2]

@[simp] theorem nField_wordOf (op a : Byte) (n : Half) : nField (wordOf op a n) = n := by
  apply BitVec.eq_of_getLsbD_eq
  intro i hi
  simp [nField, getLsbD_wordOf, hi]

theorem wordOf_fields (w : Word) : wordOf (opField w) (aField w) (nField w) = w := by
  apply BitVec.eq_of_getLsbD_eq
  intro i hi
  rw [getLsbD_wordOf]
  split
  · simp [nField, *]
  · split
    · have h1 : i - 16 < 8 := by omega
      have h2 : 16 + (i - 16) = i := by omega
      simp [aField, h1, h2]
    · have h1 : i - 24 < 8 := by omega
      have h2 : 24 + (i - 24) = i := by omega
      simp [opField, h1, h2]

/-- Two words are equal exactly if their fields are. -/
theorem word_eq_iff {v w : Word} : v = w ↔ opField v = opField w ∧ aField v = aField w ∧ nField v = nField w := by
  constructor
  · rintro rfl
    exact ⟨rfl, rfl, rfl⟩
  · rintro ⟨h₁, h₂, h₃⟩
    rw [← wordOf_fields v, ← wordOf_fields w, h₁, h₂, h₃]

@[simp] theorem opField_and (v w : Word) : opField (v &&& w) = opField v &&& opField w := by
  simp [opField, BitVec.extractLsb'_and]
@[simp] theorem aField_and (v w : Word) : aField (v &&& w) = aField v &&& aField w := by
  simp [aField, BitVec.extractLsb'_and]
@[simp] theorem nField_and (v w : Word) : nField (v &&& w) = nField v &&& nField w := by
  simp [nField, BitVec.extractLsb'_and]

/-- A row selects a word exactly if it matches each field. -/
theorem OpcodeRow.selects_iff (r : OpcodeRow) (w : Word) :
    r.selects w = true ↔ opField w &&& opField r.mask = opField r.pattern
      ∧ aField w &&& aField r.mask = aField r.pattern ∧ nField w &&& nField r.mask = nField r.pattern := by
  simp only [OpcodeRow.selects, beq_iff_eq, word_eq_iff, opField_and, aField_and, nField_and]

/-- A code is the code of the name it stands for (R65). -/
@[simp] theorem HdrEnc.code_ofCode (c : BitVec 2) : (HdrEnc.ofCode c).code = c := by revert c; decide
@[simp] theorem HdrEnc.ofCode_code (e : HdrEnc) : HdrEnc.ofCode e.code = e := by cases e <;> rfl
@[simp] theorem FrameEnd.code_ofCode (c : BitVec 2) : (FrameEnd.ofCode c).code = c := by revert c; decide
@[simp] theorem FrameEnd.ofCode_code (e : FrameEnd) : FrameEnd.ofCode e.code = e := by cases e <;> rfl
@[simp] theorem CheckMode.code_ofCode (c : BitVec 1) : (CheckMode.ofCode c).code = c := by revert c; decide
@[simp] theorem CheckMode.ofCode_code (e : CheckMode) : CheckMode.ofCode e.code = e := by cases e <;> rfl

end Sys2Proof
end

