-- ==== Sys2Proof/Laws/Memory.lean ====
section
/-! SUPPORT. The laws of PBUF: read after write, and that a write keeps the canonical form (20_memory R41, R42). -/

namespace Sys2Proof.Machine

@[simp] theorem Memory.read_nil (a : Nat) : Memory.read [] a = none := rfl

theorem Memory.read_cons (k : Nat) (v : Byte) (m : Memory) (a : Nat) :
    Memory.read ((k, v) :: m) a = if k = a then some v else m.read a := rfl

/-- An address below every listed one is not written. -/
theorem Memory.read_below {m : Memory} {a : Nat} (h : ∀ c ∈ m, a < c.1) : m.read a = none := by
  induction m with
  | nil => rfl
  | cons c m ih =>
    obtain ⟨k, v⟩ := c
    have hk : a < k := h (k, v) (by simp)
    rw [Memory.read_cons, if_neg (by omega)]
    exact ih fun c hc => h c (by simp [hc])

/-- A read after a write: the byte stored at its address, the old contents elsewhere. -/
theorem Memory.read_write (m : Memory) (a : Nat) (b : Byte) (x : Nat) :
    (m.write a b).read x = if x = a then some b else m.read x := by
  induction m with
  | nil => simp [Memory.write, Memory.read_cons, eq_comm]
  | cons c m ih =>
    obtain ⟨k, v⟩ := c
    unfold Memory.write
    by_cases hx : x = a
    · subst x
      split
      · simp [Memory.read_cons]
      · split
        · simp [Memory.read_cons]
        · have : k ≠ a := by omega
          simp [Memory.read_cons, ih, this]
    · have hx' : a ≠ x := fun e => hx e.symm
      split
      · simp [Memory.read_cons, hx']
      · split
        · subst k
          simp [Memory.read_cons, hx']
        · simp [Memory.read_cons, ih, hx]

@[simp] theorem Memory.read_write_same (m : Memory) (a : Nat) (b : Byte) : (m.write a b).read a = some b := by
  simp [Memory.read_write]

theorem Memory.read_write_other (m : Memory) {a x : Nat} (b : Byte) (h : x ≠ a) : (m.write a b).read x = m.read x := by
  simp [Memory.read_write, h]

/-- A cell after a write is the one stored or an old one. -/
theorem Memory.mem_write {m : Memory} {a : Nat} {b : Byte} {c : Host.Cell} (h : c ∈ m.write a b) :
    c = (a, b) ∨ c ∈ m := by
  induction m with
  | nil => simpa [Memory.write] using h
  | cons d m ih =>
    obtain ⟨k, v⟩ := d
    unfold Memory.write at h
    split at h
    · simpa using h
    · split at h
      · simp only [List.mem_cons] at h ⊢
        tauto
      · simp only [List.mem_cons] at h ⊢
        rcases h with h | h
        · exact .inr (.inl h)
        · rcases ih h with h | h
          · exact .inl h
          · exact .inr (.inr h)

/-- A write keeps the canonical form. -/
theorem Memory.wf_write {m : Memory} (h : m.wf) (a : Nat) (b : Byte) : (m.write a b).wf := by
  induction m with
  | nil => simp [Memory.write, Memory.wf]
  | cons d m ih =>
    obtain ⟨k, v⟩ := d
    obtain ⟨hk, hm⟩ := List.pairwise_cons.mp h
    unfold Memory.write
    split
    · refine List.pairwise_cons.mpr ⟨?_, h⟩
      intro c hc
      rcases List.mem_cons.mp hc with rfl | hc
      · assumption
      · have := hk c hc
        simp only at this ⊢
        omega
    · split
      · subst k
        exact List.pairwise_cons.mpr ⟨hk, hm⟩
      · refine List.pairwise_cons.mpr ⟨?_, ih hm⟩
        intro c hc
        rcases Memory.mem_write hc with rfl | hc
        · simp only
          omega
        · exact hk c hc

theorem Memory.wf_nil : Memory.wf [] := List.Pairwise.nil

/-- A write keeps every cell inside a bound that its address is inside. -/
theorem Memory.inside_write {m : Memory} {n a : Nat} (h : ∀ c ∈ m, c.1 < n) (ha : a < n) (b : Byte) :
    ∀ c ∈ m.write a b, c.1 < n := by
  intro c hc
  rcases Memory.mem_write hc with rfl | hc
  · exact ha
  · exact h c hc

/-- In the canonical form an address is listed exactly if it reads as a value: equal memories are equal lists. -/
theorem Memory.ext {m m' : Memory} (h : m.wf) (h' : m'.wf) (hr : ∀ a, m.read a = m'.read a) : m = m' := by
  induction m generalizing m' with
  | nil =>
    cases m' with
    | nil => rfl
    | cons d m' =>
      have := hr d.1
      simp only [Memory.read_nil] at this
      rw [show d = (d.1, d.2) from rfl, Memory.read_cons, if_pos rfl] at this
      cases this
  | cons c m ih =>
    obtain ⟨k, v⟩ := c
    obtain ⟨hk, hm⟩ := List.pairwise_cons.mp h
    cases m' with
    | nil => simpa [Memory.read_cons] using hr k
    | cons d m' =>
      obtain ⟨k', v'⟩ := d
      obtain ⟨hk', hm'⟩ := List.pairwise_cons.mp h'
      have hkk : k = k' := by
        rcases Nat.lt_trichotomy k k' with hlt | heq | hgt
        · have := hr k
          rw [Memory.read_cons, if_pos rfl, Memory.read_cons, if_neg (by omega),
            Memory.read_below fun c hc => Nat.lt_trans hlt (hk' c hc)] at this
          simp at this
        · exact heq
        · have := hr k'
          rw [Memory.read_cons, if_neg (by omega), Memory.read_cons, if_pos rfl,
            Memory.read_below fun c hc => Nat.lt_trans hgt (hk c hc)] at this
          simp at this
      subst k'
      have hv : v = v' := by simpa [Memory.read_cons] using hr k
      subst v'
      refine congrArg _ (ih hm hm' fun a => ?_)
      by_cases ha : k = a
      · subst a
        rw [Memory.read_below hk, Memory.read_below hk']
      · simpa [Memory.read_cons, ha] using hr a

/-! ### PBUF through the state -/

/-- A byte that is written reads as itself. -/
theorem State.pbufByte_of_read {s : State} {a : Nat} {b : Byte} (h : s.pbuf.read a = some b) : s.pbufByte a = b := by
  simp [State.pbufByte, h]

/-- `pbufByte` depends on the buffer and the epoch alone. -/
theorem State.pbufByte_congr {s t : State} {a : Nat} (h : t.pbuf.read a = s.pbuf.read a) (he : t.epoch = s.epoch) :
    t.pbufByte a = s.pbufByte a := by
  simp [State.pbufByte, h, he]

theorem State.payload_congr {s t : State} {n : Nat} (h : ∀ a < n, t.pbuf.read a = s.pbuf.read a)
    (he : t.epoch = s.epoch) : t.payload n = s.payload n :=
  List.map_congr_left fun a ha => State.pbufByte_congr (h a (List.mem_range.mp ha)) he

@[simp] theorem State.payload_zero (s : State) : s.payload 0 = [] := rfl

theorem State.payload_succ (s : State) (n : Nat) : s.payload (n + 1) = s.payload n ++ [s.pbufByte n] := by
  simp [State.payload, List.range_succ]

@[simp] theorem State.length_payload (s : State) (n : Nat) : (s.payload n).length = n := by
  simp [State.payload]

end Sys2Proof.Machine
end

