-- ==== Sys2Proof/Laws/Ops.lean ====
section
/-! SUPPORT. One lemma per shared operation of Machine/Ops.lean: everything it can do. -/

namespace Sys2Proof.Machine

/-! ### Stores of the unit -/

theorem State.storeHbuf_next {s t : State} {j : Nat} {b : Byte} {k : State → Result}
    (h : s.storeHbuf j b k = .next t) : ∃ hj : j < 9, k { s with hbuf := s.hbuf.set j b } = .next t := by
  unfold State.storeHbuf at h
  split at h
  · exact ⟨‹_›, h⟩
  · cases h

theorem State.storeTbuf_next {s t : State} {j : Nat} {b : Byte} {k : State → Result}
    (h : s.storeTbuf j b k = .next t) : ∃ hj : j < 4, k { s with tbuf := s.tbuf.set j b } = .next t := by
  unfold State.storeTbuf at h
  split at h
  · exact ⟨‹_›, h⟩
  · cases h

theorem State.storePbuf_next {s t : State} {a : Nat} {b : Byte} {k : State → Result}
    (h : s.storePbuf a b k = .next t) : a < s.size ∧ k { s with pbuf := s.pbuf.write a b } = .next t := by
  unfold State.storePbuf at h
  split at h
  · exact ⟨‹_›, h⟩
  · cases h

theorem State.storeHbuf_of_lt {s : State} {j : Nat} (b : Byte) (k : State → Result) (h : j < 9) :
    s.storeHbuf j b k = k { s with hbuf := s.hbuf.set j b } := dif_pos h

theorem State.storeTbuf_of_lt {s : State} {j : Nat} (b : Byte) (k : State → Result) (h : j < 4) :
    s.storeTbuf j b k = k { s with tbuf := s.tbuf.set j b } := dif_pos h

theorem State.storePbuf_of_lt {s : State} {a : Nat} (b : Byte) (k : State → Result) (h : a < s.size) :
    s.storePbuf a b k = k { s with pbuf := s.pbuf.write a b } := if_pos h

/-! ### The escape decoder (41_escape R108) -/

/-- The cancel run after a byte other than 0x18 is 0. -/
theorem cancelRun_of_ne {w : Byte} (h : w ≠ zdle) (c : BitVec 3) : cancelRun c w = 0 := if_neg h

/-- The cancel run after 0x18 is one longer, saturating at 5. -/
theorem toNat_cancelRun_zdle (c : BitVec 3) : (cancelRun c zdle).toNat = min (c.toNat + 1) 5 := by
  rw [cancelRun, if_pos rfl, BitVec.toNat_ofNat]
  omega

theorem toNat_cancelRun_le (c : BitVec 3) (w : Byte) : (cancelRun c w).toNat ≤ 5 := by
  by_cases h : w = zdle
  · subst h
    rw [toNat_cancelRun_zdle]
    omega
  · simp [cancelRun_of_ne h]

/-- Everything `EscDec` can answer, and the ESCP and CANCNT it leaves. -/
theorem escEvent_cases (escp : Bool) (c : BitVec 3) (w : Byte) :
    (escEvent escp (cancelRun c w) w = .abort ∧ w = zdle ∧ cancelRun c w = 5 ∧ escPending (cancelRun c w) w = false)
    ∨ (escEvent escp (cancelRun c w) w = .escapeStarted ∧ w = zdle ∧ cancelRun c w ≠ 5
        ∧ escPending (cancelRun c w) w = true)
    ∨ (w ≠ zdle ∧ cancelRun c w = 0 ∧ escPending (cancelRun c w) w = false
        ∧ escEvent escp (cancelRun c w) w = if escp then escSecond w else .data w) := by
  by_cases hw : w = zdle
  · subst hw
    by_cases h5 : cancelRun c zdle = 5
    · exact .inl ⟨by simp [escEvent, h5], rfl, h5, by simp [escPending, h5]⟩
    · exact .inr (.inl ⟨by simpa [escEvent] using h5, rfl, h5, by simpa [escPending] using h5⟩)
  · have h0 : cancelRun c w = 0 := cancelRun_of_ne hw c
    exact .inr (.inr ⟨hw, h0, by simp [escPending, h0, hw], by simp [escEvent, h0, hw]⟩)

/-- A data event leaves no escape pending and no cancel run. -/
theorem escEvent_data {escp : Bool} {c : BitVec 3} {w b : Byte} (h : escEvent escp (cancelRun c w) w = .data b) :
    w ≠ zdle ∧ cancelRun c w = 0 ∧ escPending (cancelRun c w) w = false := by
  rcases escEvent_cases escp c w with ⟨e, _⟩ | ⟨e, _⟩ | ⟨hw, h0, hp, _⟩
  · rw [e] at h; cases h
  · rw [e] at h; cases h
  · exact ⟨hw, h0, hp⟩

/-- A frame-end letter is what it names (30_encoding R75). -/
theorem frameEndOf_some {w : Byte} {fe : FrameEnd} (h : frameEndOf w = some fe) : w = letterOf fe := by
  unfold frameEndOf at h
  split at h
  · cases h; subst w; rfl
  · split at h
    · cases h; subst w; rfl
    · split at h
      · cases h; subst w; rfl
      · split at h
        · cases h; subst w; rfl
        · cases h

/-- A second byte is a frame end only if it is the letter. -/
theorem escSecond_frameEnd {w : Byte} {fe : FrameEnd} (h : escSecond w = .frameEnd fe) : w = letterOf fe := by
  unfold escSecond at h
  cases hf : frameEndOf w with
  | some fe' =>
    simp only [hf] at h
    cases h
    exact frameEndOf_some hf
  | none =>
    simp only [hf] at h
    split at h
    · cases h
    · split at h
      · cases h
      · split at h <;> cases h

/-- A frame-end event leaves no escape pending and no cancel run, and the wire byte is the letter. -/
theorem escEvent_frameEnd {escp : Bool} {c : BitVec 3} {w : Byte} {fe : FrameEnd}
    (h : escEvent escp (cancelRun c w) w = .frameEnd fe) :
    w = letterOf fe ∧ cancelRun c w = 0 ∧ escPending (cancelRun c w) w = false := by
  rcases escEvent_cases escp c w with ⟨e, _⟩ | ⟨e, _⟩ | ⟨_, h0, hp, e⟩
  · rw [e] at h; cases h
  · rw [e] at h; cases h
  · rw [e] at h
    split at h
    · exact ⟨escSecond_frameEnd h, h0, hp⟩
    · cases h

/-! ### The escape encoder (41_escape R106) -/

theorem escWires_append (ctlesc : Bool) (last : Byte) (m m' : List Byte) :
    escWires ctlesc last (m ++ m') = escWires ctlesc last m ++ escWires ctlesc (escLasts ctlesc last m) m' := by
  induction m generalizing last with
  | nil => rfl
  | cons b m ih => simp [escWires, escLasts, ih]

/-- LASTTX after a sequence is the last wire byte put, or its old value if none was. -/
theorem escLasts_eq (ctlesc : Bool) (last : Byte) (m : List Byte) :
    escLasts ctlesc last m = (escWires ctlesc last m).getLastD last := by
  induction m generalizing last with
  | nil => rfl
  | cons b m ih =>
    have step : escLasts ctlesc last (b :: m) = escLasts ctlesc (escLast ctlesc last b) m := rfl
    have last1 : (escWire ctlesc last b).getLastD last = escLast ctlesc last b := by
      unfold escWire escLast
      split <;> rfl
    rw [step, ih, escWires]
    cases hw : escWires ctlesc (escLast ctlesc last b) m with
    | nil => simpa using last1.symm
    | cons x xs => simp [List.getLastD_eq_getLast?, List.getLast?_append, List.getLast?_cons]

/-! ### A trailer that has arrived (43_subpacket R149) -/

theorem State.finishCheck_cases (s : State) (ok : Bool) :
    (ok = true ∧ s.finishCheck ok = s.finish .ok .none 0)
      ∨ (ok = false ∧ s.finishCheck ok = s.finish .corrupt .checkMismatch 0) := by
  cases ok
  · exact .inr ⟨rfl, rfl⟩
  · exact .inl ⟨rfl, rfl⟩

/-- `Finish()` of HDR.RX: accepted with the check verified, or Corrupt with the header registers untouched (42_header R129). -/
theorem hdrFinish_cases (s : State) :
    (hdrCheckOk s = true ∧ hdrFinish s =
      { s with
        htype := s.hbuf[0]
        hval := ofLe s.hbuf[1] s.hbuf[2] s.hbuf[3] s.hbuf[4]
        henc := s.rxenc }.finish .ok .none 0)
    ∨ (hdrCheckOk s = false ∧ hdrFinish s = s.finish .corrupt .checkMismatch 0) := by
  unfold hdrFinish
  cases hdrCheckOk s
  · exact .inr ⟨rfl, rfl⟩
  · exact .inl ⟨rfl, rfl⟩

/-! ### Byte orders (20_memory R43) -/

theorem ofBe_beBytes (h : Half) : ofBe (h.extractLsb' 8 8) (h.extractLsb' 0 8) = h := by
  ext i hi
  simp only [ofBe, BitVec.getElem_or, BitVec.getElem_shiftLeft, BitVec.getElem_setWidth,
    BitVec.getLsbD_extractLsb']
  by_cases h8 : i < 8
  · simp [h8, BitVec.getLsbD_eq_getElem, hi]
  · have h1 : i - 8 < 8 := by omega
    have h2 : 8 + (i - 8) = i := by omega
    simp [h8, h1, h2, BitVec.getLsbD_eq_getElem, hi]

end Sys2Proof.Machine
end

