-- ==== Sys2Proof/Laws/Rx.lean ====
section
/-! SUPPORT. What one RX event can do, said once for each streaming command (42_header R124, 43_subpacket R147, 44_xblock
R161): if it answers a next state, one of these cases holds. Invariants and frames are derived from these lemmas. -/

namespace Sys2Proof.Machine

theorem escDec_event (s : State) (w : Byte) : (s.escDec w).1 = escEvent s.escp (cancelRun s.cancnt w) w := rfl

/-! ### HDR.RX -/

/-- The state of HDR.RX after the low digit of a pair, before Finish (42_header R127). -/
def hdrAfterLowDigit (s : State) (j : Nat) (hj : j < 9) (b : Byte) : State :=
  { (if j < 5 then { s with hbuf := s.hbuf.set j b }.foldCheck false b else { s with hbuf := s.hbuf.set j b }) with
    idx := s.idx + 1 }

/-- The state of HDR.RX after a decoded body byte, before Finish (42_header R130). -/
def hdrAfterBodyByte (s : State) (hj : s.idx.toNat < 9) (b : Byte) : State :=
  { (if s.idx.toNat < 5 then { s with hbuf := s.hbuf.set s.idx.toNat b }.foldCheck s.rxc32 b
      else { s with hbuf := s.hbuf.set s.idx.toNat b }) with
    idx := s.idx + 1 }

/-- The cases of a byte event in a phase matched raw. -/
inductive HdrRawCase (w : Byte) (s : State) : State → Prop where
  | abort (h : cancelRun s.cancnt w = 5) : HdrRawCase w s ((s.countCancel w).finish .abort .none 0)
  | hunt (p : BitVec 3) (hp : p = phaseHunt ∨ p = phasePad ∨ p = phaseFmt) (h : cancelRun s.cancnt w ≠ 5) :
      HdrRawCase w s { s.countCancel w with phase := p }
  | start (enc : HdrEnc) (h : cancelRun s.cancnt w ≠ 5) (hf : encOfFormat w = some enc) (hp : s.phase = phaseFmt) :
      HdrRawCase w s (startBody enc (s.countCancel w))
  | badDigit (hp : s.phase = phaseBody) (hv : hexVal w = none) :
      HdrRawCase w s ((s.countCancel w).finish .corrupt .badHexDigit 0)
  | highDigit (d : BitVec 4) (hp : s.phase = phaseBody) (he : s.rxenc = .hex) (hv : hexVal w = some d)
      (hi : s.idx.toNat % 2 = 0) (hj : s.idx.toNat / 2 < 9) :
      HdrRawCase w s
        { s.countCancel w with hbuf := s.hbuf.set (s.idx.toNat / 2) (d.setWidth 8 <<< 4), idx := s.idx + 1 }
  | lowDigit (d : BitVec 4) (hp : s.phase = phaseBody) (he : s.rxenc = .hex) (hv : hexVal w = some d)
      (hi : s.idx.toNat % 2 = 1) (hj : s.idx.toNat / 2 < 9) (hl : s.idx + 1 ≠ 14) :
      HdrRawCase w s
        (hdrAfterLowDigit (s.countCancel w) (s.idx.toNat / 2) hj (s.hbuf[s.idx.toNat / 2] ||| d.setWidth 8))
  | lastDigit (d : BitVec 4) (hp : s.phase = phaseBody) (he : s.rxenc = .hex) (hv : hexVal w = some d)
      (hi : s.idx.toNat % 2 = 1) (hj : s.idx.toNat / 2 < 9) (hl : s.idx + 1 = 14) :
      HdrRawCase w s (hdrFinish
        (hdrAfterLowDigit (s.countCancel w) (s.idx.toNat / 2) hj (s.hbuf[s.idx.toNat / 2] ||| d.setWidth 8)))

/-- The cases of a byte event in a binary body. -/
inductive HdrBinCase (w : Byte) (s : State) : State → Prop where
  | abort (h : cancelRun s.cancnt w = 5) : HdrBinCase w s ((s.escDec w).2.finish .abort .none 0)
  | escape (h : cancelRun s.cancnt w ≠ 5) (hw : w = zdle) : HdrBinCase w s (s.escDec w).2
  | frameEnd : HdrBinCase w s ((s.escDec w).2.finish .corrupt .unexpectedFrameEnd 0)
  | badEscape : HdrBinCase w s ((s.escDec w).2.finish .corrupt .badEscape 0)
  | more (b : Byte) (he : (s.escDec w).1 = .data b) (hj : s.idx.toNat < 9)
      (hl : s.idx + 1 ≠ if s.rxc32 then 9 else 7) : HdrBinCase w s (hdrAfterBodyByte (s.escDec w).2 hj b)
  | last (b : Byte) (he : (s.escDec w).1 = .data b) (hj : s.idx.toNat < 9)
      (hl : s.idx + 1 = if s.rxc32 then 9 else 7) : HdrBinCase w s (hdrFinish (hdrAfterBodyByte (s.escDec w).2 hj b))

theorem getLsbD_zero_eq (v : Half) : v.getLsbD 0 = decide (v.toNat % 2 = 1) := by
  simp [BitVec.getLsbD, Nat.testBit_zero]

theorem hdrHexBody_cases {w : Byte} {s t : State} (h5 : cancelRun s.cancnt w ≠ 5) (hp : s.phase = phaseBody)
    (he : s.rxenc = .hex) (h : hdrHexBody w (s.countCancel w) = .next t) : HdrRawCase w s t := by
  unfold hdrHexBody at h
  split at h
  · cases h
    exact .hunt phaseHunt (.inl rfl) h5
  · cases hv : hexVal w with
    | none =>
      simp only [hv] at h
      cases h
      exact .badDigit hp hv
    | some d =>
      simp only [hv, hdrHexDigit, getLsbD_zero_eq, State.countCancel_idx, State.countCancel_hbuf] at h
      by_cases hi : s.idx.toNat % 2 = 1
      · simp only [hi, decide_true, if_true] at h
        obtain ⟨hj, h⟩ := State.storeHbuf_next h
        have hb : s.hbuf.toList.getD (s.idx.toNat / 2) 0 = s.hbuf[s.idx.toNat / 2] := by
          simp [List.getD_eq_getElem?_getD, hj]
        simp only [hb] at h
        by_cases hl : s.idx + 1 = 14
        · rw [if_pos hl] at h
          cases h
          exact .lastDigit d hp he hv hi hj hl
        · rw [if_neg hl] at h
          cases h
          exact .lowDigit d hp he hv hi hj hl
      · simp only [hi, decide_false, Bool.false_eq_true, if_false] at h
        obtain ⟨hj, h⟩ := State.storeHbuf_next h
        cases h
        exact .highDigit d hp he hv (by omega) hj

/-- A decoded body byte completes the header or only counts (42_header R130). -/
theorem hdrBinByte_next {b : Byte} {s t : State} (h : hdrBinByte b s = .next t) : ∃ hj : s.idx.toNat < 9,
    (s.idx + 1 = (if s.rxc32 then 9 else 7) ∧ t = hdrFinish (hdrAfterBodyByte s hj b))
    ∨ (s.idx + 1 ≠ (if s.rxc32 then 9 else 7) ∧ t = hdrAfterBodyByte s hj b) := by
  unfold hdrBinByte at h
  obtain ⟨hj, h⟩ := State.storeHbuf_next h
  have h' : (if s.idx + 1 = (if s.rxc32 then 9 else 7) then hdrFinish (hdrAfterBodyByte s hj b)
      else hdrAfterBodyByte s hj b) = t := Host.Outcome.next.inj h
  refine ⟨hj, ?_⟩
  by_cases hl : s.idx + 1 = if s.rxc32 then 9 else 7
  · rw [if_pos hl] at h'
    exact .inl ⟨hl, h'.symm⟩
  · rw [if_neg hl] at h'
    exact .inr ⟨hl, h'.symm⟩

theorem hdrBinBody_cases {w : Byte} {s t : State} (h : hdrBinBody w s = .next t) : HdrBinCase w s t := by
  unfold hdrBinBody at h
  simp only at h
  split at h
  · rename_i e
    cases h
    rcases escEvent_cases s.escp s.cancnt w with ⟨_, _, h5, _⟩ | ⟨e', _⟩ | ⟨hw, h0, _, e'⟩
    · exact .abort h5
    · rw [escDec_event, e'] at e; cases e
    · rw [escDec_event, e'] at e
      unfold escSecond at e
      repeat' first
        | cases e
        | split at e
  · rename_i e
    cases h
    rcases escEvent_cases s.escp s.cancnt w with ⟨e', _⟩ | ⟨_, hw, h5, _⟩ | ⟨hw, h0, _, e'⟩
    · rw [escDec_event, e'] at e; cases e
    · exact .escape h5 hw
    · rw [escDec_event, e'] at e
      unfold escSecond at e
      repeat' first
        | cases e
        | split at e
  · cases h
    exact .frameEnd
  · cases h
    exact .badEscape
  · rename_i b e
    obtain ⟨hj, ⟨hl, rfl⟩ | ⟨hl, rfl⟩⟩ := hdrBinByte_next h
    · exact .last b e hj hl
    · exact .more b e hj hl

/-- Everything an RX event of HDR.RX can do. -/
theorem hdrRxEvent_cases {e : RxEvent} {s t : State} (h : hdrRxEvent e s = .next t) :
    (e = .timeout ∧ t = s.finish .timedOut .none 0)
    ∨ ∃ w, e = .byte w
        ∧ ((hdrRaw s = true ∧ HdrRawCase w s t) ∨ (s.phase = phaseBody ∧ s.rxenc ≠ .hex ∧ HdrBinCase w s t)) := by
  unfold hdrRxEvent at h
  split at h
  · cases h
    exact .inl ⟨rfl, rfl⟩
  · rename_i w
    refine .inr ⟨w, rfl, ?_⟩
    by_cases hr : hdrRaw s = true
    · refine .inl ⟨hr, ?_⟩
      simp only [hr, if_true] at h
      by_cases h5 : (s.countCancel w).cancnt = 5
      · rw [if_pos h5] at h
        cases h
        exact .abort h5
      · rw [if_neg h5] at h
        unfold hdrRawByte at h
        simp only [State.countCancel_phase] at h
        split at h
        · rename_i hp
          cases h
          unfold hdrHunt
          split
          · exact .hunt phasePad (.inr (.inl rfl)) h5
          · have := HdrRawCase.hunt (w := w) (s := s) phaseHunt (.inl rfl) h5
            rw [← hp] at this
            exact this
        · split at h
          · cases h
            unfold hdrPad
            split
            · exact .hunt phasePad (.inr (.inl rfl)) h5
            · split
              · exact .hunt phaseFmt (.inr (.inr rfl)) h5
              · exact .hunt phaseHunt (.inl rfl) h5
          · split at h
            · rename_i hp
              cases h
              unfold hdrFmt
              split
              · rename_i enc hf
                exact .start enc h5 hf hp
              · split
                · exact .hunt phasePad (.inr (.inl rfl)) h5
                · exact .hunt phaseHunt (.inl rfl) h5
            · rename_i h0 h1 h2
              simp only [hdrRaw, beq_iff_eq, h0, h1, h2, Bool.or_eq_true, Bool.and_eq_true, false_or, or_false] at hr
              exact hdrHexBody_cases h5 hr.1 hr.2 h
    · refine .inr ?_
      rw [if_neg hr] at h
      split at h
      · rename_i hp
        refine ⟨hp, ?_, hdrBinBody_cases h⟩
        rintro he
        simp [hdrRaw, hp, he] at hr
      · cases h

/-! ### SPK.RX -/

/-- The cases of a byte event of SPK.RX. -/
inductive SpkCase (w : Byte) (s : State) : State → Prop where
  | abort (h : cancelRun s.cancnt w = 5) : SpkCase w s ((s.escDec w).2.finish .abort .none 0)
  | escape (h : cancelRun s.cancnt w ≠ 5) (hw : w = zdle) : SpkCase w s (s.escDec w).2
  | badEscape : SpkCase w s ((s.escDec w).2.finish .corrupt .badEscape 0)
  | overrun (b : Byte) (he : (s.escDec w).1 = .data b) (hp : s.phase = phaseSpkData) (hi : s.idx = s.rxmax) :
      SpkCase w s ((s.escDec w).2.finish .overrun .none 0)
  | payload (b : Byte) (he : (s.escDec w).1 = .data b) (hp : s.phase = phaseSpkData) (hi : s.idx ≠ s.rxmax)
      (ha : s.idx.toNat < s.size) :
      SpkCase w s { { (s.escDec w).2 with pbuf := s.pbuf.write s.idx.toNat b }.foldCheck s.rxc32 b with
        idx := s.idx + 1, rxlen := s.idx + 1 }
  | trailer (b : Byte) (he : (s.escDec w).1 = .data b) (hp : s.phase ≠ phaseSpkData) (hj : s.tidx.toNat < 4)
      (hl : s.tidx + 1 ≠ if s.rxc32 then 4 else 2) :
      SpkCase w s { (s.escDec w).2 with tbuf := s.tbuf.set s.tidx.toNat b, tidx := s.tidx + 1 }
  | last (b : Byte) (he : (s.escDec w).1 = .data b) (hp : s.phase ≠ phaseSpkData) (hj : s.tidx.toNat < 4)
      (hl : s.tidx + 1 = if s.rxc32 then 4 else 2) (ok : Bool)
      (hok : ok = spkCheckOk { (s.escDec w).2 with tbuf := s.tbuf.set s.tidx.toNat b, tidx := s.tidx + 1 }) :
      SpkCase w s
        ({ (s.escDec w).2 with tbuf := s.tbuf.set s.tidx.toNat b, tidx := s.tidx + 1 }.finishCheck ok)
  | frameEnd (fe : FrameEnd) (he : (s.escDec w).1 = .frameEnd fe) (hp : s.phase = phaseSpkData) :
      SpkCase w s { (s.escDec w).2.foldCheck s.rxc32 (letterOf fe) with fe := fe, phase := phaseSpkTrail, tidx := 0 }
  | strayFrameEnd (hp : s.phase ≠ phaseSpkData) :
      SpkCase w s ((s.escDec w).2.finish .corrupt .unexpectedFrameEnd 0)

/-- A payload byte overruns or is stored and folded (43_subpacket R151). -/
theorem spkData_next {b : Byte} {s t : State} (h : spkData b s = .next t) :
    (s.idx = s.rxmax ∧ t = s.finish .overrun .none 0)
    ∨ (s.idx ≠ s.rxmax ∧ s.idx.toNat < s.size
        ∧ t = { { s with pbuf := s.pbuf.write s.idx.toNat b }.foldCheck s.rxc32 b with
            idx := s.idx + 1, rxlen := s.idx + 1 }) := by
  unfold spkData at h
  split at h
  · cases h
    exact .inl ⟨‹_›, rfl⟩
  · obtain ⟨ha, h⟩ := State.storePbuf_next h
    cases h
    exact .inr ⟨‹_›, ha, rfl⟩

/-- A trailer byte completes the subpacket or only counts (43_subpacket R149). -/
theorem spkTrail_next {b : Byte} {s t : State} (h : spkTrail b s = .next t) : ∃ hj : s.tidx.toNat < 4,
    (s.tidx + 1 = (if s.rxc32 then 4 else 2)
      ∧ t = { s with tbuf := s.tbuf.set s.tidx.toNat b, tidx := s.tidx + 1 }.finishCheck
          (spkCheckOk { s with tbuf := s.tbuf.set s.tidx.toNat b, tidx := s.tidx + 1 }))
    ∨ (s.tidx + 1 ≠ (if s.rxc32 then 4 else 2)
      ∧ t = { s with tbuf := s.tbuf.set s.tidx.toNat b, tidx := s.tidx + 1 }) := by
  unfold spkTrail at h
  obtain ⟨hj, h⟩ := State.storeTbuf_next h
  have h' : (if s.tidx + 1 = (if s.rxc32 then 4 else 2) then
      { s with tbuf := s.tbuf.set s.tidx.toNat b, tidx := s.tidx + 1 }.finishCheck
        (spkCheckOk { s with tbuf := s.tbuf.set s.tidx.toNat b, tidx := s.tidx + 1 })
      else { s with tbuf := s.tbuf.set s.tidx.toNat b, tidx := s.tidx + 1 }) = t := Host.Outcome.next.inj h
  refine ⟨hj, ?_⟩
  by_cases hl : s.tidx + 1 = if s.rxc32 then 4 else 2
  · rw [if_pos hl] at h'
    exact .inl ⟨hl, h'.symm⟩
  · rw [if_neg hl] at h'
    exact .inr ⟨hl, h'.symm⟩

/-- Everything an RX event of SPK.RX can do. -/
theorem spkRxEvent_cases {e : RxEvent} {s t : State} (h : spkRxEvent e s = .next t) :
    (e = .timeout ∧ t = s.finish .timedOut .none 0) ∨ ∃ w, e = .byte w ∧ SpkCase w s t := by
  unfold spkRxEvent at h
  split at h
  · cases h
    exact .inl ⟨rfl, rfl⟩
  · rename_i w
    refine .inr ⟨w, rfl, ?_⟩
    simp only at h
    split at h
    · rename_i e
      cases h
      rcases escEvent_cases s.escp s.cancnt w with ⟨_, _, h5, _⟩ | ⟨e', _⟩ | ⟨hw, h0, _, e'⟩
      · exact .abort h5
      · rw [escDec_event, e'] at e; cases e
      · rw [escDec_event, e'] at e
        unfold escSecond at e
        repeat' first
          | cases e
          | split at e
    · rename_i e
      cases h
      rcases escEvent_cases s.escp s.cancnt w with ⟨e', _⟩ | ⟨_, hw, h5, _⟩ | ⟨hw, h0, _, e'⟩
      · rw [escDec_event, e'] at e; cases e
      · exact .escape h5 hw
      · rw [escDec_event, e'] at e
        unfold escSecond at e
        repeat' first
          | cases e
          | split at e
    · cases h
      exact .badEscape
    · rename_i b e
      simp only [State.escDec_phase] at h
      split at h
      · rename_i hp
        obtain ⟨hi, rfl⟩ | ⟨hi, ha, rfl⟩ := spkData_next h
        · exact .overrun b e hp hi
        · exact .payload b e hp hi ha
      · rename_i hp
        obtain ⟨hj, ⟨hl, rfl⟩ | ⟨hl, rfl⟩⟩ := spkTrail_next h
        · exact .last b e hp hj hl _ rfl
        · exact .trailer b e hp hj hl
    · rename_i fe e
      cases h
      unfold spkFrameEnd
      simp only [State.escDec_phase, State.escDec_rxc32]
      split
      · exact .frameEnd fe e ‹_›
      · exact .strayFrameEnd ‹_›

/-! ### XBK.RX -/

/-- The state of XBK.RX after a payload byte (44_xblock R163). -/
def xbkAfterPayloadByte (s : State) (w : Byte) : State :=
  { { s with cancnt := 0, pbuf := s.pbuf.write s.idx.toNat w }.foldBlock s.xmode w with
    idx := s.idx + 1, rxlen := s.idx + 1 }

/-- The cases of a byte event of XBK.RX. -/
inductive XbkCase (w : Byte) (s : State) : State → Prop where
  | abort (hp : s.phase = phaseStart) (h : cancelRun s.cancnt w = 5) :
      XbkCase w s ((s.countCancel w).finish .abort .none 0)
  | start (hp : s.phase = phaseStart) (h : cancelRun s.cancnt w ≠ 5) (hw : w = soh) :
      XbkCase w s { s.countCancel w with phase := phaseBlk }
  | ended (hp : s.phase = phaseStart) (h : cancelRun s.cancnt w ≠ 5) (hw : w = eot) :
      XbkCase w s ((s.countCancel w).finish .ended .none 0)
  | cancel (hp : s.phase = phaseStart) (h : cancelRun s.cancnt w ≠ 5) (hw : w = zdle) : XbkCase w s (s.countCancel w)
  | badStart (hp : s.phase = phaseStart) (h : cancelRun s.cancnt w ≠ 5) :
      XbkCase w s ((s.countCancel w).finish .corrupt .badStart 0)
  | number (hp : s.phase = phaseBlk) : XbkCase w s { s with cancnt := 0, xrblk := w, phase := phaseCblk }
  | complement (hp : s.phase = phaseCblk) (hw : w = s.xrblk ^^^ 0xFF) :
      XbkCase w s { s with cancnt := 0, phase := phaseXbkData, idx := 0 }
  | badComplement (hp : s.phase = phaseCblk) (hw : w ≠ s.xrblk ^^^ 0xFF) :
      XbkCase w s ({ s with cancnt := 0 }.finish .corrupt .badComplement 0)
  | payload (hp : s.phase = phaseXbkData) (ha : s.idx.toNat < s.size) (hl : s.idx + 1 ≠ 128) :
      XbkCase w s (xbkAfterPayloadByte s w)
  | lastPayload (hp : s.phase = phaseXbkData) (ha : s.idx.toNat < s.size) (hl : s.idx + 1 = 128) :
      XbkCase w s { xbkAfterPayloadByte s w with phase := phaseXbkTrail, tidx := 0 }
  | sum (hp : s.phase = phaseXbkTrail) (hm : s.xmode = .sum) :
      XbkCase w s ({ s with cancnt := 0 }.finishCheck (w == s.sum8))
  | crcHigh (hp : s.phase = phaseXbkTrail) (hm : s.xmode = .crc) (hj : s.tidx.toNat < 4) (hl : s.tidx + 1 ≠ 2) :
      XbkCase w s { s with cancnt := 0, tbuf := s.tbuf.set s.tidx.toNat w, tidx := s.tidx + 1 }
  | crcLow (hp : s.phase = phaseXbkTrail) (hm : s.xmode = .crc) (hj : s.tidx.toNat < 4) (hl : s.tidx + 1 = 2) :
      XbkCase w s ({ s with cancnt := 0, tbuf := s.tbuf.set s.tidx.toNat w, tidx := s.tidx + 1 }.finishCheck
        (ofBe (s.tbuf.set s.tidx.toNat w)[0] (s.tbuf.set s.tidx.toNat w)[1] == s.crc16))

/-- Everything an RX event of XBK.RX can do. -/
theorem xbkRxEvent_cases {e : RxEvent} {s t : State} (h : xbkRxEvent e s = .next t) :
    (e = .timeout ∧ t = s.finish .timedOut .none 0) ∨ ∃ w, e = .byte w ∧ XbkCase w s t := by
  unfold xbkRxEvent at h
  split at h
  · cases h
    exact .inl ⟨rfl, rfl⟩
  · rename_i w
    refine .inr ⟨w, rfl, ?_⟩
    split at h
    · rename_i hp
      simp only at h
      by_cases h5 : (s.countCancel w).cancnt = 5
      · rw [if_pos h5] at h
        cases h
        exact .abort hp h5
      · rw [if_neg h5] at h
        cases h
        unfold xbkStartByte
        split
        · exact .start hp h5 ‹_›
        · split
          · exact .ended hp h5 ‹_›
          · split
            · exact .cancel hp h5 ‹_›
            · exact .badStart hp h5
    · unfold xbkInBlock at h
      simp only at h
      split at h
      · cases h
        exact .number ‹_›
      · split at h
        · rename_i hp
          cases h
          unfold xbkComplement
          simp only
          split
          · exact .complement hp ‹_›
          · exact .badComplement hp ‹_›
        · split at h
          · rename_i hp
            unfold xbkData at h
            obtain ⟨ha, h⟩ := State.storePbuf_next h
            simp only at h
            by_cases hl : s.idx + 1 = 128
            · rw [if_pos hl] at h
              cases h
              exact .lastPayload hp ha hl
            · rw [if_neg hl] at h
              cases h
              exact .payload hp ha hl
          · split at h
            · rename_i hp
              unfold xbkTrail at h
              simp only at h
              split at h
              · cases h
                exact .sum hp ‹_›
              · obtain ⟨hj, h⟩ := State.storeTbuf_next h
                simp only at h
                by_cases hl : s.tidx + 1 = 2
                · rw [if_pos hl] at h
                  cases h
                  exact .crcLow hp ‹_› hj hl
                · rw [if_neg hl] at h
                  cases h
                  exact .crcHigh hp ‹_› hj hl
            · cases h

end Sys2Proof.Machine
end

