-- ==== Sys2Proof/Laws/Events.lean ====
section
/-! SUPPORT. What one RX event does, as equations (42_header R124, 43_subpacket R147): the converse direction of Laws/Rx.lean.
The escape decoder once per event, then each handler once per case; and where an active command stands under the invariant. -/

namespace Sys2Proof.Machine

/-! ### The escape decoder on the state, event by event (41_escape R108) -/

theorem escSecond_ne_abort (w : Byte) : escSecond w ≠ .abort := by
  unfold escSecond
  repeat' split
  all_goals simp

theorem escSecond_ne_escapeStarted (w : Byte) : escSecond w ≠ .escapeStarted := by
  unfold escSecond
  repeat' split
  all_goals simp

variable {s : State} {w b x : Byte} {fe : FrameEnd}

theorem escDec_eq (s : State) (w : Byte) : s.escDec w =
    (escEvent s.escp (cancelRun s.cancnt w) w,
      { s with cancnt := cancelRun s.cancnt w, escp := escPending (cancelRun s.cancnt w) w }) := rfl

theorem escDec_of_abort (h : escEvent s.escp (cancelRun s.cancnt w) w = .abort) :
    s.escDec w = (.abort, { s with cancnt := 5, escp := false }) := by
  rcases escEvent_cases s.escp s.cancnt w with ⟨_, _, h5, hp⟩ | ⟨e, _⟩ | ⟨_, _, _, e⟩
  · rw [escDec_eq, h, hp, h5]
  · rw [e] at h; cases h
  · rw [e] at h
    split at h
    · exact absurd h (escSecond_ne_abort w)
    · cases h

theorem escDec_of_escapeStarted (h : escEvent s.escp (cancelRun s.cancnt w) w = .escapeStarted) :
    s.escDec w = (.escapeStarted, { s with cancnt := cancelRun s.cancnt w, escp := true }) := by
  rcases escEvent_cases s.escp s.cancnt w with ⟨e, _⟩ | ⟨_, _, _, hp⟩ | ⟨_, _, _, e⟩
  · rw [e] at h; cases h
  · rw [escDec_eq, h, hp]
  · rw [e] at h
    split at h
    · exact absurd h (escSecond_ne_escapeStarted w)
    · cases h

theorem escDec_of_data (h : escEvent s.escp (cancelRun s.cancnt w) w = .data b) :
    s.escDec w = (.data b, { s with cancnt := 0, escp := false }) := by
  obtain ⟨_, h0, hp⟩ := escEvent_data h
  rw [escDec_eq, h, hp, h0]

theorem escDec_of_frameEnd (h : escEvent s.escp (cancelRun s.cancnt w) w = .frameEnd fe) :
    s.escDec w = (.frameEnd fe, { s with cancnt := 0, escp := false }) := by
  obtain ⟨_, h0, hp⟩ := escEvent_frameEnd h
  rw [escDec_eq, h, hp, h0]

theorem escDec_of_badEscape (h : escEvent s.escp (cancelRun s.cancnt w) w = .badEscape x) :
    s.escDec w = (.badEscape x, { s with cancnt := 0, escp := false }) := by
  rcases escEvent_cases s.escp s.cancnt w with ⟨e, _⟩ | ⟨e, _⟩ | ⟨_, h0, hp, _⟩
  · rw [e] at h; cases h
  · rw [e] at h; cases h
  · rw [escDec_eq, h, hp, h0]

/-- A byte 0x18 starts an escape or aborts, by the run it ends (R108 steps 1 to 3). -/
theorem escEvent_zdle (escp : Bool) (run : BitVec 3) :
    escEvent escp run zdle = if run = 5 then .abort else .escapeStarted := by simp [escEvent]

/-! ### A received check against the computed one (20_memory R43) -/

theorem getLsbD_ofBe (hi lo : Byte) {i : Nat} (h : i < 16) :
    (ofBe hi lo).getLsbD i = if i < 8 then lo.getLsbD i else hi.getLsbD (i - 8) := by
  simp only [ofBe, BitVec.getLsbD_or, BitVec.getLsbD_shiftLeft, BitVec.getLsbD_setWidth, h, decide_true, Bool.true_and]
  by_cases h8 : i < 8
  · simp [h8]
  · simp [h8, BitVec.getLsbD_of_ge lo i (by omega), show i - 8 < 16 by omega]

theorem ofBe_eq_iff (hi lo : Byte) (h : Half) : ofBe hi lo = h ↔ [hi, lo] = beBytes h := by
  simp only [beBytes, List.cons.injEq, and_true]
  constructor
  · rintro rfl
    refine ⟨?_, ?_⟩ <;>
      (apply BitVec.eq_of_getLsbD_eq
       intro i h8
       rw [BitVec.getLsbD_extractLsb', getLsbD_ofBe _ _ (by omega)])
    · simp [h8, show ¬ 8 + i < 8 by omega]
    · simp [h8]
  · rintro ⟨rfl, rfl⟩
    exact ofBe_beBytes h

theorem getLsbD_ofLe (b0 b1 b2 b3 : Byte) {i : Nat} (hi : i < 32) : (ofLe b0 b1 b2 b3).getLsbD i =
    if i < 8 then b0.getLsbD i else if i < 16 then b1.getLsbD (i - 8) else if i < 24 then b2.getLsbD (i - 16)
      else b3.getLsbD (i - 24) := by
  have ge : ∀ (b : Byte) (k : Nat), 8 ≤ k → b.getLsbD k = false := fun b k hk => BitVec.getLsbD_of_ge b k hk
  simp only [ofLe, BitVec.getLsbD_or, BitVec.getLsbD_shiftLeft, BitVec.getLsbD_setWidth, hi, decide_true, Bool.true_and]
  by_cases h8 : i < 8
  · simp [h8, show i < 16 by omega, show i < 24 by omega]
  · by_cases h16 : i < 16
    · simp [h8, h16, show i < 24 by omega, ge _ i (by omega), show i - 8 < 32 by omega]
    · by_cases h24 : i < 24
      · simp [h8, h16, h24, ge _ i (by omega), ge _ (i - 8) (by omega), show i - 16 < 32 by omega]
      · simp [h8, h16, h24, ge _ i (by omega), ge _ (i - 8) (by omega), ge _ (i - 16) (by omega),
          show i - 24 < 32 by omega]

theorem ofLe_eq_iff (b0 b1 b2 b3 : Byte) (v : Word) : ofLe b0 b1 b2 b3 = v ↔ [b0, b1, b2, b3] = leBytes v := by
  simp only [leBytes, List.cons.injEq, and_true]
  constructor
  · rintro rfl
    refine ⟨?_, ?_, ?_, ?_⟩ <;>
      (apply BitVec.eq_of_getLsbD_eq
       intro i hi
       rw [BitVec.getLsbD_extractLsb', getLsbD_ofLe _ _ _ _ (by omega)])
    · simp [hi]
    · simp [hi, show ¬ 8 + i < 8 by omega, show 8 + i < 16 by omega]
    · simp [hi, show ¬ 16 + i < 8 by omega, show ¬ 16 + i < 16 by omega, show 16 + i < 24 by omega]
    · simp [hi, show ¬ 24 + i < 8 by omega, show ¬ 24 + i < 16 by omega, show ¬ 24 + i < 24 by omega]
  · rintro ⟨rfl, rfl, rfl, rfl⟩
    apply BitVec.eq_of_getLsbD_eq
    intro i hi
    rw [getLsbD_ofLe _ _ _ _ hi]
    simp only [BitVec.getLsbD_extractLsb']
    by_cases h8 : i < 8
    · simp [h8]
    · by_cases h16 : i < 16
      · simp [h8, h16, show i - 8 < 8 by omega, show 8 + (i - 8) = i by omega]
      · by_cases h24 : i < 24
        · simp [h8, h16, h24, show i - 16 < 8 by omega, show 16 + (i - 16) = i by omega]
        · simp [h8, h16, h24, show i - 24 < 8 by omega, show 24 + (i - 24) = i by omega]

/-- The received trailer of a subpacket equals the computed check (43_subpacket R149). -/
theorem spkCheckOk_iff (s : State) : spkCheckOk s = true ↔
    if s.rxc32 then [s.tbuf[0], s.tbuf[1], s.tbuf[2], s.tbuf[3]] = leBytes (~~~ s.crc32)
    else [s.tbuf[0], s.tbuf[1]] = beBytes s.crc16 := by
  unfold spkCheckOk
  split <;> simp only [beq_iff_eq, ofLe_eq_iff, ofBe_eq_iff]

/-- The received trailer of a header equals the computed check (42_header R129). -/
theorem hdrCheckOk_iff (s : State) : hdrCheckOk s = true ↔
    if s.rxc32 then [s.hbuf[5], s.hbuf[6], s.hbuf[7], s.hbuf[8]] = leBytes (~~~ s.crc32)
    else [s.hbuf[5], s.hbuf[6]] = beBytes s.crc16 := by
  unfold hdrCheckOk
  split <;> simp only [beq_iff_eq, ofLe_eq_iff, ofBe_eq_iff]

/-! ### The handler that takes an RX byte (20_memory R48, 42_header R124, R125) -/

theorem hdrRxEvent_of_raw (h : hdrRaw s = true) (h5 : cancelRun s.cancnt w ≠ 5) :
    hdrRxEvent (.byte w) s = hdrRawByte w (s.countCancel w) := (if_pos h).trans (if_neg h5)

theorem hdrRxEvent_of_fifth (h : hdrRaw s = true) (h5 : cancelRun s.cancnt w = 5) :
    hdrRxEvent (.byte w) s = .next ((s.countCancel w).failWith .abort .none) := (if_pos h).trans (if_pos h5)

theorem hdrRxEvent_of_binary (hp : s.phase = phaseBody) (he : s.rxenc ≠ .hex) :
    hdrRxEvent (.byte w) s = hdrBinBody w s :=
  (if_neg (by simp [hdrRaw, hp, he, phaseHunt, phasePad, phaseFmt, phaseBody])).trans (if_pos hp)

/-! ### SPK.RX (R147 to R151) -/

theorem spkData_of_full (b : Byte) (h : s.idx = s.rxmax) : spkData b s = .next (s.finish .overrun .none 0) := if_pos h

theorem spkData_of_room (b : Byte) (h : s.idx ≠ s.rxmax) (ha : s.idx.toNat < s.size) : spkData b s =
    .next { { s with pbuf := s.pbuf.write s.idx.toNat b }.foldCheck s.rxc32 b with
      idx := s.idx + 1, rxlen := s.idx + 1 } := by
  rw [spkData, if_neg h, State.storePbuf_of_lt _ _ ha]

/-- The state of SPK.RX after a trailer byte, before the comparison (R149). -/
def spkAfterTrailerByte (s : State) (hj : s.tidx.toNat < 4) (b : Byte) : State :=
  { s with tbuf := s.tbuf.set s.tidx.toNat b, tidx := s.tidx + 1 }

theorem spkTrail_eq (b : Byte) (hj : s.tidx.toNat < 4) : spkTrail b s =
    .next (if s.tidx + 1 = (if s.rxc32 then 4 else 2)
      then (spkAfterTrailerByte s hj b).finishCheck (spkCheckOk (spkAfterTrailerByte s hj b))
      else spkAfterTrailerByte s hj b) := by
  rw [spkTrail, State.storeTbuf_of_lt _ _ hj]
  rfl

/-! ### HDR.RX, the body (R127, R130) -/

theorem hdrBinByte_eq (b : Byte) (hj : s.idx.toNat < 9) : hdrBinByte b s =
    .next (if s.idx + 1 = (if s.rxc32 then 9 else 7) then hdrFinish (hdrAfterBodyByte s hj b)
      else hdrAfterBodyByte s hj b) := by
  rw [hdrBinByte, State.storeHbuf_of_lt _ _ hj]
  rfl

theorem hdrHexDigit_high (d : BitVec 4) (hi : s.idx.toNat % 2 = 0) (hj : s.idx.toNat / 2 < 9) : hdrHexDigit d s =
    .next { s with hbuf := s.hbuf.set (s.idx.toNat / 2) (d.setWidth 8 <<< 4), idx := s.idx + 1 } := by
  rw [hdrHexDigit, getLsbD_zero_eq]
  simp only [hi, Nat.zero_ne_one, decide_false, Bool.false_eq_true, if_false]
  rw [State.storeHbuf_of_lt _ _ hj]

theorem hdrHexDigit_low (d : BitVec 4) (hi : s.idx.toNat % 2 = 1) (hj : s.idx.toNat / 2 < 9) : hdrHexDigit d s =
    .next (if s.idx + 1 = 14
      then hdrFinish (hdrAfterLowDigit s (s.idx.toNat / 2) hj (s.hbuf[s.idx.toNat / 2] ||| d.setWidth 8))
      else hdrAfterLowDigit s (s.idx.toNat / 2) hj (s.hbuf[s.idx.toNat / 2] ||| d.setWidth 8)) := by
  have hb : s.hbuf.toList.getD (s.idx.toNat / 2) 0 = s.hbuf[s.idx.toNat / 2] := by
    simp [List.getD_eq_getElem?_getD, hj]
  rw [hdrHexDigit, getLsbD_zero_eq]
  simp only [hi, decide_true, if_true, hb]
  rw [State.storeHbuf_of_lt _ _ hj]
  rfl

/-! ### Where an active command stands -/

theorem State.Inv.inHdr (h : s.Inv) (m : s.rxmode = .hdr) : s.phase.toNat ≤ 3
    ∧ (s.phase = phaseBody → s.rxc32 = (s.rxenc == .bin32) ∧ s.idx.toNat < bodyLength s.rxenc) := by
  have := h.position
  unfold State.Position at this
  rwa [m] at this

theorem State.Inv.inSpk (h : s.Inv) (m : s.rxmode = .spk) : s.phase.toNat ≤ 1 ∧ s.rxlen = s.idx
    ∧ s.idx.toNat ≤ s.rxmax.toNat ∧ s.rxmax.toNat ≤ s.pbufSize.bytes
    ∧ (s.phase = phaseSpkTrail → s.tidx.toNat < if s.rxc32 then 4 else 2) := by
  have := h.position
  unfold State.Position at this
  rwa [m] at this

theorem State.Inv.inXbk (h : s.Inv) (m : s.rxmode = .xbk) : s.phase.toNat ≤ 4 ∧ s.rxlen = s.idx
    ∧ (s.phase.toNat < 3 → s.idx = 0) ∧ (s.phase = phaseXbkData → s.idx.toNat < 128)
    ∧ (s.phase = phaseXbkTrail → s.idx = 128 ∧ s.tidx.toNat < 2) := by
  have := h.position
  unfold State.Position at this
  rwa [m] at this

end Sys2Proof.Machine
end

