-- ==== Sys2Proof/Laws/PerInstr.lean ====
section
/-! SUPPORT. Facts stated per instruction. EncodeRow: of the rows of the opcode map (30_encoding R63), exactly the one with the
command's mnemonic selects the word encode gives it. -/

namespace Sys2Proof

def Laws.EncodeRow.Statement (i : Instr) : Prop :=
  ∀ r ∈ opcodeMap, r.selects (encode i) = decide (r.mnemonic = i.mnemonic)

/-- The statement, field by field, over the rows one after another. -/
theorem Laws.EncodeRow.statement_of_fields {i : Instr} {op a : Byte} {n : Half} (he : encode i = wordOf op a n)
    (h : ∀ r ∈ opcodeMap, (op &&& opField r.mask = opField r.pattern ∧ a &&& aField r.mask = aField r.pattern
      ∧ n &&& nField r.mask = nField r.pattern) ↔ r.mnemonic = i.mnemonic) : Laws.EncodeRow.Statement i := by
  intro r hr
  rw [Bool.eq_iff_iff, OpcodeRow.selects_iff, he, opField_wordOf, aField_wordOf, nField_wordOf, decide_eq_true_iff]
  exact h r hr

theorem Laws.EncodeRow.rst : Laws.EncodeRow.Statement .rst := by unfold Statement; decide
theorem Laws.EncodeRow.crc16Init : Laws.EncodeRow.Statement .crc16Init := by unfold Statement; decide
theorem Laws.EncodeRow.crc16Upd (byte : Byte) : Laws.EncodeRow.Statement (.crc16Upd byte) := by
  refine statement_of_fields rfl ?_
  simp [opcodeMap, opcodeMapSysCsu, opcodeMapFraming, opField, aField, nField, Instr.mnemonic]
theorem Laws.EncodeRow.crc16Fin : Laws.EncodeRow.Statement .crc16Fin := by unfold Statement; decide
theorem Laws.EncodeRow.crc32Init : Laws.EncodeRow.Statement .crc32Init := by unfold Statement; decide
theorem Laws.EncodeRow.crc32Upd (byte : Byte) : Laws.EncodeRow.Statement (.crc32Upd byte) := by
  refine statement_of_fields rfl ?_
  simp [opcodeMap, opcodeMapSysCsu, opcodeMapFraming, opField, aField, nField, Instr.mnemonic]
theorem Laws.EncodeRow.crc32Fin : Laws.EncodeRow.Statement .crc32Fin := by unfold Statement; decide
theorem Laws.EncodeRow.sum8Init : Laws.EncodeRow.Statement .sum8Init := by unfold Statement; decide
theorem Laws.EncodeRow.sum8Upd (byte : Byte) : Laws.EncodeRow.Statement (.sum8Upd byte) := by
  refine statement_of_fields rfl ?_
  simp [opcodeMap, opcodeMapSysCsu, opcodeMapFraming, opField, aField, nField, Instr.mnemonic]
theorem Laws.EncodeRow.escRst : Laws.EncodeRow.Statement .escRst := by unfold Statement; decide
theorem Laws.EncodeRow.escEnc (byte : Byte) : Laws.EncodeRow.Statement (.escEnc byte) := by
  refine statement_of_fields rfl ?_
  simp [opcodeMap, opcodeMapSysCsu, opcodeMapFraming, opField, aField, nField, Instr.mnemonic]
theorem Laws.EncodeRow.escDec (byte : Byte) : Laws.EncodeRow.Statement (.escDec byte) := by
  refine statement_of_fields rfl ?_
  simp [opcodeMap, opcodeMapSysCsu, opcodeMapFraming, opField, aField, nField, Instr.mnemonic]
theorem Laws.EncodeRow.hdrTx (enc : HdrEnc) : Laws.EncodeRow.Statement (.hdrTx enc) := by
  unfold Statement
  cases enc <;> decide
theorem Laws.EncodeRow.hdrRx : Laws.EncodeRow.Statement .hdrRx := by unfold Statement; decide
theorem Laws.EncodeRow.spkTx (enc : HdrEnc) (fe : FrameEnd) (len : Nat) :
    Laws.EncodeRow.Statement (.spkTx enc fe len) := by
  refine statement_of_fields rfl ?_
  cases enc <;> cases fe <;>
    simp [opcodeMap, opcodeMapSysCsu, opcodeMapFraming, opField, aField, nField, Instr.mnemonic, HdrEnc.code,
      FrameEnd.code]
theorem Laws.EncodeRow.spkRx (maxlen : Nat) : Laws.EncodeRow.Statement (.spkRx maxlen) := by
  refine statement_of_fields rfl ?_
  simp [opcodeMap, opcodeMapSysCsu, opcodeMapFraming, opField, aField, nField, Instr.mnemonic]
theorem Laws.EncodeRow.xbkTx (mode : CheckMode) (len : Nat) : Laws.EncodeRow.Statement (.xbkTx mode len) := by
  refine statement_of_fields rfl ?_
  cases mode <;>
    simp [opcodeMap, opcodeMapSysCsu, opcodeMapFraming, opField, aField, nField, Instr.mnemonic, CheckMode.code]
theorem Laws.EncodeRow.xbkRx (mode : CheckMode) : Laws.EncodeRow.Statement (.xbkRx mode) := by
  unfold Statement
  cases mode <;> decide

end Sys2Proof
end

