-- ==== Sys2Proof/Tests/Slice0.lean ====
section
/-! SUPPORT. The model's own tests: the smoke test of WellFormed, one command word per constructor written out bit by bit from
30_encoding R60 to R65, one-step tests whose expected values stand in 95_test_vectors, and for each statement with hypotheses
a state and operands that meet them. -/

namespace Sys2Proof.Tests

set_option Elab.async false

open Sys2Proof.Machine

/-! ### Helpers -/

/-- The answer is a next state with the property. -/
def gives (r : Result) (p : State → Bool) : Bool :=
  match r with
  | .next t => p t
  | _ => false

theorem exists_of_gives {r : Result} {p : State → Bool} (h : gives r p = true) : ∃ t, r = .next t ∧ p t = true := by
  cases r with
  | next t => exact ⟨t, rfl, h⟩
  | fault _ => cases h
  | refused _ => cases h

/-- The answer is this refusal. -/
def refusedAs (r : Result) (why : Refusal) : Bool :=
  match r with
  | .refused w => w == why
  | _ => false

/-- What the registers read. -/
def reads (s : State) (expected : List (Nat × Word)) : Bool := expected.all fun p => s.regValue p.1 == p.2

/-- Bytes stored from address 0. -/
def stored (bs : List Byte) : Memory := bs.zipIdx.map fun p => (p.2, p.1)

/-- HDR.RX before the last digit of vector H6, or at an earlier digit. -/
def inHexBody (idx : Half) : State :=
  { State.reset with
    rxmode := .hdr, phase := 3, rxenc := .hex, idx := idx, crc16 := 0x022D
    hbuf := #v[0x08, 0, 0, 0, 0, 0x02, 0x20, 0, 0] }

/-- HDR.RX before the last byte of vector H10. -/
def inBin32Body : State :=
  { State.reset with
    rxmode := .hdr, phase := 3, rxenc := .bin32, rxc32 := true, idx := 8, crc32 := 0x23163E09
    hbuf := #v[0x0B, 0x10, 0x27, 0, 0, 0xF6, 0xC1, 0xE9, 0] }

/-- HDR.RX before byte `idx` of vector H9, the body and the first check byte in place. -/
def inBin16Body (idx : Half) : State :=
  { State.reset with
    rxmode := .hdr, phase := 3, rxenc := .bin16, idx := idx, crc16 := 0xF40E
    hbuf := #v[0x0B, 0x10, 0x27, 0, 0, 0xF4, 0, 0, 0] }

/-- HDR.RX in a raw phase. -/
def hunting (phase cancnt : BitVec 3) : State := { State.reset with rxmode := .hdr, phase := phase, cancnt := cancnt }

/-- SPK.RX in phase DATA after `41`, as in vectors S20 to S25. -/
def inPayload (rxmax : Half) : State :=
  { State.reset with
    rxmode := .spk, rxmax := rxmax, idx := 1, rxlen := 1, pbuf := stored [0x41], crc16 := 0x58E5 }

/-- SPK.RX in the trailer of vector S23, `tidx` bytes of it received. -/
def inTrailer (tidx : BitVec 3) : State :=
  { inPayload 16 with phase := 1, fe := .crcg, crc16 := 0xC372, tidx := tidx, tbuf := #v[0xC3, 0, 0, 0] }

/-- XBK.RX in a phase before the payload. -/
def atBlockStart (phase cancnt : BitVec 3) : State :=
  { State.reset with rxmode := .xbk, phase := phase, cancnt := cancnt, xrblk := 0x02 }

/-- XBK.RX with `idx` payload bytes 00 received, the sum mode. -/
def inBlock (idx : Nat) : State :=
  { State.reset with
    rxmode := .xbk, phase := 3, xrblk := 0x01, idx := BitVec.ofNat 16 idx, rxlen := BitVec.ofNat 16 idx
    pbuf := stored (List.replicate idx 0) }

/-- XBK.RX in the trailer of a payload of 128 bytes 00. -/
def atBlockTrailer (mode : CheckMode) (tidx : BitVec 3) : State :=
  { inBlock 128 with phase := 4, xmode := mode, tidx := tidx }

/-! ### WellFormed: each check refuses an ill-formed term -/

theorem test_illformed_spkTx_len : (Instr.spkTx .bin16 .crce 65536).wf = false := by decide
theorem test_illformed_spkRx_maxlen : (Instr.spkRx 65536).wf = false := by decide
theorem test_illformed_xbkTx_len : (Instr.xbkTx .crc 65536).wf = false := by decide
theorem test_wellformed_boundary :
    ([.spkTx .reserved .crcw 65535, .spkRx 65535, .xbkTx .sum 65535, .hdrTx .reserved] : List Instr).all Instr.wf = true := by
  decide

/-! ### Decoding: words written out field by field (op, a, n) -/

theorem test_decode_rst : decode (0b00000001_00000000_0000000000000000) = .ok .rst := by decide
theorem test_decode_crc16Init : decode (0b00010000_00000000_0000000000000000) = .ok .crc16Init := by decide
theorem test_decode_crc16Upd : decode (0b00010001_00110001_0000000000000000) = .ok (.crc16Upd 0x31) := by decide
theorem test_decode_crc16Fin : decode (0b00010010_00000000_0000000000000000) = .ok .crc16Fin := by decide
theorem test_decode_crc32Init : decode (0b00010100_00000000_0000000000000000) = .ok .crc32Init := by decide
theorem test_decode_crc32Upd : decode (0b00010101_10011010_0000000000000000) = .ok (.crc32Upd 0x9A) := by decide
theorem test_decode_crc32Fin : decode (0b00010110_00000000_0000000000000000) = .ok .crc32Fin := by decide
theorem test_decode_sum8Init : decode (0b00011000_00000000_0000000000000000) = .ok .sum8Init := by decide
theorem test_decode_sum8Upd : decode (0b00011001_00000001_0000000000000000) = .ok (.sum8Upd 0x01) := by decide
theorem test_decode_escRst : decode (0b00100000_00000000_0000000000000000) = .ok .escRst := by decide
theorem test_decode_escEnc : decode (0b00100001_00011000_0000000000000000) = .ok (.escEnc 0x18) := by decide
theorem test_decode_escDec : decode (0b00100010_01101011_0000000000000000) = .ok (.escDec 0x6B) := by decide
theorem test_decode_hdrTx : decode (0b00110000_000000_10_0000000000000000) = .ok (.hdrTx .bin32) := by decide
theorem test_decode_hdrRx : decode (0b00110001_00000000_0000000000000000) = .ok .hdrRx := by decide
theorem test_decode_spkTx : decode (0b01000000_0000_11_01_0000000000000101) = .ok (.spkTx .hex .crcw 5) := by decide
theorem test_decode_spkRx : decode (0b01000001_00000000_0000010000000000) = .ok (.spkRx 1024) := by decide
theorem test_decode_xbkTx : decode (0b01010000_0000000_1_0000000000101100) = .ok (.xbkTx .crc 44) := by decide
theorem test_decode_xbkRx : decode (0b01010001_0000000_1_0000000000000000) = .ok (.xbkRx .crc) := by decide

/-- The words of vector Y4 are refused, by name. -/
theorem test_decode_refuses :
    [0x00000000#32, 0xFFFFFFFF#32, 0x02000000#32, 0x13000000#32, 0x17000000#32].map decode
        = [0x00, 0xFF, 0x02, 0x13, 0x17].map (fun op => .error (.noSuchOpcode op))
      ∧ [0x01000001#32, 0x10000001#32, 0x10010000#32, 0x11310001#32, 0x12FF0000#32, 0x30040000#32, 0x31000001#32,
          0x40100000#32, 0x41010400#32, 0x50020000#32, 0x51000001#32, 0x51020000#32].map decode
        = [0x01, 0x10, 0x10, 0x11, 0x12, 0x30, 0x31, 0x40, 0x41, 0x50, 0x51, 0x51].map
            (fun op => .error (.reservedBitSet op)) := by decide

/-- No two rows of the opcode map overlap. -/
theorem test_opcode_rows_disjoint :
    opcodeMap.Pairwise (fun r r' => r.pattern &&& (r.mask &&& r'.mask) ≠ r'.pattern &&& (r.mask &&& r'.mask)) := by decide

/-- The spellings of R66. -/
theorem test_asm :
    ([.crc16Upd 0x31, .hdrTx .hex, .spkTx .bin16 .crcw 5, .spkTx .bin32 .crcg 9, .spkRx 1024, .xbkTx .crc 5, .xbkRx .sum,
      .rst] : List Instr).map Instr.asm
      = ["CRC16.UPD 0x31", "HDR.TX HEX", "SPK.TX BIN16, W, 5", "SPK.TX BIN32, G, 9", "SPK.RX 1024", "XBK.TX CRC, 5",
        "XBK.RX SUM", "RST"] := by decide +kernel

/-! ### One step each (95_test_vectors) -/

/-- Y3: RST while HDR.RX is active. -/
theorem test_rst :
    gives (portStep (.cmd 0x01000000)
        { hunting 2 1 with lasttx := 0x41, txq := [0x41, 0x41], tmo := 5, crc32 := 0, pbuf := stored [0x77] })
      (fun t => reads t [(1, 1), (2, 0), (4, 0xFFFFFFFF), (9, 0), (13, 0), (14, 0)] && t.txq == [] && t.pbuf == stored [0x77])
      = true := by decide +kernel

/-- K1. -/
theorem test_crc16Init :
    gives (exec .crc16Init { State.reset with crc16 := 0x1234, res := 7 }) (reads · [(1, 1), (2, 0), (3, 0)]) = true := by decide +kernel

/-- `crc16_step(1234, 56) = 3C40`. -/
theorem test_crc16Upd :
    gives (exec (.crc16Upd 0x56) { State.reset with crc16 := 0x1234 }) (reads · [(1, 1), (2, 0x3C40), (3, 0x3C40)]) = true := by decide +kernel

/-- P1: FIN does not change the register. -/
theorem test_crc16Fin :
    gives (exec .crc16Fin { State.reset with crc16 := 0x31C3 }) (reads · [(1, 1), (2, 0x31C3), (3, 0x31C3)]) = true := by decide +kernel

/-- K1. -/
theorem test_crc32Init :
    gives (exec .crc32Init { State.reset with crc32 := 0 }) (reads · [(1, 1), (2, 0), (4, 0xFFFFFFFF)]) = true := by decide +kernel

/-- `crc32_step(12345678, 9A) = 4E16B702`. -/
theorem test_crc32Upd :
    gives (exec (.crc32Upd 0x9A) { State.reset with crc32 := 0x12345678 }) (reads · [(1, 1), (2, 0x4E16B702), (4, 0x4E16B702)])
      = true := by decide +kernel

/-- K17: inverted in RES, not in the register. -/
theorem test_crc32Fin :
    gives (exec .crc32Fin { State.reset with crc32 := 0x340BC6D9 }) (reads · [(1, 1), (2, 0xCBF43926), (4, 0x340BC6D9)])
      = true := by decide +kernel

/-- K1. -/
theorem test_sum8Init :
    gives (exec .sum8Init { State.reset with sum8 := 9 }) (reads · [(1, 1), (2, 0), (5, 0)]) = true := by decide +kernel

/-- K18: the sum wraps. -/
theorem test_sum8Upd :
    gives (exec (.sum8Upd 0x01) { State.reset with sum8 := 0xFF }) (reads · [(1, 1), (2, 0), (5, 0)]) = true := by decide +kernel

/-- K7: the check values of "123456789". -/
theorem test_check_values :
    (crc16Of [0x31, 0x32, 0x33, 0x34, 0x35, 0x36, 0x37, 0x38, 0x39], crc32Of [0x31, 0x32, 0x33, 0x34, 0x35, 0x36, 0x37, 0x38, 0x39],
      sum8Of [0x31, 0x32, 0x33, 0x34, 0x35, 0x36, 0x37, 0x38, 0x39]) = (0x31C3, 0xCBF43926, 0xDD) := by decide +kernel

/-- E6. -/
theorem test_escRst :
    gives (exec .escRst { State.reset with escp := true, cancnt := 3, lasttx := 0x40 }) (reads · [(1, 1), (2, 0), (9, 0)]) = true := by decide +kernel

/-- E1: CR after a wire byte C0. -/
theorem test_escEnc_cr_after_at :
    gives (exec (.escEnc 0x0D) { State.reset with lasttx := 0xC0 })
      (fun t => t.txq == [0x18, 0x4D] && reads t [(2, 0x00024D18), (9, 0x4D00)]) = true := by decide +kernel

/-- E1 and E2: 8D after 41 is escaped only under CTLESC. -/
theorem test_escEnc_all_controls :
    (gives (exec (.escEnc 0x8D) { State.reset with lasttx := 0x41 }) (fun t => t.txq == [0x8D] && reads t [(2, 0x0001008D)])
      && gives (exec (.escEnc 0x8D) { State.reset with lasttx := 0x41, ctlesc := true })
          (fun t => t.txq == [0x18, 0xCD] && reads t [(2, 0x0002CD18)])) = true := by decide +kernel

/-- E3: the second bytes of a pair. -/
theorem test_escDec_second_bytes :
    [0x58#8, 0x6B#8, 0x6C#8, 0x6D#8, 0xE8#8, 0x40#8, 0x18#8].map
        (fun w => (escEvent true (cancelRun 1 w) w).report)
      = [0x018#32, 0x26B#32, 0x07F#32, 0x0FF#32, 0x4E8#32, 0x000#32, 0x100#32] := by decide +kernel

/-- E5: the fifth cancel byte aborts and clears ESCP. -/
theorem test_escDec_fifth_cancel :
    gives (exec (.escDec 0x18) { State.reset with escp := true, cancnt := 4 }) (reads · [(1, 1), (2, 0x300), (9, 0x50)])
      = true := by decide +kernel

/-- H5. -/
theorem test_hdrTx_hex :
    gives (exec (.hdrTx .hex) { State.reset with htype := 0x09, hval := 0x12345678 })
      (fun t => t.txq == [0x2A, 0x2A, 0x18, 0x42, 0x30, 0x39, 0x37, 0x38, 0x35, 0x36, 0x33, 0x34, 0x31, 0x32, 0x37, 0x38,
        0x38, 0x36, 0x0D, 0x0A] && reads t [(1, 1), (2, 20), (3, 0x7886), (9, 0)]) = true := by decide +kernel

/-- H13. -/
theorem test_hdrTx_bin32 :
    gives (exec (.hdrTx .bin32) { State.reset with htype := 0x03, hval := 0x1811 })
      (fun t => t.txq == [0x2A, 0x18, 0x43, 0x03, 0x18, 0x51, 0x18, 0x58, 0, 0, 0xFF, 0x4F, 0x12, 0x7B]
        && reads t [(1, 1), (2, 14), (3, 0), (4, 0x84EDB000), (9, 0x7B00)]) = true := by decide +kernel

/-- P2: on acceptance. -/
theorem test_hdrRx_accepted :
    gives (exec .hdrRx { State.reset with outcome := .ok }) (reads · [(1, 0x100), (13, 1)]) = true := by decide +kernel

/-- H18: the last digit of H6; with 65 for 64 it is H25. Then the last byte of H10 and H9 (H23, H30), and H31 and H32. -/
theorem test_hdrRx_body_bytes :
    (gives (portStep (.rx (.byte 0x64)) (inHexBody 13)) (reads · [(1, 1), (2, 0), (6, 8), (7, 0), (8, 1), (13, 0x08000E30)])
      && gives (portStep (.rx (.byte 0x65)) (inHexBody 13)) (reads · [(1, 0x13), (6, 0), (8, 0), (13, 0x08000E30)])
      && gives (portStep (.rx (.byte 0xDC)) inBin32Body) (reads · [(1, 1), (6, 0x0B), (7, 0x2710), (8, 2), (13, 0x10000930)])
      && gives (portStep (.rx (.byte 0x0F)) (inBin16Body 6)) (reads · [(1, 0x13), (6, 0), (8, 0), (13, 0x00000730)])
      && gives (portStep (.rx (.byte 0x68)) { inBin16Body 1 with escp := true }) (reads · [(1, 0x33), (13, 0x00000130)])
      && gives (portStep (.rx (.byte 0x30)) { inBin16Body 1 with escp := true }) (reads · [(1, 0x23), (13, 0x00000130)])) = true := by decide +kernel

/-- S11: the carry-over of LASTTX. -/
theorem test_spkTx_crc_escaped :
    gives (exec (.spkTx .bin16 .crce 1) { State.reset with lasttx := 0x40, pbuf := stored [0x0D] })
      (fun t => t.txq == [0x18, 0x4D, 0x18, 0x68, 0x9B, 0xF2] && reads t [(1, 1), (2, 6), (3, 0x9BF2), (9, 0xF200)]) = true := by decide +kernel

/-- S5: an empty subpacket with a 32-bit check, one byte of it escaped. -/
theorem test_spkTx_32_bit :
    gives (exec (.spkTx .bin32 .crce 0) State.reset)
      (fun t => t.txq == [0x18, 0x68, 0xE7, 0x06, 0x6B, 0x18, 0xD1] && reads t [(1, 1), (2, 7), (3, 0), (4, 0x6E94F918)])
      = true := by decide +kernel

/-- S30, S31. -/
theorem test_spkRx_refused_operand :
    (gives (exec (.spkRx 16) { State.reset with henc := .reserved }) (reads · [(1, 8), (2, 0), (13, 0)])
      && gives (exec (.spkRx 1025) State.reset) (reads · [(1, 8), (2, 0), (13, 0)])) = true := by decide +kernel

/-- S22, S23: the last trailer byte. -/
theorem test_spkRx_trailer :
    (gives (portStep (.rx (.byte 0x72)) (inTrailer 1)) (reads · [(1, 0x201), (12, 1), (13, 0x02000110)])
      && gives (portStep (.rx (.byte 0x73)) (inTrailer 1)) (reads · [(1, 0x213), (3, 0xC372)])) = true := by decide +kernel

/-- X1. -/
theorem test_xbkTx_sum :
    gives (exec (.xbkTx .sum 5)
        { State.reset with xblk := 1, pbuf := stored [0x48, 0x65, 0x6C, 0x6C, 0x6F, 0xEE] })
      (fun t => t.txq == [0x01, 0x01, 0xFE, 0x48, 0x65, 0x6C, 0x6C, 0x6F] ++ List.replicate 123 0 ++ [0xF4]
        && reads t [(1, 1), (2, 132), (5, 0xF4)]) = true := by decide +kernel

/-- X2: the bytes before the trailer and the count. -/
theorem test_xbkTx_crc :
    gives (exec (.xbkTx .crc 5) { State.reset with xblk := 1, pbuf := stored [0x48, 0x65, 0x6C, 0x6C, 0x6F] })
      (fun t => t.txq.take 9 == [0x01, 0x01, 0xFE, 0x48, 0x65, 0x6C, 0x6C, 0x6F, 0x00] && reads t [(1, 1), (2, 133)]) = true := by decide +kernel

/-- X8, X9, X15: the first byte. -/
theorem test_xbkRx_start :
    (gives (portStep (.rx (.byte 0x04)) (atBlockStart 0 0)) (reads · [(1, 6), (12, 0)])
      && gives (portStep (.rx (.byte 0x43)) (atBlockStart 0 0)) (reads · [(1, 0x53)])
      && gives (portStep (.rx (.byte 0x18)) (atBlockStart 0 4)) (reads · [(1, 5)])) = true := by decide +kernel

/-- X11, X12. -/
theorem test_xbkRx_complement :
    (gives (portStep (.rx (.byte 0xFD)) (atBlockStart 2 0)) (reads · [(1, 0x100), (11, 2), (13, 0x33)])
      && gives (portStep (.rx (.byte 0xFC)) (atBlockStart 2 0)) (reads · [(1, 0x63), (11, 2), (13, 0x20)])) = true := by decide +kernel

/-- Y2: ESCST, with CANCNT clamped. -/
theorem test_register_write :
    gives (portStep (.regWrite 9 0xFFFFFFFF) State.reset) (reads · [(9, 0xFF51), (1, 0), (2, 0)]) = true := by decide +kernel

/-- Y6. -/
theorem test_busy_refusals :
    (refusedAs (portStep (.regWrite 3 0) (hunting 0 0)) .registerWriteWhileBusy
      && refusedAs (portStep (.bufRead 0) (hunting 0 0)) .bufferAccessWhileBusy
      && refusedAs (portStep (.bufWrite 0 0) (hunting 0 0)) .bufferAccessWhileBusy
      && refusedAs (portStep (.cmd 0x10000000) (hunting 0 0)) .commandWhileBusy
      && refusedAs (portStep (.rx .timeout) State.reset) .rxWhileIdle) = true := by decide +kernel

/-- The interface: the presented word runs as the first instruction after reset. -/
theorem test_fetch :
    decodeTableWord 32 0x21180000 = some (.escEnc 0x18)
      ∧ gives (step (State.reset.withFetchWord 32 0x21180000)) (fun t => t.txq == [0x18, 0x58] && t.agenda == []) = true := by decide +kernel
/-! ### Witnesses: the invariants of the states above, at the ends of the ranges of their counters -/

theorem inHexBody_inv : (inHexBody 0).Inv ∧ (inHexBody 1).Inv ∧ (inHexBody 12).Inv ∧ (inHexBody 13).Inv := by
  refine ⟨⟨?_, ?_, ?_, ?_, ?_, ?_, ?_, ⟨?_, ?_⟩⟩,
    ⟨?_, ?_, ?_, ?_, ?_, ?_, ?_, ⟨?_, ?_⟩⟩,
    ⟨?_, ?_, ?_, ?_, ?_, ?_, ?_, ⟨?_, ?_⟩⟩,
    ⟨?_, ?_, ?_, ?_, ?_, ?_, ?_, ⟨?_, ?_⟩⟩⟩ <;>
    decide +kernel

theorem inBin32Body_inv : (inBin32Body).Inv ∧ ({ inBin32Body with escp := true }).Inv ∧ ({ inBin32Body with cancnt := 4 }).Inv := by
  refine ⟨⟨?_, ?_, ?_, ?_, ?_, ?_, ?_, ⟨?_, ?_⟩⟩,
    ⟨?_, ?_, ?_, ?_, ?_, ?_, ?_, ⟨?_, ?_⟩⟩,
    ⟨?_, ?_, ?_, ?_, ?_, ?_, ?_, ⟨?_, ?_⟩⟩⟩ <;>
    decide +kernel

theorem inBin16Body_inv : (inBin16Body 0).Inv ∧ (inBin16Body 4).Inv ∧ (inBin16Body 5).Inv ∧ (inBin16Body 6).Inv := by
  refine ⟨⟨?_, ?_, ?_, ?_, ?_, ?_, ?_, ⟨?_, ?_⟩⟩,
    ⟨?_, ?_, ?_, ?_, ?_, ?_, ?_, ⟨?_, ?_⟩⟩,
    ⟨?_, ?_, ?_, ?_, ?_, ?_, ?_, ⟨?_, ?_⟩⟩,
    ⟨?_, ?_, ?_, ?_, ?_, ?_, ?_, ⟨?_, ?_⟩⟩⟩ <;>
    decide +kernel

theorem hunting_inv : (hunting 0 0).Inv ∧ (hunting 0 4).Inv ∧ (hunting 0 5).Inv := by
  refine ⟨⟨?_, ?_, ?_, ?_, ?_, ?_, ?_, ⟨?_, ?_⟩⟩,
    ⟨?_, ?_, ?_, ?_, ?_, ?_, ?_, ⟨?_, ?_⟩⟩,
    ⟨?_, ?_, ?_, ?_, ?_, ?_, ?_, ⟨?_, ?_⟩⟩⟩ <;>
    decide +kernel

theorem inPayload_inv : (inPayload 1).Inv ∧ (inPayload 2).Inv ∧ ({ inPayload 2 with escp := true }).Inv ∧ ({ inPayload 2 with cancnt := 4 }).Inv := by
  refine ⟨⟨?_, ?_, ?_, ?_, ?_, ?_, ?_, ⟨?_, rfl, ?_, ?_, ?_⟩⟩,
    ⟨?_, ?_, ?_, ?_, ?_, ?_, ?_, ⟨?_, rfl, ?_, ?_, ?_⟩⟩,
    ⟨?_, ?_, ?_, ?_, ?_, ?_, ?_, ⟨?_, rfl, ?_, ?_, ?_⟩⟩,
    ⟨?_, ?_, ?_, ?_, ?_, ?_, ?_, ⟨?_, rfl, ?_, ?_, ?_⟩⟩⟩ <;>
    decide +kernel

theorem inTrailer_inv : (inTrailer 0).Inv ∧ (inTrailer 1).Inv ∧ ({ inTrailer 1 with escp := true }).Inv ∧ ({ inTrailer 1 with agenda := [.rx (.byte 0x72)] }).Inv ∧ ({ inTrailer 1 with cancnt := 5 }).Inv := by
  refine ⟨⟨?_, ?_, ?_, ?_, ?_, ?_, ?_, ⟨?_, rfl, ?_, ?_, ?_⟩⟩,
    ⟨?_, ?_, ?_, ?_, ?_, ?_, ?_, ⟨?_, rfl, ?_, ?_, ?_⟩⟩,
    ⟨?_, ?_, ?_, ?_, ?_, ?_, ?_, ⟨?_, rfl, ?_, ?_, ?_⟩⟩,
    ⟨?_, ?_, ?_, ?_, ?_, ?_, ?_, ⟨?_, rfl, ?_, ?_, ?_⟩⟩,
    ⟨?_, ?_, ?_, ?_, ?_, ?_, ?_, ⟨?_, rfl, ?_, ?_, ?_⟩⟩⟩ <;>
    decide +kernel

theorem atBlockStart_inv : (atBlockStart 0 0).Inv ∧ (atBlockStart 0 4).Inv := by
  refine ⟨⟨?_, ?_, ?_, ?_, ?_, ?_, ?_, ⟨?_, rfl, ?_, ?_, ?_⟩⟩,
    ⟨?_, ?_, ?_, ?_, ?_, ?_, ?_, ⟨?_, rfl, ?_, ?_, ?_⟩⟩⟩ <;>
    decide +kernel

theorem inBlock_inv : (inBlock 0).Inv ∧ (inBlock 127).Inv := by
  refine ⟨⟨?_, ?_, ?_, ?_, ?_, ?_, ?_, ⟨?_, rfl, ?_, ?_, ?_⟩⟩,
    ⟨?_, ?_, ?_, ?_, ?_, ?_, ?_, ⟨?_, rfl, ?_, ?_, ?_⟩⟩⟩ <;>
    decide +kernel

theorem atBlockTrailer_inv : (atBlockTrailer .sum 0).Inv ∧ (atBlockTrailer .crc 0).Inv ∧ (atBlockTrailer .crc 1).Inv := by
  refine ⟨⟨?_, ?_, ?_, ?_, ?_, ?_, ?_, ⟨?_, rfl, ?_, ?_, ?_⟩⟩,
    ⟨?_, ?_, ?_, ?_, ?_, ?_, ?_, ⟨?_, rfl, ?_, ?_, ?_⟩⟩,
    ⟨?_, ?_, ?_, ?_, ?_, ?_, ?_, ⟨?_, rfl, ?_, ?_, ?_⟩⟩⟩ <;>
    decide +kernel

theorem inHexBody_check : (inHexBody 13).CheckCurrent := fun _ => by
  show _ = crc16Of _
  decide +kernel
theorem inTrailer_check : (inTrailer 1).CheckCurrent ∧ { inTrailer 1 with agenda := [.rx (.byte 0x72)] }.CheckCurrent := by
  constructor <;> (show _ = crc16Of _; decide +kernel)

/-! ### Witnesses: each statement with hypotheses, its hypotheses met together -/

theorem witness_DecodeOfEncode :
    (Instr.spkTx .reserved .crcw 65535).WellFormed ∧ (Instr.xbkTx .crc 0).WellFormed := by decide

theorem witness_EncodeOfDecode : decode 0x400DFFFF = .ok (.spkTx .hex .crcw 65535) := by decide

theorem witness_OpcodeMapDecides :
    (∃ r ∈ opcodeMap, 0x11310000#32 &&& r.mask = r.pattern) ∧ decode 0x11310000 = .ok (.crc16Upd 0x31)
      ∧ decode 0x11310001 = .error (.reservedBitSet 0x11) := by decide

theorem witness_OperandsAreTheirBits :
    [0x22FF0000#32, 0x30030000#32, 0x400FFFFF#32, 0x4100FFFF#32, 0x5001FFFF#32, 0x51000000#32].map decode
      = [.ok (.escDec 0xFF), .ok (.hdrTx .reserved), .ok (.spkTx .reserved .crcw 65535), .ok (.spkRx 65535),
        .ok (.xbkTx .crc 65535), .ok (.xbkRx .sum)] := by decide

/-- The command port while idle, and the RST word while a streaming command is active. -/
theorem witness_StepRunsDecodedCommand :
    ({ State.reset with agenda := [.cmd 0x11310000] }.agenda = .cmd 0x11310000 :: [] ∧ State.reset.rxmode = .idle
        ∧ decode 0x11310000 = .ok (.crc16Upd 0x31))
      ∧ { hunting 0 0 with agenda := [.cmd 0x01000000] }.rxmode ≠ .idle ∧ decode 0x01000000 = .ok .rst := by decide

theorem witness_IllegalWordCompletes :
    { State.reset with agenda := [.cmd 0] }.agenda = .cmd 0 :: [] ∧ State.reset.rxmode = .idle
      ∧ decode 0 = .error (.noSuchOpcode 0) := by decide

theorem witness_StepTakesTheNextPortStep :
    ∃ t, step { State.reset with agenda := [.regRead 0, .txTake] } = .next t ∧ (t.agenda == [.txTake]) = true :=
  exists_of_gives (by decide +kernel)

theorem witness_RegisterWrite : (hunting 0 0).rxmode ≠ .idle ∧ State.reset.rxmode = .idle := by decide

theorem witness_BufferPort :
    State.reset.rxmode = .idle ∧ 0 < State.reset.pbufSize.bytes ∧ 1023 < State.reset.pbufSize.bytes
      ∧ (hunting 0 0).rxmode ≠ .idle ∧ State.reset.pbufSize.bytes ≤ 1024 := by decide

theorem witness_TxTakeRemovesTheHead :
    { State.reset with txq := [0x18, 0x58] }.txq = 0x18 :: [0x58] ∧ State.reset.txq = [] := ⟨rfl, rfl⟩

theorem witness_TxQueueGrowsAtTheTail :
    (∃ t, portStep (.cmd 0x21180000) { State.reset with txq := [0x41] } = .next t ∧ (t.txq == [0x41, 0x18, 0x58]) = true)
      ∧ PortStep.cmd 0x21180000 ≠ .txTake ∧ PortStep.cmd 0x21180000 ≠ .hardReset
      ∧ PortStep.cmd 0x21180000 ≠ .cmd 0x01000000 :=
  ⟨exists_of_gives (by decide +kernel), by decide⟩

theorem witness_BadOperandChangesNothingElse :
    State.reset.pbufSize.bytes < 1025 ∧ { State.reset with henc := .reserved }.henc = .reserved ∧ 128 < 129 := by decide

theorem witness_CommandWriteSets :
    (∃ t, exec (.hdrTx .hex) State.reset = .next t ∧ (t.res == 20) = true)
      ∧ Element.lasttx ∉ writeSet .bin16 (.hdrTx .hex) ∧ Element.crc16 ∈ writeSet .bin16 (.hdrTx .hex) :=
  ⟨exists_of_gives (by decide +kernel), by decide⟩

theorem witness_EventWriteSets :
    (∃ t, portStep (.rx (.byte 0x42)) (inPayload 2) = .next t ∧ (t.rxlen == 2) = true)
      ∧ Element.crc32 ∉ eventWriteSet (inPayload 2) ∧ Element.crc32 ∈ eventWriteSet (hunting 0 0)
      ∧ Element.crc16 ∉ eventWriteSet (inBlock 0) :=
  ⟨exists_of_gives (by decide +kernel), by decide⟩

theorem witness_OnlyReceiversWriteTheBuffer :
    (∃ t, portStep (.bufWrite 1023 0x41) State.reset = .next t ∧ (t.pbuf == [(1023, 0x41)]) = true)
      ∧ (∃ t, portStep (.rx (.byte 0x42)) (inPayload 2) = .next t ∧ (t.pbuf == stored [0x41, 0x42]) = true)
      ∧ (∃ t, portStep (.rx (.byte 0x42)) (inPayload 1) = .next t ∧ (t.pbuf == stored [0x41]) = true)
      ∧ ∃ t, portStep (.cmd 0x50000001) (State.reset) = .next t ∧ (t.pbuf == []) = true :=
  ⟨exists_of_gives (by decide +kernel), exists_of_gives (by decide +kernel), exists_of_gives (by decide +kernel),
    exists_of_gives (by decide +kernel)⟩

theorem witness_ChecksumCalls : State.reset.rxmode = .idle := rfl

theorem witness_OneByteChangeIsDetected : (0x41 : Byte) ≠ 0xC1 := by decide

theorem witness_EscapeSets : 0x41#8 &&& 0x7F ≠ 0x40 ∧ 0xC0#8 &&& 0x7F = 0x40 := by decide

theorem witness_FifthCancelAborts : (0#3).toNat < 5 ∧ (4#3).toNat < 5 := by decide

theorem witness_ReceiversStart :
    State.reset.henc ≠ .reserved ∧ 0 ≤ State.reset.pbufSize.bytes ∧ 1024 ≤ State.reset.pbufSize.bytes := by decide

theorem witness_TimeoutCompletes : (inHexBody 0).rxmode ≠ .idle ∧ (atBlockTrailer .sum 0).rxmode ≠ .idle := by decide

/-- Each phase, with a byte for each of its clauses. -/
theorem witness_HeaderHunt :
    (∀ p ∈ [0#3, 1#3, 2#3], (hunting p 3).rxmode = .hdr ∧ (hunting p 3).phase = p)
      ∧ (∀ w ∈ [0x18#8, 0x2A#8, 0x41#8, 0x42#8, 0x43#8, 0x44#8], cancelRun (hunting 0 3).cancnt w ≠ 5)
      ∧ 0x44#8 ∉ [0x41#8, 0x42#8, 0x43#8] ∧ 0x42#8 = 0x41 + HdrEnc.hex.code.setWidth 8 := by decide

/-- A high digit first and last, a low digit first and last but one, the last digit matching and not, the byte 0x18 and a
byte that is no digit. -/
theorem witness_HexBodyByte :
    ((inHexBody 0).Inv ∧ (inHexBody 1).Inv ∧ (inHexBody 12).Inv ∧ (inHexBody 13).Inv)
      ∧ ((inHexBody 0).rxmode = .hdr ∧ (inHexBody 0).phase = 3 ∧ (inHexBody 0).rxenc = .hex
        ∧ (inHexBody 12).idx.toNat % 2 = 0 ∧ (inHexBody 1).idx.toNat % 2 = 1 ∧ (inHexBody 1).idx.toNat < 13
        ∧ (inHexBody 13).idx.toNat = 13)
      ∧ (hexVal 0x66 = some 15 ∧ hexVal 0x46 = none ∧ cancelRun (inHexBody 0).cancnt 0x18 ≠ 5)
      ∧ hexVal 0x64 = some 0xD ∧ [0x02#8, 0x20#8 ||| (0xD#4).setWidth 8] = beBytes (inHexBody 13).crc16
      ∧ hexVal 0x65 = some 0xE ∧ [0x02#8, 0x20#8 ||| (0xE#4).setWidth 8] ≠ beBytes (inHexBody 13).crc16 :=
  ⟨inHexBody_inv, by decide, by decide, by decide⟩

theorem witness_HeaderAcceptedOnlyIfCheckVerifies :
    (inHexBody 13).Inv ∧ (inHexBody 13).CheckCurrent ∧ (inHexBody 13).rxmode = .hdr
      ∧ (∃ t, portStep (.rx (.byte 0x64)) (inHexBody 13) = .next t ∧ decide (t.outcome = .ok) = true)
      ∧ ∃ t, portStep (.rx (.byte 0x65)) (inHexBody 13) = .next t ∧ decide (t.outcome ≠ .ok) = true :=
  ⟨inHexBody_inv.2.2.2, inHexBody_check, rfl, exists_of_gives (by decide +kernel), exists_of_gives (by decide +kernel)⟩

/-- The binary body: each event of the escape decoder, and a decoded byte first, last of those folded, first of the check,
and last, matching and not. -/
theorem witness_HeaderAcceptedOnlyIfCheckVerifies_binary :
    (inBin32Body.Inv ∧ { inBin32Body with escp := true }.Inv ∧ { inBin32Body with cancnt := 4 }.Inv)
      ∧ ((inBin16Body 0).Inv ∧ (inBin16Body 4).Inv ∧ (inBin16Body 5).Inv ∧ (inBin16Body 6).Inv)
      ∧ (inBin32Body.rxmode = .hdr ∧ inBin32Body.phase = 3 ∧ inBin32Body.rxenc ≠ .hex ∧ (inBin16Body 0).rxenc ≠ .hex)
      ∧ (escEvent false (cancelRun 4 0x18) 0x18 = .abort ∧ escEvent false (cancelRun inBin32Body.cancnt 0x18) 0x18 = .escapeStarted
        ∧ escEvent true (cancelRun inBin32Body.cancnt 0x68) 0x68 = .frameEnd .crce
        ∧ escEvent true (cancelRun inBin32Body.cancnt 0x30) 0x30 = .badEscape 0x30
        ∧ escEvent false (cancelRun inBin32Body.cancnt 0xDC) 0xDC = .data 0xDC)
      ∧ (inBin32Body.idx.toNat + 1 = 9 ∧ (inBin16Body 0).idx.toNat + 1 < 7 ∧ (inBin16Body 5).idx.toNat + 1 < 7
        ∧ (inBin16Body 6).idx.toNat + 1 = 7)
      ∧ ([0xF6#8, 0xC1#8, 0xE9#8, 0xDC#8] = leBytes (~~~ inBin32Body.crc32)
        ∧ [0xF6#8, 0xC1#8, 0xE9#8, 0xDD#8] ≠ leBytes (~~~ inBin32Body.crc32))
      ∧ [0xF4#8, 0x0E#8] = beBytes (inBin16Body 6).crc16 ∧ [0xF4#8, 0x0F#8] ≠ beBytes (inBin16Body 6).crc16 :=
  ⟨inBin32Body_inv, inBin16Body_inv, by decide⟩

theorem witness_HeaderRoundTrip :
    HdrEnc.hex ≠ .reserved ∧ (∃ t, exec (.hdrTx .hex) State.reset = .next t ∧ (t.res == 20) = true)
      ∧ { State.reset with cancnt := 2 }.rxmode = .idle ∧ 0x2A#8 ∉ [0x18#8, 0x18#8, 0x41#8]
      ∧ RunStaysShort 2 [0x18, 0x18, 0x41] :=
  ⟨by decide, exists_of_gives (by decide +kernel), rfl, by decide, by decide, by decide, by decide, trivial⟩

/-- No byte 0x18 counted, four, and a saturated run of five. -/
theorem witness_CancelRunAborts :
    ((hunting 0 0).Inv ∧ (hunting 0 4).Inv ∧ (hunting 0 5).Inv)
      ∧ ((inTrailer 0).Inv ∧ { inTrailer 1 with cancnt := 5 }.Inv)
      ∧ (atBlockStart 0 4).Inv
      ∧ (hunting 0 0).rxmode = .hdr ∧ (hunting 0 5).cancnt = 5 ∧ (inTrailer 0).rxmode = .spk
      ∧ (atBlockStart 0 4).rxmode = .xbk ∧ (atBlockStart 0 4).phase = 0 :=
  ⟨hunting_inv, ⟨inTrailer_inv.1, inTrailer_inv.2.2.2.2⟩, atBlockStart_inv.2, by decide⟩

theorem witness_SubpacketTransmit :
    65535 < 65536 ∧ State.reset.pbufSize.bytes < 1025 ∧ HdrEnc.hex ≠ .reserved ∧ 1024 ≤ State.reset.pbufSize.bytes
      ∧ 0 ≤ State.reset.pbufSize.bytes := by decide

theorem witness_FrameEndIsLatched :
    ({ inPayload 2 with escp := true }.rxmode = .spk ∧ { inPayload 2 with escp := true }.phase = 0
        ∧ escEvent true (cancelRun (inPayload 2).cancnt 0x6B) 0x6B = .frameEnd .crcw)
      ∧ (∃ t, portStep (.rx .timeout) (inPayload 2) = .next t ∧ decide (t.rxmode = .idle) = true)
      ∧ (inTrailer 0).phase = 1
      ∧ ∃ t, portStep (.rx (.byte 0xC3)) (inTrailer 0) = .next t ∧ decide (t.rxmode = .spk) = true :=
  ⟨by decide, exists_of_gives (by decide +kernel), by decide, exists_of_gives (by decide +kernel)⟩

/-- Room for one more byte, and none; the fifth 0x18, the byte that starts an escape, and a bad second byte. -/
theorem witness_PayloadOrOverrun :
    ((inPayload 1).Inv ∧ (inPayload 2).Inv ∧ { inPayload 2 with escp := true }.Inv ∧ { inPayload 2 with cancnt := 4 }.Inv)
      ∧ (inPayload 1).rxmode = .spk ∧ (inPayload 1).phase = 0
      ∧ escEvent false (cancelRun 4 0x18) 0x18 = .abort
      ∧ escEvent false (cancelRun (inPayload 2).cancnt 0x18) 0x18 = .escapeStarted
      ∧ escEvent true (cancelRun (inPayload 2).cancnt 0x30) 0x30 = .badEscape 0x30
      ∧ escEvent (inPayload 1).escp (cancelRun (inPayload 1).cancnt 0x42) 0x42 = .data 0x42
      ∧ (inPayload 1).idx = (inPayload 1).rxmax ∧ (inPayload 2).idx ≠ (inPayload 2).rxmax :=
  ⟨inPayload_inv, by decide⟩

/-- The first and the last trailer byte, matching and not, and each other event. -/
theorem witness_SubpacketTrailer :
    ((inTrailer 0).Inv ∧ (inTrailer 1).Inv ∧ { inTrailer 1 with escp := true }.Inv ∧ { inTrailer 1 with cancnt := 5 }.Inv)
      ∧ (inTrailer 0).rxmode = .spk ∧ (inTrailer 0).phase = 1
      ∧ escEvent false (cancelRun 5 0x18) 0x18 = .abort
      ∧ escEvent false (cancelRun (inTrailer 1).cancnt 0x18) 0x18 = .escapeStarted
      ∧ escEvent true (cancelRun (inTrailer 1).cancnt 0x30) 0x30 = .badEscape 0x30
      ∧ escEvent true (cancelRun (inTrailer 1).cancnt 0x68) 0x68 = .frameEnd .crce
      ∧ escEvent false (cancelRun (inTrailer 1).cancnt 0x72) 0x72 = .data 0x72
      ∧ (inTrailer 0).tidx.toNat + 1 < 2 ∧ (inTrailer 1).tidx.toNat + 1 = 2
      ∧ [0xC3#8, 0x72#8] = beBytes (inTrailer 1).crc16 ∧ [0xC3#8, 0x73#8] ≠ beBytes (inTrailer 1).crc16 :=
  ⟨⟨inTrailer_inv.1, inTrailer_inv.2.1, inTrailer_inv.2.2.1, inTrailer_inv.2.2.2.2⟩, by decide⟩

theorem witness_SubpacketOkMeansVerified :
    (inTrailer 1).Inv ∧ (inTrailer 1).CheckCurrent ∧ (inTrailer 1).rxmode = .spk
      ∧ ∃ t, portStep (.rx (.byte 0x72)) (inTrailer 1) = .next t ∧ decide (t.outcome = .ok) = true :=
  ⟨inTrailer_inv.2.1, inTrailer_check.1, rfl, exists_of_gives (by decide +kernel)⟩

theorem witness_SubpacketRoundTrip :
    HdrEnc.hex ≠ .reserved ∧ 1 ≤ State.reset.pbufSize.bytes
      ∧ (∃ t, exec (.spkTx .hex .crcg 1) { State.reset with pbuf := stored [0x41] } = .next t ∧ (t.res == 5) = true)
      ∧ { State.reset with cancnt := 3 }.rxmode = .idle ∧ State.reset.henc ≠ .reserved
      ∧ (State.reset.henc = .bin32 ↔ HdrEnc.hex = .bin32) ∧ 1 ≤ 1024 ∧ 1024 ≤ State.reset.pbufSize.bytes
      ∧ { State.reset with cancnt := 3 }.cancnt.toNat ≤ 3 :=
  ⟨by decide, by decide, exists_of_gives (by decide +kernel), by decide⟩

theorem witness_BlockTransmit : 65535 < 65536 ∧ 128 < 129 ∧ 128 ≤ 128 ∧ 0 ≤ 128 := by decide

theorem witness_BlockHeaderBytes :
    ∀ p ∈ [0#3, 1#3, 2#3], (atBlockStart p 0).rxmode = .xbk ∧ (atBlockStart p 0).phase = p := by decide

/-- The first and the last payload byte, and each trailer byte. -/
theorem witness_BlockPayloadAndTrailer :
    ((inBlock 0).Inv ∧ (inBlock 127).Inv)
      ∧ ((atBlockTrailer .sum 0).Inv ∧ (atBlockTrailer .crc 0).Inv ∧ (atBlockTrailer .crc 1).Inv)
      ∧ (inBlock 0).rxmode = .xbk ∧ (inBlock 0).phase = 3 ∧ (inBlock 127).idx = 127
      ∧ (atBlockTrailer .sum 0).phase = 4 ∧ (atBlockTrailer .sum 0).xmode = .sum
      ∧ (atBlockTrailer .crc 0).xmode = .crc ∧ (atBlockTrailer .crc 0).tidx = 0 ∧ (atBlockTrailer .crc 1).tidx = 1 :=
  ⟨inBlock_inv, atBlockTrailer_inv, by decide +kernel⟩

theorem witness_BlockRoundTrip :
    0 ≤ 128 ∧ 128 ≤ 128 ∧ (∃ t, exec (.xbkTx .sum 0) State.reset = .next t ∧ (t.res == 132) = true)
      ∧ { State.reset with cancnt := 5 }.rxmode = .idle :=
  ⟨by decide, by decide, exists_of_gives (by decide +kernel), rfl⟩

theorem witness_EventCompletesInOneStep :
    ((inTrailer 0).Inv ∧ ∃ t, portStep (.rx (.byte 0xC3)) (inTrailer 0) = .next t ∧ decide (t.rxmode = .spk) = true)
      ∧ (inTrailer 1).Inv ∧ ∃ t, portStep (.rx (.byte 0x72)) (inTrailer 1) = .next t ∧ decide (t.rxmode = .idle) = true :=
  ⟨⟨inTrailer_inv.1, exists_of_gives (by decide +kernel)⟩, inTrailer_inv.2.1, exists_of_gives (by decide +kernel)⟩

theorem witness_StepKeepsInvariant :
    { inTrailer 1 with agenda := [.rx (.byte 0x72)] }.Inv
      ∧ ∃ t, step { inTrailer 1 with agenda := [.rx (.byte 0x72)] } = .next t ∧ decide (t.outcome = .ok) = true :=
  ⟨inTrailer_inv.2.2.2.1, exists_of_gives (by decide +kernel)⟩

theorem witness_StepKeepsCheckCurrent :
    { inTrailer 1 with agenda := [.rx (.byte 0x72)] }.Inv
      ∧ { inTrailer 1 with agenda := [.rx (.byte 0x72)] }.CheckCurrent
      ∧ ∃ t, step { inTrailer 1 with agenda := [.rx (.byte 0x72)] } = .next t ∧ decide (t.outcome = .ok) = true :=
  ⟨inTrailer_inv.2.2.2.1, inTrailer_check.2, exists_of_gives (by decide +kernel)⟩

theorem witness_NoStepFaults : { inTrailer 1 with agenda := [.rx (.byte 0x72)] }.Inv := inTrailer_inv.2.2.2.1

end Sys2Proof.Tests
end

section
/-! The views STATUS, ESCST and RXST (10_state R20, R22, R23), field by field, and the reset state (R35). -/

namespace Sys2Proof.Machine

/-! ### A field placed in a word -/

theorem extractLsb'_placed {n : Nat} (x : BitVec n) {k : Nat} (h : k + n ≤ 32) :
    (x.setWidth 32 <<< k).extractLsb' k n = x := by
  apply BitVec.eq_of_getLsbD_eq
  intro i hi
  simp [hi, show k + i < 32 by omega]

theorem extractLsb'_placed_disjoint {n : Nat} (x : BitVec n) {k j m : Nat} (h : k + n ≤ j ∨ j + m ≤ k) :
    (x.setWidth 32 <<< k).extractLsb' j m = 0 := by
  apply BitVec.eq_of_getLsbD_eq
  intro i hi
  rcases h with above | below
  · simp [BitVec.getLsbD_of_ge x (j + i - k) (by omega)]
  · simp [show j + i < k by omega]

theorem extractLsb'_lowest {n : Nat} (x : BitVec n) (h : n ≤ 32) : (x.setWidth 32).extractLsb' 0 n = x := by
  simpa using extractLsb'_placed x (k := 0) (by omega)

theorem extractLsb'_lowest_disjoint {n : Nat} (x : BitVec n) {j m : Nat} (h : n ≤ j) :
    (x.setWidth 32).extractLsb' j m = 0 := by
  simpa using extractLsb'_placed_disjoint x (k := 0) (m := m) (.inl (by omega))

/-! ### The views -/

theorem State.busy_iff (s : State) : s.busy = true ↔ s.rxmode ≠ .idle := by
  simp [State.busy]

/-- R20. -/
theorem State.statusView_fields (s : State) :
    s.statusView.extractLsb' 0 4 = s.outcome.code ∧ s.statusView.extractLsb' 4 4 = s.cause.code
      ∧ (s.statusView.getLsbD 8 = true ↔ s.rxmode ≠ .idle) ∧ s.statusView.extractLsb' 9 2 = s.fe.code
      ∧ s.statusView.extractLsb' 11 21 = 0 := by
  refine ⟨?_, ?_, ?_, ?_, ?_⟩ <;>
    simp [State.statusView, BitVec.extractLsb'_or, extractLsb'_placed, extractLsb'_placed_disjoint,
      extractLsb'_lowest, extractLsb'_lowest_disjoint, State.busy_iff]

/-- R22. -/
theorem State.escstView_fields (s : State) :
    s.escstView.getLsbD 0 = s.escp ∧ s.escstView.extractLsb' 1 3 = 0 ∧ s.escstView.extractLsb' 4 3 = s.cancnt
      ∧ s.escstView.getLsbD 7 = false ∧ s.escstView.extractLsb' 8 8 = s.lasttx
      ∧ s.escstView.extractLsb' 16 16 = 0 := by
  refine ⟨?_, ?_, ?_, ?_, ?_, ?_⟩ <;>
    simp [State.escstView, BitVec.extractLsb'_or, extractLsb'_placed, extractLsb'_placed_disjoint,
      extractLsb'_lowest_disjoint]

/-- R23. -/
theorem State.rxstView_fields (s : State) :
    s.rxstView.extractLsb' 0 3 = s.rxmode.code ∧ s.rxstView.getLsbD 3 = false ∧ s.rxstView.extractLsb' 4 3 = s.phase
      ∧ s.rxstView.getLsbD 7 = false ∧ s.rxstView.extractLsb' 8 16 = s.idx ∧ s.rxstView.extractLsb' 24 3 = s.tidx
      ∧ s.rxstView.extractLsb' 27 2 = s.rxenc.code ∧ s.rxstView.extractLsb' 29 3 = 0 := by
  refine ⟨?_, ?_, ?_, ?_, ?_, ?_, ?_, ?_⟩ <;>
    simp [State.rxstView, BitVec.extractLsb'_or, extractLsb'_placed, extractLsb'_placed_disjoint,
      extractLsb'_lowest, extractLsb'_lowest_disjoint]

/-- Settles O11: the fields of a view are placed at disjoint bits, so each is read back alone. -/
theorem viewFields : Obligations.ViewFields :=
  fun s => ⟨s.statusView_fields, s.escstView_fields, s.rxstView_fields⟩

/-! ### The state right after reset -/

theorem State.reset_atResetValues : State.reset.AtResetValues where
  checks := by decide
  header := by decide
  blocks := by decide
  results := by decide
  escape := by decide
  sequencing := by decide
  latched := by decide
  queue := rfl

/-- Settles O16, by evaluation of the reset state; no byte of the empty PBUF is written. -/
theorem resetState : Obligations.ResetState :=
  ⟨State.reset_atResetValues, rfl, rfl, by decide, by decide, by decide, rfl, Memory.read_nil⟩

theorem State.reset_inv : State.reset.Inv where
  canonical := Memory.wf_nil
  inside := by simp [State.reset]
  received := by simp [State.reset]
  cancelRun := by decide
  cause := by decide
  failed := by decide
  active := by decide
  position := trivial

/-- Settles O57: the reset state is idle, with an empty PBUF. -/
theorem resetMeetsInvariant : Obligations.ResetMeetsInvariant := ⟨State.reset_inv, trivial⟩

end Sys2Proof.Machine
end

section
/-! Frames: which elements an operation, a command and an RX event leave unchanged (10_state R36). Setting one element
frames all others; the frame of an operation, a command or an event is composed of these. -/

namespace Sys2Proof.Machine

/-- Every element outside `w` is the same before and after. -/
def State.Frame (s t : State) (w : List Element) : Prop := ∀ e ∉ w, s.Same t e

theorem State.Same.trans {s t u : State} {e : Element} (h : s.Same t e) (h' : t.Same u e) : s.Same u e := by
  cases e <;> simp_all [State.Same]

namespace State

variable {s t u : State} {w w' : List Element}

theorem Frame.trans (h : s.Frame t w) (h' : t.Frame u w') : s.Frame u (w ++ w') := fun e he =>
  have ⟨hw, hw'⟩ := not_or.mp (mt List.mem_append.mpr he)
  (h e hw).trans (h' e hw')

theorem Frame.mono (h : s.Frame t w) (hs : w ⊆ w') : s.Frame t w' := fun e he => h e (mt (@hs e) he)

/-- An operation that writes nothing keeps every frame. -/
theorem Frame.transNil (h : s.Frame t w) (h' : t.Frame u []) : s.Frame u w := by
  simpa using h.trans h'

/-! ### One element set -/

theorem crc16_frame (c : Half) : s.Frame { s with crc16 := c } [.crc16] := by
  intro e he
  cases e <;> simp [Same, pbufByte] at he ⊢

theorem crc32_frame (c : Word) : s.Frame { s with crc32 := c } [.crc32] := by
  intro e he
  cases e <;> simp [Same, pbufByte] at he ⊢

theorem sum8_frame (c : Byte) : s.Frame { s with sum8 := c } [.sum8] := by
  intro e he
  cases e <;> simp [Same, pbufByte] at he ⊢

theorem escp_frame (p : Bool) : s.Frame { s with escp := p } [.escp] := by
  intro e he
  cases e <;> simp [Same, pbufByte] at he ⊢

theorem cancnt_frame (c : BitVec 3) : s.Frame { s with cancnt := c } [.cancnt] := by
  intro e he
  cases e <;> simp [Same, pbufByte] at he ⊢

theorem lasttx_frame (b : Byte) : s.Frame { s with lasttx := b } [.lasttx] := by
  intro e he
  cases e <;> simp [Same, pbufByte] at he ⊢

theorem xrblk_frame (b : Byte) : s.Frame { s with xrblk := b } [.xrblk] := by
  intro e he
  cases e <;> simp [Same, pbufByte] at he ⊢

theorem rxlen_frame (n : Half) : s.Frame { s with rxlen := n } [.rxlen] := by
  intro e he
  cases e <;> simp [Same, pbufByte] at he ⊢

theorem fe_frame (fe : FrameEnd) : s.Frame { s with fe := fe } [.fe] := by
  intro e he
  cases e <;> simp [Same, pbufByte] at he ⊢

theorem pbuf_frame (m : Memory) : s.Frame { s with pbuf := m } [.pbuf] := by
  intro e he
  cases e <;> simp [Same] at he ⊢

theorem txq_frame (q : List Byte) : s.Frame { s with txq := q } [.tx] := by
  intro e he
  cases e <;> simp [Same, pbufByte] at he ⊢

theorem header_frame (type : Byte) (value : Word) (enc : HdrEnc) :
    s.Frame { s with htype := type, hval := value, henc := enc } [.header, .henc] := by
  intro e he
  cases e <;> simp [Same, pbufByte] at he ⊢

/-- The result of the command and the sequencing state (R20, R21, R27 to R33) are no columns of R36. -/
theorem sequencing_frame {res : Word} {outcome : CmdOutcome} {cause : Cause} {rxmode : RxMode} {phase : BitVec 3}
    {idx : Half} {tidx : BitVec 3} {hbuf : Vector Byte 9} {tbuf : Vector Byte 4} {rxenc : HdrEnc} {rxc32 : Bool}
    {rxmax : Half} {xmode : CheckMode} :
    s.Frame { s with
      res := res, outcome := outcome, cause := cause, rxmode := rxmode, phase := phase, idx := idx, tidx := tidx
      hbuf := hbuf, tbuf := tbuf, rxenc := rxenc, rxc32 := rxc32, rxmax := rxmax, xmode := xmode } [] := by
  intro e _
  cases e <;> simp [Same, pbufByte]

/-! ### Shared operations -/

theorem finish_frame {o : CmdOutcome} {c : Cause} {r : Word} : s.Frame (s.finish o c r) [] := sequencing_frame

theorem activate_frame {m : RxMode} : s.Frame (s.activate m) [] := sequencing_frame

theorem finishCheck_frame {ok : Bool} : s.Frame (s.finishCheck ok) [] := by
  cases ok
  · exact finish_frame
  · exact finish_frame

theorem seedCheck_frame {c32 : Bool} : s.Frame (s.seedCheck c32) [accumulator c32] := by
  cases c32
  · exact crc16_frame _
  · exact crc32_frame _

theorem foldCheck_frame {c32 : Bool} {b : Byte} : s.Frame (s.foldCheck c32 b) [accumulator c32] := by
  cases c32
  · exact crc16_frame _
  · exact crc32_frame _

theorem checkOver_frame {c32 : Bool} {m : List Byte} : s.Frame (s.checkOver c32 m) [accumulator c32] := by
  cases c32
  · exact crc16_frame _
  · exact crc32_frame _

theorem seedBlock_frame {mode : CheckMode} : s.Frame (s.seedBlock mode) [blockAccumulator mode] := by
  cases mode
  · exact sum8_frame _
  · exact crc16_frame _

theorem foldBlock_frame {mode : CheckMode} {b : Byte} : s.Frame (s.foldBlock mode b) [blockAccumulator mode] := by
  cases mode
  · exact sum8_frame _
  · exact crc16_frame _

theorem blockOver_frame {mode : CheckMode} {m : List Byte} : s.Frame (s.blockOver mode m) [blockAccumulator mode] := by
  cases mode
  · exact sum8_frame _
  · exact crc16_frame _

theorem txPut_frame {bs : List Byte} : s.Frame (s.txPut bs) [.tx] := txq_frame _

theorem txPutEsc_frame {bs : List Byte} : s.Frame (s.txPutEsc bs) [.lasttx, .tx] :=
  (lasttx_frame (escLasts s.ctlesc s.lasttx bs)).trans (txq_frame _)

theorem countCancel_frame {b : Byte} : s.Frame (s.countCancel b) [.cancnt] := cancnt_frame _

theorem escDec_frame {b : Byte} : s.Frame (s.escDec b).2 [.escp, .cancnt] :=
  (escp_frame (escPending (cancelRun s.cancnt b) b)).trans (cancnt_frame _)

theorem toReset_frame : s.Frame s.toReset (writeSet s.henc .rst) := by
  intro e he
  cases e <;> simp [Same, pbufByte, writeSet] at he ⊢

end State

/-! ### Commands with an operand check (60_exceptions R184): refused the operand, or carried out -/

section
variable {s t : State}

theorem execSpkTx_next {enc : HdrEnc} {fe : FrameEnd} {len : Nat} (h : execSpkTx enc fe len s = .next t) :
    (s.spkTxBad enc len = true ∧ t = s.badOperand) ∨ (s.spkTxBad enc len = false ∧ t = spkSend enc fe len s) := by
  unfold execSpkTx at h
  split at h <;> cases h
  · exact .inl ⟨‹_›, rfl⟩
  · exact .inr ⟨Bool.eq_false_iff.mpr ‹_›, rfl⟩

theorem execSpkRx_next {maxlen : Nat} (h : execSpkRx maxlen s = .next t) :
    (s.spkRxBad maxlen = true ∧ t = s.badOperand) ∨ (s.spkRxBad maxlen = false ∧ t = spkStart maxlen s) := by
  unfold execSpkRx at h
  split at h <;> cases h
  · exact .inl ⟨‹_›, rfl⟩
  · exact .inr ⟨Bool.eq_false_iff.mpr ‹_›, rfl⟩

theorem execXbkTx_next {mode : CheckMode} {len : Nat} (h : execXbkTx mode len s = .next t) :
    (xbkTxBad len = true ∧ t = s.badOperand) ∨ (xbkTxBad len = false ∧ t = xbkSend mode len s) := by
  unfold execXbkTx at h
  split at h <;> cases h
  · exact .inl ⟨‹_›, rfl⟩
  · exact .inr ⟨Bool.eq_false_iff.mpr ‹_›, rfl⟩

/-! ### Frames of the commands -/

open State

theorem hdrTxHex_frame : s.Frame (hdrTxHex s) [.crc16, .tx] :=
  (checkOver_frame.trans txPut_frame).transNil finish_frame

theorem hdrTxBin_frame {enc : HdrEnc} : s.Frame (hdrTxBin enc s) [accumulator (wideCheck enc), .lasttx, .tx] :=
  (((checkOver_frame.trans txPut_frame).trans txPutEsc_frame).transNil finish_frame).mono (by simp)

theorem execHdrTx_frame {enc : HdrEnc} (h : execHdrTx enc s = .next t) : s.Frame t (writeSet s.henc (.hdrTx enc)) := by
  cases enc with
  | bin16 => cases h; exact hdrTxBin_frame
  | hex => cases h; exact hdrTxHex_frame
  | bin32 => cases h; exact hdrTxBin_frame
  | reserved => cases h; exact finish_frame

theorem spkSend_frame {enc : HdrEnc} {fe : FrameEnd} {len : Nat} :
    s.Frame (spkSend enc fe len s) [accumulator (wideCheck enc), .lasttx, .tx] :=
  ((((checkOver_frame.trans txPutEsc_frame).trans txPut_frame).trans txPutEsc_frame).transNil finish_frame).mono
    (by simp)

theorem spkStart_frame {maxlen : Nat} :
    s.Frame (spkStart maxlen s) [accumulator (wideCheck s.henc), .escp, .rxlen] :=
  ((((escp_frame false).trans (rxlen_frame 0)).transNil sequencing_frame).trans seedCheck_frame).mono (by simp)

theorem xbkSend_frame {mode : CheckMode} {len : Nat} :
    s.Frame (xbkSend mode len s) [blockAccumulator mode, .tx] :=
  (blockOver_frame.trans txPut_frame).transNil finish_frame

theorem execXbkRx_frame {mode : CheckMode} (h : execXbkRx mode s = .next t) :
    s.Frame t [blockAccumulator mode, .rxlen] := by
  cases h
  exact (((rxlen_frame 0).transNil sequencing_frame).trans seedBlock_frame).mono (by simp)

/-- R36, the rows of the commands. -/
theorem exec_frame {i : Instr} (h : exec i s = .next t) : s.Frame t (writeSet s.henc i) := by
  cases i with
  | rst => cases h; exact toReset_frame.transNil finish_frame
  | crc16Init => cases h; exact (crc16_frame _).transNil finish_frame
  | crc16Upd byte => cases h; exact (crc16_frame _).transNil finish_frame
  | crc16Fin => cases h; exact finish_frame
  | crc32Init => cases h; exact (crc32_frame _).transNil finish_frame
  | crc32Upd byte => cases h; exact (crc32_frame _).transNil finish_frame
  | crc32Fin => cases h; exact finish_frame
  | sum8Init => cases h; exact (sum8_frame _).transNil finish_frame
  | sum8Upd byte => cases h; exact (sum8_frame _).transNil finish_frame
  | escRst =>
    cases h
    exact (((escp_frame false).trans (cancnt_frame 0)).trans (lasttx_frame 0x00)).transNil finish_frame
  | escEnc byte => cases h; exact txPutEsc_frame.transNil finish_frame
  | escDec byte => cases h; exact escDec_frame.transNil finish_frame
  | hdrTx enc => exact execHdrTx_frame h
  | hdrRx => cases h; exact activate_frame
  | spkTx enc fe len =>
    obtain ⟨_, rfl⟩ | ⟨_, rfl⟩ := execSpkTx_next h
    · exact finish_frame.mono (by simp)
    · exact spkSend_frame
  | spkRx maxlen =>
    obtain ⟨_, rfl⟩ | ⟨_, rfl⟩ := execSpkRx_next h
    · exact finish_frame.mono (by simp)
    · exact spkStart_frame
  | xbkTx mode len =>
    obtain ⟨_, rfl⟩ | ⟨_, rfl⟩ := execXbkTx_next h
    · exact finish_frame.mono (by simp)
    · exact xbkSend_frame
  | xbkRx mode => exact execXbkRx_frame h

/-- Settles O19, command by command. -/
theorem commandWriteSets : Obligations.CommandWriteSets := fun _ _ _ h => exec_frame h

/-! ### Frames of the RX events -/

/-- HDR.RX folds into either accumulator, by the encoding it meets. -/
theorem accumulator_subset (c32 : Bool) : [accumulator c32] ⊆ [.crc16, .crc32] := by
  cases c32 <;> simp [accumulator]

theorem hdrFinish_frame : s.Frame (hdrFinish s) [.header, .henc] := by
  obtain ⟨_, e⟩ | ⟨_, e⟩ := hdrFinish_cases s <;> rw [e]
  · exact (header_frame _ _ _).transNil finish_frame
  · exact finish_frame.mono (by simp)

theorem startBody_frame {enc : HdrEnc} : s.Frame (startBody enc s) [.escp, .crc16, .crc32] :=
  ((escp_frame false).transNil sequencing_frame).trans (seedCheck_frame.mono (accumulator_subset _))

theorem hdrAfterLowDigit_frame {j : Nat} {hj : j < 9} {b : Byte} :
    s.Frame (hdrAfterLowDigit s j hj b) [.crc16, .crc32] := by
  unfold hdrAfterLowDigit
  split
  · exact (((sequencing_frame (hbuf := s.hbuf.set j b)).trans foldCheck_frame).transNil sequencing_frame).mono
      (accumulator_subset false)
  · exact sequencing_frame.mono (by simp)

theorem hdrAfterBodyByte_frame {hj : s.idx.toNat < 9} {b : Byte} :
    s.Frame (hdrAfterBodyByte s hj b) [.crc16, .crc32] := by
  unfold hdrAfterBodyByte
  split
  · exact (((sequencing_frame (hbuf := s.hbuf.set s.idx.toNat b)).trans foldCheck_frame).transNil
      sequencing_frame).mono (accumulator_subset _)
  · exact sequencing_frame.mono (by simp)

/-- What the RX events of HDR.RX write. -/
def hdrWrites : List Element := [.crc16, .crc32, .header, .henc, .escp, .cancnt]

theorem HdrRawCase.frame {w : Byte} (h : HdrRawCase w s t) : s.Frame t hdrWrites := by
  cases h with
  | abort => exact (countCancel_frame.transNil finish_frame).mono (by simp [hdrWrites])
  | hunt => exact (countCancel_frame.transNil sequencing_frame).mono (by simp [hdrWrites])
  | start => exact (countCancel_frame.trans startBody_frame).mono (by simp [hdrWrites])
  | badDigit => exact (countCancel_frame.transNil finish_frame).mono (by simp [hdrWrites])
  | highDigit => exact (countCancel_frame.transNil sequencing_frame).mono (by simp [hdrWrites])
  | lowDigit => exact (countCancel_frame.trans hdrAfterLowDigit_frame).mono (by simp [hdrWrites])
  | lastDigit =>
    exact ((countCancel_frame.trans hdrAfterLowDigit_frame).trans hdrFinish_frame).mono (by simp [hdrWrites])

theorem HdrBinCase.frame {w : Byte} (h : HdrBinCase w s t) : s.Frame t hdrWrites := by
  cases h with
  | abort => exact (escDec_frame.transNil finish_frame).mono (by simp [hdrWrites])
  | escape => exact escDec_frame.mono (by simp [hdrWrites])
  | frameEnd => exact (escDec_frame.transNil finish_frame).mono (by simp [hdrWrites])
  | badEscape => exact (escDec_frame.transNil finish_frame).mono (by simp [hdrWrites])
  | more => exact (escDec_frame.trans hdrAfterBodyByte_frame).mono (by simp [hdrWrites])
  | last => exact ((escDec_frame.trans hdrAfterBodyByte_frame).trans hdrFinish_frame).mono (by simp [hdrWrites])

theorem hdrRxEvent_frame {ev : RxEvent} (h : hdrRxEvent ev s = .next t) : s.Frame t hdrWrites := by
  obtain ⟨_, rfl⟩ | ⟨w, _, ⟨_, raw⟩ | ⟨_, _, bin⟩⟩ := hdrRxEvent_cases h
  · exact finish_frame.mono (by simp)
  · exact raw.frame
  · exact bin.frame

/-- What the RX events of SPK.RX write. -/
def spkWrites (c32 : Bool) : List Element := [accumulator c32, .escp, .cancnt, .rxlen, .fe, .pbuf]

theorem SpkCase.frame {w : Byte} (h : SpkCase w s t) : s.Frame t (spkWrites s.rxc32) := by
  cases h with
  | abort => exact (escDec_frame.transNil finish_frame).mono (by simp [spkWrites])
  | escape => exact escDec_frame.mono (by simp [spkWrites])
  | badEscape => exact (escDec_frame.transNil finish_frame).mono (by simp [spkWrites])
  | overrun => exact (escDec_frame.transNil finish_frame).mono (by simp [spkWrites])
  | payload b =>
    exact ((((escDec_frame.trans (pbuf_frame (s.pbuf.write s.idx.toNat b))).trans foldCheck_frame).trans
      (rxlen_frame (s.idx + 1))).transNil sequencing_frame).mono (by simp [spkWrites])
  | trailer => exact (escDec_frame.transNil sequencing_frame).mono (by simp [spkWrites])
  | last => exact ((escDec_frame.transNil sequencing_frame).transNil finishCheck_frame).mono (by simp [spkWrites])
  | frameEnd fe =>
    exact (((escDec_frame.trans foldCheck_frame).trans (fe_frame fe)).transNil sequencing_frame).mono
      (by simp [spkWrites])
  | strayFrameEnd => exact (escDec_frame.transNil finish_frame).mono (by simp [spkWrites])

theorem spkRxEvent_frame {ev : RxEvent} (h : spkRxEvent ev s = .next t) : s.Frame t (spkWrites s.rxc32) := by
  obtain ⟨_, rfl⟩ | ⟨w, _, byte⟩ := spkRxEvent_cases h
  · exact finish_frame.mono (by simp)
  · exact byte.frame

/-- What the RX events of XBK.RX write. -/
def xbkWrites (mode : CheckMode) : List Element := [blockAccumulator mode, .cancnt, .xrblk, .rxlen, .pbuf]

theorem xbkAfterPayloadByte_frame {w : Byte} :
    s.Frame (xbkAfterPayloadByte s w) [.cancnt, .pbuf, blockAccumulator s.xmode, .rxlen] :=
  ((((cancnt_frame 0).trans (pbuf_frame (s.pbuf.write s.idx.toNat w))).trans foldBlock_frame).trans
      (rxlen_frame (s.idx + 1))).transNil sequencing_frame

theorem XbkCase.frame {w : Byte} (h : XbkCase w s t) : s.Frame t (xbkWrites s.xmode) := by
  cases h with
  | abort => exact (countCancel_frame.transNil finish_frame).mono (by simp [xbkWrites])
  | start => exact (countCancel_frame.transNil sequencing_frame).mono (by simp [xbkWrites])
  | ended => exact (countCancel_frame.transNil finish_frame).mono (by simp [xbkWrites])
  | cancel => exact countCancel_frame.mono (by simp [xbkWrites])
  | badStart => exact (countCancel_frame.transNil finish_frame).mono (by simp [xbkWrites])
  | number =>
    exact (((cancnt_frame 0).trans (xrblk_frame w)).transNil sequencing_frame).mono (by simp [xbkWrites])
  | complement => exact ((cancnt_frame 0).transNil sequencing_frame).mono (by simp [xbkWrites])
  | badComplement => exact ((cancnt_frame 0).transNil finish_frame).mono (by simp [xbkWrites])
  | payload => exact xbkAfterPayloadByte_frame.mono (by simp [xbkWrites])
  | lastPayload => exact (xbkAfterPayloadByte_frame.transNil sequencing_frame).mono (by simp [xbkWrites])
  | sum => exact ((cancnt_frame 0).transNil finishCheck_frame).mono (by simp [xbkWrites])
  | crcHigh => exact ((cancnt_frame 0).transNil sequencing_frame).mono (by simp [xbkWrites])
  | crcLow =>
    exact (((cancnt_frame 0).transNil sequencing_frame).transNil finishCheck_frame).mono (by simp [xbkWrites])

theorem xbkRxEvent_frame {ev : RxEvent} (h : xbkRxEvent ev s = .next t) : s.Frame t (xbkWrites s.xmode) := by
  obtain ⟨_, rfl⟩ | ⟨w, _, byte⟩ := xbkRxEvent_cases h
  · exact finish_frame.mono (by simp)
  · exact byte.frame

/-- R36, the rows of the RX events, by the mode of the active command. -/
theorem rxPort_frame {ev : RxEvent} (h : rxPort ev s = .next t) : s.Frame t (eventWriteSet s) := by
  cases m : s.rxmode with
  | idle =>
    rw [rxPort, m] at h
    cases h
  | hdr =>
    rw [rxPort, m] at h
    rw [eventWriteSet, m]
    exact hdrRxEvent_frame h
  | spk =>
    rw [rxPort, m] at h
    rw [eventWriteSet, m]
    exact spkRxEvent_frame h
  | xbk =>
    rw [rxPort, m] at h
    rw [eventWriteSet, m]
    exact xbkRxEvent_frame h

/-- Settles O20, by the cases of an event of each receive command. -/
theorem eventWriteSets : Obligations.EventWriteSets := fun _ _ _ h => rxPort_frame h

end

end Sys2Proof.Machine
end

section
/-! The invariant (10_state R30, 20_memory R42, 60_exceptions R181, R182): every step keeps it. -/

namespace Sys2Proof.Machine

/-! ### Storage -/

/-- The invariant without the outcome and the position of the command: what is left of it between the last move of a
counter and the completion that follows. -/
structure State.Sound (s : State) : Prop where
  canonical : s.pbuf.wf
  inside : ∀ c ∈ s.pbuf, c.1 < s.pbufSize.bytes
  received : ∀ a < s.rxlen.toNat, (s.pbuf.read a).isSome
  cancelRun : s.cancnt.toNat ≤ 5

namespace State

variable {s t : State}

theorem Inv.sound (h : s.Inv) : s.Sound := ⟨h.canonical, h.inside, h.received, h.cancelRun⟩

theorem Sound.inv (h : s.Sound) (cause : s.cause ≠ .none ↔ s.outcome = .corrupt)
    (failed : s.outcome ≠ .none → s.outcome ≠ .ok → s.res = 0) (active : s.rxmode ≠ .idle → s.outcome = .none)
    (position : s.Position) : s.Inv :=
  ⟨h.canonical, h.inside, h.received, h.cancelRun, cause, failed, active, position⟩

/-- An operation that leaves PBUF alone, and RXLEN and CANCNT alone or inside their bounds. -/
theorem Sound.congr (h : s.Sound) (cancnt : t.cancnt = s.cancnt ∨ t.cancnt.toNat ≤ 5 := by simp)
    (pbuf : t.pbuf = s.pbuf := by simp) (size : t.pbufSize = s.pbufSize := by simp)
    (rxlen : t.rxlen.toNat ≤ s.rxlen.toNat := by simp) : t.Sound where
  canonical := pbuf ▸ h.canonical
  inside := by rw [pbuf, size]; exact h.inside
  received a ha := by rw [pbuf]; exact h.received a (Nat.lt_of_lt_of_le ha rxlen)
  cancelRun := cancnt.elim (· ▸ h.cancelRun) id

/-- An operation that stores one byte of PBUF, at an address RXLEN may come to cover. -/
theorem Sound.store (h : s.Sound) {a : Nat} (b : Byte) (ha : a < s.size)
    (rxlen : ∀ x < t.rxlen.toNat, x = a ∨ x < s.rxlen.toNat)
    (cancnt : t.cancnt = s.cancnt ∨ t.cancnt.toNat ≤ 5 := by simp) (pbuf : t.pbuf = s.pbuf.write a b := by simp)
    (size : t.pbufSize = s.pbufSize := by simp) : t.Sound where
  canonical := pbuf ▸ Memory.wf_write h.canonical a b
  inside := by rw [pbuf, size]; exact Memory.inside_write h.inside ha b
  received x hx := by
    rw [pbuf, Memory.read_write]
    split
    · rfl
    · exact h.received x ((rxlen x hx).resolve_left ‹_›)
  cancelRun := cancnt.elim (· ▸ h.cancelRun) id

/-- The byte at PBUF[IDX] of a receive command: RXLEN moves past it. -/
theorem Sound.receive (h : s.Sound) (b : Byte) (ha : s.idx.toNat < s.size) (count : s.rxlen = s.idx)
    (cancnt : t.cancnt = s.cancnt ∨ t.cancnt.toNat ≤ 5 := by simp) (rxlen : t.rxlen = s.idx + 1 := by simp)
    (pbuf : t.pbuf = s.pbuf.write s.idx.toNat b := by simp) (size : t.pbufSize = s.pbufSize := by simp) : t.Sound := by
  refine h.store b ha (fun x hx => ?_) cancnt pbuf size
  rw [rxlen] at hx
  rw [count]
  bv_omega

theorem Sound.countCancel (h : s.Sound) (w : Byte) : (s.countCancel w).Sound :=
  h.congr (.inr (toNat_cancelRun_le _ w))

theorem Sound.escDec (h : s.Sound) (w : Byte) : (s.escDec w).2.Sound := h.congr (.inr (toNat_cancelRun_le _ w))

theorem Sound.clearCancel (h : s.Sound) : { s with cancnt := 0 }.Sound := h.congr

/-! ### Completion and acceptance -/

/-- A completion meets the invariant, wherever the command stood, if CAUSE and RES fit the outcome (R181, R182). -/
theorem Sound.finish (h : s.Sound) {o : CmdOutcome} {c : Cause} {r : Word} (cause : c ≠ .none ↔ o = .corrupt)
    (failed : o ≠ .none → o ≠ .ok → r = 0) : (s.finish o c r).Inv :=
  Sound.inv h.congr cause failed (by simp) trivial

/-- A command that completes Ok after an operation as in `Sound.congr`. -/
theorem Sound.finishOk (h : s.Sound) {r : Word} (cancnt : t.cancnt = s.cancnt ∨ t.cancnt.toNat ≤ 5 := by simp)
    (pbuf : t.pbuf = s.pbuf := by simp) (size : t.pbufSize = s.pbufSize := by simp)
    (rxlen : t.rxlen.toNat ≤ s.rxlen.toNat := by simp) : (t.finish .ok .none r).Inv :=
  (h.congr cancnt pbuf size rxlen).finish (by simp) (by simp)

theorem Sound.finishZero (h : s.Sound) {o : CmdOutcome} {c : Cause}
    (cause : c ≠ .none ↔ o = .corrupt := by decide) : (s.finish o c 0).Inv := h.finish cause fun _ _ => rfl

theorem Sound.finishCheck (h : s.Sound) (ok : Bool) : (s.finishCheck ok).Inv := by
  cases ok
  · exact h.finishZero
  · exact h.finishZero

theorem Sound.hdrFinish (h : s.Sound) : (hdrFinish s).Inv := by
  obtain ⟨_, e⟩ | ⟨_, e⟩ := hdrFinish_cases s <;> rw [e]
  · have accepted : Sound { s with
        htype := s.hbuf[0], hval := ofLe s.hbuf[1] s.hbuf[2] s.hbuf[3] s.hbuf[4], henc := s.rxenc } := h.congr
    exact accepted.finishZero
  · exact h.finishZero

/-- A command that is, or has become, active. -/
theorem Sound.active (h : t.Sound) (position : t.Position) (outcome : t.outcome = .none := by simp)
    (cause : t.cause = .none := by simp) : t.Inv :=
  h.inv (by simp [outcome, cause]) (by simp [outcome]) (fun _ => outcome) position

/-- While a streaming command is active OUTCOME and CAUSE are None. -/
theorem Inv.pending (h : s.Inv) (m : s.rxmode ≠ .idle) : s.outcome = .none ∧ s.cause = .none := by
  have ho := h.active m
  refine ⟨ho, Decidable.byContradiction fun hc => ?_⟩
  cases ho ▸ h.cause.mp hc

/-- The invariant reads neither the agenda nor the TX queue nor the reply log. -/
theorem Inv.outside (h : s.Inv) (agenda : List PortStep) (txq : List Byte) (replies : List Reply) :
    { s with agenda := agenda, txq := txq, replies := replies }.Inv :=
  Sound.inv h.sound.congr h.cause h.failed h.active h.position

/-- What the host does to an idle unit through the register and PBUF ports leaves the outcome alone. -/
theorem Inv.idle (h : s.Inv) (m : t.rxmode = .idle) (sound : t.Sound) (outcome : t.outcome = s.outcome)
    (cause : t.cause = s.cause) (res : t.res = s.res) : t.Inv :=
  sound.inv (by rw [outcome, cause]; exact h.cause) (by rw [outcome, res]; exact h.failed) (fun busy => absurd m busy)
    (by simp [Position, m])

end State

/-! ### Commands -/

section
variable {s t : State}

theorem hdrTxHex_inv (h : s.Inv) : (hdrTxHex s).Inv :=
  h.sound.finishOk

theorem hdrTxBin_inv (h : s.Inv) (enc : HdrEnc) : (hdrTxBin enc s).Inv :=
  h.sound.finishOk

theorem execHdrTx_inv (h : s.Inv) {enc : HdrEnc} (e : execHdrTx enc s = .next t) : t.Inv := by
  cases enc with
  | bin16 => cases e; exact hdrTxBin_inv h .bin16
  | hex => cases e; exact hdrTxHex_inv h
  | bin32 => cases e; exact hdrTxBin_inv h .bin32
  | reserved => cases e; exact h.sound.finishZero

theorem spkSend_inv (h : s.Inv) (enc : HdrEnc) (fe : FrameEnd) (len : Nat) : (spkSend enc fe len s).Inv :=
  h.sound.finishOk

theorem xbkSend_inv (h : s.Inv) (mode : CheckMode) (len : Nat) : (xbkSend mode len s).Inv :=
  h.sound.finishOk

/-- An accepted HDR.RX stands in phase HUNT (42_header R123). -/
theorem activate_hdr_inv (h : s.Inv) : (s.activate .hdr).Inv :=
  State.Sound.active h.sound.congr (by simp [State.Position, phaseBody])

theorem State.spkRxBad_eq_false {maxlen : Nat} :
    s.spkRxBad maxlen = false ↔ s.henc ≠ .reserved ∧ maxlen ≤ s.size := by
  simp [State.spkRxBad]

/-- An accepted SPK.RX stands in phase DATA with no byte received, and RXMAX inside PBUF (43_subpacket R146). -/
theorem spkStart_inv (h : s.Inv) {maxlen : Nat} (fits : s.spkRxBad maxlen = false) : (spkStart maxlen s).Inv := by
  have room : maxlen % 65536 ≤ s.pbufSize.bytes :=
    (Nat.mod_le ..).trans (State.spkRxBad_eq_false.mp fits).2
  have sound : (spkStart maxlen s).Sound := by
    unfold spkStart
    exact h.sound.congr
  exact sound.active (by simpa [State.Position, spkStart, phaseSpkTrail] using room) (by simp [spkStart])
    (by simp [spkStart])

/-- An accepted XBK.RX stands in phase START with no byte received (44_xblock R160). -/
theorem execXbkRx_inv (h : s.Inv) {mode : CheckMode} (e : execXbkRx mode s = .next t) : t.Inv := by
  cases e
  exact State.Sound.active h.sound.congr (by simp [State.Position, phaseXbkData, phaseXbkTrail])

theorem exec_inv (h : s.Inv) {i : Instr} (e : exec i s = .next t) : t.Inv := by
  cases i with
  | rst => cases e; exact h.sound.finishOk (.inr (by simp [State.reset])) (rxlen := by simp [State.reset])
  | crc16Init => cases e; exact h.sound.finishOk
  | crc16Upd byte => cases e; exact h.sound.finishOk
  | crc16Fin => cases e; exact h.sound.finishOk
  | crc32Init => cases e; exact h.sound.finishOk
  | crc32Upd byte => cases e; exact h.sound.finishOk
  | crc32Fin => cases e; exact h.sound.finishOk
  | sum8Init => cases e; exact h.sound.finishOk
  | sum8Upd byte => cases e; exact h.sound.finishOk
  | escRst => cases e; exact h.sound.finishOk
  | escEnc byte => cases e; exact h.sound.finishOk
  | escDec byte => cases e; exact h.sound.finishOk (.inr (toNat_cancelRun_le _ byte))
  | hdrTx enc => exact execHdrTx_inv h e
  | hdrRx => cases e; exact activate_hdr_inv h
  | spkTx enc fe len =>
    obtain ⟨_, rfl⟩ | ⟨_, rfl⟩ := execSpkTx_next e
    · exact h.sound.finishZero
    · exact spkSend_inv h enc fe len
  | spkRx maxlen =>
    obtain ⟨_, rfl⟩ | ⟨fits, rfl⟩ := execSpkRx_next e
    · exact h.sound.finishZero
    · exact spkStart_inv h fits
  | xbkTx mode len =>
    obtain ⟨_, rfl⟩ | ⟨_, rfl⟩ := execXbkTx_next e
    · exact h.sound.finishZero
    · exact xbkSend_inv h mode len
  | xbkRx mode => exact execXbkRx_inv h e

/-! ### RX events of HDR.RX -/

theorem bodyLength_pos_of_encOfFormat {w : Byte} {enc : HdrEnc} (h : encOfFormat w = some enc) :
    0 < bodyLength enc := by
  have named : enc ≠ .reserved := by
    rintro rfl
    unfold encOfFormat at h
    repeat' split at h
    all_goals cases h
  cases enc <;> simp [bodyLength] at named ⊢

/-- In a raw phase before the body HDR mode has no bound to keep. -/
theorem State.position_hdr_of_hunting (m : s.rxmode = .hdr)
    (p : s.phase = phaseHunt ∨ s.phase = phasePad ∨ s.phase = phaseFmt) : s.Position := by
  unfold State.Position
  rw [m]
  rcases p with p | p | p <;> simp [p, phaseHunt, phasePad, phaseFmt, phaseBody]

theorem State.position_hdr_of_body (m : s.rxmode = .hdr) (p : s.phase = phaseBody)
    (width : s.rxc32 = (s.rxenc == .bin32)) (more : s.idx.toNat < bodyLength s.rxenc) : s.Position := by
  unfold State.Position
  rw [m]
  exact ⟨by rw [p]; decide, fun _ => ⟨width, more⟩⟩

theorem startBody_position {w : Byte} {enc : HdrEnc} (m : s.rxmode = .hdr) (h : encOfFormat w = some enc) :
    (startBody enc s).Position :=
  State.position_hdr_of_body (by simpa [startBody] using m) (by simp [startBody]) (by simp [startBody, wideCheck])
    (by simpa [startBody] using bodyLength_pos_of_encOfFormat h)

theorem State.Sound.startBody (h : s.Sound) (enc : HdrEnc) : (startBody enc s).Sound := by
  unfold Machine.startBody
  exact h.congr

/-- A body digit or byte that is not the last leaves IDX below the length of the body (42_header R127, R130). -/
theorem State.Inv.nextOfBody (h : s.Inv) (m : s.rxmode = .hdr) (p : s.phase = phaseBody)
    (more : s.idx.toNat + 1 < bodyLength s.rxenc) {hbuf : Vector Byte 9} {c16 : Half} {c32 : Word} {escp : Bool}
    {cancnt : BitVec 3} (run : cancnt.toNat ≤ 5) :
    { s with hbuf := hbuf, crc16 := c16, crc32 := c32, escp := escp, cancnt := cancnt, idx := s.idx + 1 }.Inv := by
  obtain ⟨ho, hc⟩ := h.pending (by simp [m])
  obtain ⟨width, _⟩ := (h.inHdr m).2 p
  refine State.Sound.active (h.sound.congr (.inr run)) (State.position_hdr_of_body m p width ?_) ho hc
  have le := Nat.mod_le (s.idx.toNat + 1) 65536
  simp
  omega

theorem hdrAfterLowDigit_eq (s : State) (j : Nat) (hj : j < 9) (b : Byte) : ∃ c16, hdrAfterLowDigit s j hj b =
    { s with hbuf := s.hbuf.set j b, crc16 := c16, idx := s.idx + 1 } := by
  unfold hdrAfterLowDigit
  split
  · exact ⟨_, rfl⟩
  · exact ⟨_, rfl⟩

theorem hdrAfterBodyByte_eq (s : State) (hj : s.idx.toNat < 9) (b : Byte) : ∃ c16 c32, hdrAfterBodyByte s hj b =
    { s with hbuf := s.hbuf.set s.idx.toNat b, crc16 := c16, crc32 := c32, idx := s.idx + 1 } := by
  unfold hdrAfterBodyByte State.foldCheck
  split
  · split
    · exact ⟨_, _, rfl⟩
    · exact ⟨_, _, rfl⟩
  · exact ⟨_, _, rfl⟩

theorem State.Sound.hdrAfterLowDigit (h : s.Sound) (j : Nat) (hj : j < 9) (b : Byte) :
    (hdrAfterLowDigit s j hj b).Sound := by
  obtain ⟨c16, e⟩ := hdrAfterLowDigit_eq s j hj b
  rw [e]
  exact h.congr

theorem State.Sound.hdrAfterBodyByte (h : s.Sound) (hj : s.idx.toNat < 9) (b : Byte) :
    (hdrAfterBodyByte s hj b).Sound := by
  obtain ⟨c16, c32, e⟩ := hdrAfterBodyByte_eq s hj b
  rw [e]
  exact h.congr

theorem HdrRawCase.inv {w : Byte} (h : s.Inv) (m : s.rxmode = .hdr) (c : HdrRawCase w s t) : t.Inv := by
  have counted := h.sound.countCancel w
  obtain ⟨ho, hc⟩ := h.pending (by simp [m])
  cases c with
  | abort => exact counted.finishZero
  | hunt p hp => exact State.Sound.active counted.congr (State.position_hdr_of_hunting m hp) ho hc
  | start enc _ hf =>
    exact (counted.startBody enc).active (startBody_position m hf) (by simpa [startBody] using ho)
      (by simpa [startBody] using hc)
  | badDigit => exact counted.finishZero
  | highDigit d hp he _ hi =>
    have below := ((h.inHdr m).2 hp).2
    exact h.nextOfBody m hp (by simp [he, bodyLength] at below ⊢; omega) counted.cancelRun
  | lowDigit d hp he _ hi hj hl =>
    have below := ((h.inHdr m).2 hp).2
    obtain ⟨c16, e⟩ := hdrAfterLowDigit_eq (s.countCancel w) (s.idx.toNat / 2) hj
      (s.hbuf[s.idx.toNat / 2] ||| d.setWidth 8)
    rw [e]
    refine h.nextOfBody m hp ?_ counted.cancelRun
    simp [he, bodyLength] at below ⊢
    bv_omega
  | lastDigit => exact (counted.hdrAfterLowDigit ..).hdrFinish

theorem HdrBinCase.inv {w : Byte} (h : s.Inv) (m : s.rxmode = .hdr) (hp : s.phase = phaseBody) (he : s.rxenc ≠ .hex)
    (c : HdrBinCase w s t) : t.Inv := by
  have decoded := h.sound.escDec w
  obtain ⟨ho, hc⟩ := h.pending (by simp [m])
  cases c with
  | abort => exact decoded.finishZero
  | escape => exact decoded.active h.position ho hc
  | frameEnd => exact decoded.finishZero
  | badEscape => exact decoded.finishZero
  | more b _ hj hl =>
    obtain ⟨width, below⟩ := (h.inHdr m).2 hp
    obtain ⟨c16, c32, e⟩ := hdrAfterBodyByte_eq (s.escDec w).2 hj b
    rw [e]
    refine h.nextOfBody m hp ?_ decoded.cancelRun
    cases he' : s.rxenc with
    | hex => exact absurd he' he
    | bin16 => simp [width, he', bodyLength] at below hl ⊢; bv_omega
    | bin32 => simp [width, he', bodyLength] at below hl ⊢; bv_omega
    | reserved => simp [he', bodyLength] at below
  | last => exact (decoded.hdrAfterBodyByte ..).hdrFinish

theorem hdrRxEvent_inv (h : s.Inv) (m : s.rxmode = .hdr) {ev : RxEvent} (e : hdrRxEvent ev s = .next t) : t.Inv := by
  obtain ⟨_, rfl⟩ | ⟨w, _, ⟨_, raw⟩ | ⟨hp, he, bin⟩⟩ := hdrRxEvent_cases e
  · exact h.sound.finishZero
  · exact raw.inv h m
  · exact bin.inv h m hp he

/-! ### RX events of SPK.RX -/

theorem State.position_spk (m : s.rxmode = .spk) (phase : s.phase.toNat ≤ 1) (count : s.rxlen = s.idx)
    (room : s.idx.toNat ≤ s.rxmax.toNat) (fits : s.rxmax.toNat ≤ s.pbufSize.bytes)
    (trail : s.phase = phaseSpkTrail → s.tidx.toNat < if s.rxc32 then 4 else 2) : s.Position := by
  unfold State.Position
  rw [m]
  exact ⟨phase, count, room, fits, trail⟩

/-- SPK mode has two phases (10_state R28). -/
theorem spkTrail_of_not_data (phase : s.phase.toNat ≤ 1) (h : s.phase ≠ phaseSpkData) :
    s.phase = phaseSpkTrail := by
  simp [phaseSpkData, phaseSpkTrail] at h ⊢
  bv_omega

theorem SpkCase.inv {w : Byte} (h : s.Inv) (m : s.rxmode = .spk) (c : SpkCase w s t) : t.Inv := by
  have decoded := h.sound.escDec w
  obtain ⟨ho, hc⟩ := h.pending (by simp [m])
  obtain ⟨phase, count, room, fits, trail⟩ := h.inSpk m
  cases c with
  | abort => exact decoded.finishZero
  | escape => exact decoded.active h.position ho hc
  | badEscape => exact decoded.finishZero
  | overrun => exact decoded.finishZero
  | payload b _ hp hi ha =>
    refine State.Sound.active (decoded.receive b ha count) ?_ (by simpa using ho) (by simpa using hc)
    refine State.position_spk (by simpa using m) (by simpa using phase) (by simp) ?_ (by simpa using fits)
      (by simp [hp, phaseSpkData, phaseSpkTrail])
    simp
    bv_omega
  | trailer b _ hp _ hl =>
    refine State.Sound.active decoded.congr ?_ ho hc
    refine State.position_spk m phase count room fits fun _ => ?_
    have := trail (spkTrail_of_not_data phase hp)
    cases hw : s.rxc32 <;> simp [hw] at this hl ⊢ <;> bv_omega
  | last => exact State.Sound.finishCheck decoded.congr _
  | frameEnd fe =>
    refine State.Sound.active decoded.congr ?_ (by simpa using ho) (by simpa using hc)
    exact State.position_spk (by simpa using m) (by simp [phaseSpkTrail]) (by simpa using count) (by simpa using room)
      (by simpa using fits) (by simp; split <;> omega)
  | strayFrameEnd => exact decoded.finishZero

theorem spkRxEvent_inv (h : s.Inv) (m : s.rxmode = .spk) {ev : RxEvent} (e : spkRxEvent ev s = .next t) : t.Inv := by
  obtain ⟨_, rfl⟩ | ⟨w, _, byte⟩ := spkRxEvent_cases e
  · exact h.sound.finishZero
  · exact byte.inv h m

/-! ### RX events of XBK.RX -/

theorem State.position_xbk (m : s.rxmode = .xbk) (phase : s.phase.toNat ≤ 4) (count : s.rxlen = s.idx)
    (before : s.phase.toNat < 3 → s.idx = 0) (data : s.phase = phaseXbkData → s.idx.toNat < 128)
    (trail : s.phase = phaseXbkTrail → s.idx = 128 ∧ s.tidx.toNat < 2) : s.Position := by
  unfold State.Position
  rw [m]
  exact ⟨phase, count, before, data, trail⟩

theorem State.Sound.xbkAfterPayloadByte (h : s.Sound) (w : Byte) (ha : s.idx.toNat < s.size)
    (count : s.rxlen = s.idx) : (xbkAfterPayloadByte s w).Sound := by
  unfold Machine.xbkAfterPayloadByte
  exact h.receive w ha count

theorem XbkCase.inv {w : Byte} (h : s.Inv) (m : s.rxmode = .xbk) (c : XbkCase w s t) : t.Inv := by
  have counted := h.sound.countCancel w
  have cleared := h.sound.clearCancel
  obtain ⟨ho, hc⟩ := h.pending (by simp [m])
  obtain ⟨phase, count, before, data, trail⟩ := h.inXbk m
  cases c with
  | abort => exact counted.finishZero
  | start hp =>
    refine State.Sound.active counted.congr ?_ ho hc
    exact State.position_xbk m (by simp [phaseBlk]) count (fun _ => before (by simp [hp, phaseStart]))
      (by simp [phaseBlk, phaseXbkData]) (by simp [phaseBlk, phaseXbkTrail])
  | ended => exact counted.finishZero
  | cancel => exact counted.active h.position ho hc
  | badStart => exact counted.finishZero
  | number hp =>
    refine State.Sound.active cleared.congr ?_ ho hc
    exact State.position_xbk m (by simp [phaseCblk]) count (fun _ => before (by simp [hp, phaseBlk]))
      (by simp [phaseCblk, phaseXbkData]) (by simp [phaseCblk, phaseXbkTrail])
  | complement hp =>
    refine State.Sound.active cleared.congr ?_ ho hc
    exact State.position_xbk m (by simp [phaseXbkData]) (count.trans (before (by simp [hp, phaseCblk])))
      (by simp) (by simp) (by simp [phaseXbkData, phaseXbkTrail])
  | badComplement => exact cleared.finishZero
  | payload hp ha hl =>
    have below := data hp
    refine State.Sound.active (h.sound.xbkAfterPayloadByte w ha count) ?_ (by simpa [xbkAfterPayloadByte] using ho)
      (by simpa [xbkAfterPayloadByte] using hc)
    apply State.position_xbk <;> simp [xbkAfterPayloadByte, m, hp, phaseXbkData, phaseXbkTrail]
    bv_omega
  | lastPayload hp ha hl =>
    have sound := h.sound.xbkAfterPayloadByte w ha count
    refine State.Sound.active sound.congr ?_ (by simpa [xbkAfterPayloadByte] using ho)
      (by simpa [xbkAfterPayloadByte] using hc)
    apply State.position_xbk <;> simp [xbkAfterPayloadByte, m, phaseXbkData, phaseXbkTrail]
    exact hl
  | sum => exact cleared.finishCheck _
  | crcHigh hp _ _ hl =>
    refine State.Sound.active cleared.congr ?_ ho hc
    refine State.position_xbk m phase count before data fun _ => ?_
    obtain ⟨full, below⟩ := trail hp
    exact ⟨full, by bv_omega⟩
  | crcLow => exact State.Sound.finishCheck cleared.congr _

theorem xbkRxEvent_inv (h : s.Inv) (m : s.rxmode = .xbk) {ev : RxEvent} (e : xbkRxEvent ev s = .next t) : t.Inv := by
  obtain ⟨_, rfl⟩ | ⟨w, _, byte⟩ := xbkRxEvent_cases e
  · exact h.sound.finishZero
  · exact byte.inv h m

/-! ### Ports -/

theorem rxPort_inv (h : s.Inv) {ev : RxEvent} (e : rxPort ev s = .next t) : t.Inv := by
  unfold rxPort at e
  split at e
  · cases e
  · exact hdrRxEvent_inv h ‹_› e
  · exact spkRxEvent_inv h ‹_› e
  · exact xbkRxEvent_inv h ‹_› e

/-- A register write changes no result, no mode and no buffer (45_system R173). -/
theorem State.regStore_kept (s : State) (n : Nat) (v : Word) :
    (s.regStore n v).rxmode = s.rxmode ∧ (s.regStore n v).outcome = s.outcome ∧ (s.regStore n v).cause = s.cause
      ∧ (s.regStore n v).res = s.res ∧ (s.regStore n v).pbuf = s.pbuf ∧ (s.regStore n v).pbufSize = s.pbufSize
      ∧ (s.regStore n v).rxlen = s.rxlen := by
  unfold State.regStore
  split <;> exact ⟨rfl, rfl, rfl, rfl, rfl, rfl, rfl⟩

/-- A register write clamps CANCNT or leaves it (10_state R22). -/
theorem State.regStore_cancnt (s : State) (n : Nat) (v : Word) :
    (s.regStore n v).cancnt = s.cancnt ∨ (s.regStore n v).cancnt.toNat ≤ 5 := by
  unfold State.regStore
  split
  case h_7 => exact .inr (by simp [State.writeEscst]; omega)
  all_goals exact .inl rfl

theorem not_busy_iff : ¬ s.busy = true ↔ s.rxmode = .idle := by
  simp [State.busy_iff]

theorem registerWritePort_inv (h : s.Inv) {n : Nat} {v : Word} (e : registerWritePort n v s = .next t) : t.Inv := by
  unfold registerWritePort at e
  split at e <;> cases e
  obtain ⟨mode, outcome, cause, res, pbuf, size, rxlen⟩ := s.regStore_kept n v
  have sound := h.sound.congr (s.regStore_cancnt n v) pbuf size (by rw [rxlen])
  exact h.idle (mode.trans (not_busy_iff.mp ‹_›)) sound outcome cause res

theorem bufferReadPort_inv (h : s.Inv) {a : Nat} (e : bufferReadPort a s = .next t) : t.Inv := by
  unfold bufferReadPort at e
  split at e
  · cases e
  · split at e <;> cases e
    exact h.outside _ _ _

theorem bufferWritePort_inv (h : s.Inv) {a : Nat} {b : Byte} (e : bufferWritePort a b s = .next t) : t.Inv := by
  unfold bufferWritePort at e
  split at e
  · cases e
  · split at e <;> cases e
    exact h.idle (not_busy_iff.mp ‹_›) (h.sound.store b ‹_› fun _ => .inr) rfl rfl rfl

theorem txPort_inv (h : s.Inv) (e : txPort s = .next t) : t.Inv := by
  unfold txPort at e
  split at e <;> cases e
  exact h.outside _ _ _

theorem commandPort_inv (h : s.Inv) {w : Word} (e : commandPort w s = .next t) : t.Inv := by
  unfold commandPort at e
  split at e
  · split at e
    · exact exec_inv h e
    · cases e
      exact h.sound.finishZero
  · cases e

/-- Hardware reset unlists every byte of PBUF and clears RXLEN (70_reset R200). -/
theorem State.hardReset_inv (s : State) : s.hardReset.Inv := by
  have sound : s.hardReset.Sound :=
    ⟨reset_inv.canonical, by simp [State.hardReset, State.reset], reset_inv.received, reset_inv.cancelRun⟩
  exact sound.inv reset_inv.cause reset_inv.failed reset_inv.active reset_inv.position

theorem portStep_inv (h : s.Inv) {p : PortStep} (e : portStep p s = .next t) : t.Inv := by
  cases p with
  | cmd w => exact commandPort_inv h e
  | regRead n => cases e; exact h.outside _ _ _
  | regWrite n v => exact registerWritePort_inv h e
  | bufRead a => exact bufferReadPort_inv h e
  | bufWrite a b => exact bufferWritePort_inv h e
  | rx ev => exact rxPort_inv h e
  | txTake => exact txPort_inv h e
  | hardReset => cases e; exact s.hardReset_inv

/-- Settles O58, port by port, on the state whose agenda has moved on. -/
theorem stepKeepsInvariant : Obligations.StepKeepsInvariant := by
  intro s t h e
  unfold step at e
  split at e
  · cases e
  · exact portStep_inv (h.outside _ s.txq s.replies) e

end

end Sys2Proof.Machine
end

section
/-! Under the invariant every step has a defined effect or is refused (10_state R30, 20_memory R41). -/

namespace Sys2Proof.Machine

variable {s : State}

/-- Every command has an effect in every state. -/
theorem exec_defined (i : Instr) (s : State) : ∃ t, exec i s = .next t := by
  cases i with
  | hdrTx enc =>
    simp only [exec, execHdrTx]
    split
    · exact ⟨_, rfl⟩
    · split <;> exact ⟨_, rfl⟩
  | spkTx enc fe len => simp only [exec, execSpkTx]; split <;> exact ⟨_, rfl⟩
  | spkRx maxlen => simp only [exec, execSpkRx]; split <;> exact ⟨_, rfl⟩
  | xbkTx mode len => simp only [exec, execXbkTx]; split <;> exact ⟨_, rfl⟩
  | _ => exact ⟨_, rfl⟩

/-! ### RX events -/

theorem hdrHexBody_defined (w : Byte) (h : s.idx.toNat < 14) : ∃ t, hdrHexBody w s = .next t := by
  unfold hdrHexBody
  split
  · exact ⟨_, rfl⟩
  · split
    · exact ⟨_, rfl⟩
    · rename_i d _
      rcases Nat.mod_two_eq_zero_or_one s.idx.toNat with high | low
      · exact ⟨_, hdrHexDigit_high d high (by omega)⟩
      · exact ⟨_, hdrHexDigit_low d low (by omega)⟩

theorem hdrRawByte_defined (w : Byte) (h : s.phase = phaseBody → s.idx.toNat < 14) (p : s.phase.toNat ≤ 3) :
    ∃ t, hdrRawByte w s = .next t := by
  unfold hdrRawByte
  split
  · exact ⟨_, rfl⟩
  · split
    · exact ⟨_, rfl⟩
    · split
      · exact ⟨_, rfl⟩
      · refine hdrHexBody_defined w (h ?_)
        simp only [phaseHunt, phasePad, phaseFmt, phaseBody] at *
        bv_omega

theorem hdrBinBody_defined (w : Byte) (h : s.idx.toNat < 9) : ∃ t, hdrBinBody w s = .next t := by
  unfold hdrBinBody
  simp only
  split
  case h_5 => exact ⟨_, hdrBinByte_eq (s := (s.escDec w).2) _ h⟩
  all_goals exact ⟨_, rfl⟩

theorem bodyLength_le_nine {enc : HdrEnc} (h : enc ≠ .hex) : bodyLength enc ≤ 9 := by
  cases enc <;> simp [bodyLength] at h ⊢

/-- In HDR mode the phase is one that R28 names, and IDX is inside HBUF (R31). -/
theorem hdrRxEvent_defined (h : s.Inv) (m : s.rxmode = .hdr) (ev : RxEvent) : ∃ t, hdrRxEvent ev s = .next t := by
  obtain ⟨phase, body⟩ := h.inHdr m
  cases ev with
  | timeout => exact ⟨_, rfl⟩
  | byte w =>
    by_cases raw : hdrRaw s = true
    · by_cases fifth : cancelRun s.cancnt w = 5
      · exact ⟨_, hdrRxEvent_of_fifth raw fifth⟩
      · rw [hdrRxEvent_of_raw raw fifth]
        refine hdrRawByte_defined w (fun hp => ?_) phase
        have hp : s.phase = phaseBody := hp
        have hex : s.rxenc = .hex := by
          simpa [hdrRaw, hp, phaseHunt, phasePad, phaseFmt, phaseBody] using raw
        simpa [hex, bodyLength] using (body hp).2
    · have hp : s.phase = phaseBody := by
        simp [hdrRaw, phaseHunt, phasePad, phaseFmt, phaseBody] at raw ⊢
        bv_omega
      have binary : s.rxenc ≠ .hex := by
        rintro hex
        simp [hdrRaw, hp, hex] at raw
      rw [hdrRxEvent_of_binary hp binary]
      exact hdrBinBody_defined w ((body hp).2.trans_le (bodyLength_le_nine binary))

theorem spkData_defined (b : Byte) (room : s.idx.toNat ≤ s.rxmax.toNat) (fits : s.rxmax.toNat ≤ s.size) :
    ∃ t, spkData b s = .next t := by
  by_cases full : s.idx = s.rxmax
  · exact ⟨_, spkData_of_full b full⟩
  · exact ⟨_, spkData_of_room b full (by bv_omega)⟩

/-- In SPK mode IDX is inside PBUF until the subpacket is full, and TIDX is inside TBUF (R41, R32). -/
theorem spkRxEvent_defined (h : s.Inv) (m : s.rxmode = .spk) (ev : RxEvent) : ∃ t, spkRxEvent ev s = .next t := by
  obtain ⟨phase, _, room, fits, trail⟩ := h.inSpk m
  cases ev with
  | timeout => exact ⟨_, rfl⟩
  | byte w =>
    unfold spkRxEvent
    simp only
    split
    case h_4 b _ =>
      split
      · exact spkData_defined (s := (s.escDec w).2) b room fits
      · have inTbuf : s.tidx.toNat < 4 := (trail (spkTrail_of_not_data phase ‹_›)).trans_le (by split <;> omega)
        exact ⟨_, spkTrail_eq (s := (s.escDec w).2) b inTbuf⟩
    all_goals exact ⟨_, rfl⟩

theorem xbkData_defined (w : Byte) (h : s.idx.toNat < s.size) : ∃ t, xbkData w s = .next t := by
  rw [xbkData, State.storePbuf_of_lt _ _ h]
  exact ⟨_, rfl⟩

theorem xbkTrail_defined (w : Byte) (h : s.tidx.toNat < 4) : ∃ t, xbkTrail w s = .next t := by
  unfold xbkTrail
  split
  · exact ⟨_, rfl⟩
  · rw [State.storeTbuf_of_lt _ _ h]
    exact ⟨_, rfl⟩

/-- After START the phase is one that R28 names, IDX is inside the 128 bytes every PBUF has, and TIDX is inside TBUF. -/
theorem xbkInBlock_defined (w : Byte) (phase : s.phase.toNat ≤ 4) (started : s.phase ≠ phaseStart)
    (data : s.phase = phaseXbkData → s.idx.toNat < 128) (trail : s.phase = phaseXbkTrail → s.tidx.toNat < 4) :
    ∃ t, xbkInBlock w s = .next t := by
  unfold xbkInBlock
  split
  · exact ⟨_, rfl⟩
  · split
    · exact ⟨_, rfl⟩
    · split
      · exact xbkData_defined w ((data ‹_›).trans_le s.pbufSize.atLeast)
      · split
        · exact xbkTrail_defined w (trail ‹_›)
        · simp only [phaseStart, phaseBlk, phaseCblk, phaseXbkData, phaseXbkTrail] at *
          bv_omega

theorem xbkRxEvent_defined (h : s.Inv) (m : s.rxmode = .xbk) (ev : RxEvent) : ∃ t, xbkRxEvent ev s = .next t := by
  obtain ⟨phase, _, _, data, trail⟩ := h.inXbk m
  cases ev with
  | timeout => exact ⟨_, rfl⟩
  | byte w =>
    unfold xbkRxEvent
    simp only
    split
    · exact ⟨_, rfl⟩
    · exact xbkInBlock_defined w phase ‹_› data fun hp => (trail hp).2.trans (by omega)

/-! ### Ports -/

/-- A result that is no fault. -/
theorem ne_fault_of_next {r : Result} (h : ∃ t, r = .next t) (f : Fault) : r ≠ .fault f := by
  obtain ⟨t, rfl⟩ := h
  simp

theorem rxPort_ne_fault (h : s.Inv) (ev : RxEvent) (f : Fault) : rxPort ev s ≠ .fault f := by
  unfold rxPort
  split
  · simp
  · exact ne_fault_of_next (hdrRxEvent_defined h ‹_› ev) f
  · exact ne_fault_of_next (spkRxEvent_defined h ‹_› ev) f
  · exact ne_fault_of_next (xbkRxEvent_defined h ‹_› ev) f

theorem commandPort_ne_fault (w : Word) (s : State) (f : Fault) : commandPort w s ≠ .fault f := by
  unfold commandPort
  split
  · split
    · exact ne_fault_of_next (exec_defined _ s) f
    · simp
  · simp

theorem registerWritePort_ne_fault (n : Nat) (v : Word) (s : State) (f : Fault) :
    registerWritePort n v s ≠ .fault f := by
  unfold registerWritePort
  split <;> simp

theorem bufferReadPort_ne_fault (a : Nat) (s : State) (f : Fault) : bufferReadPort a s ≠ .fault f := by
  unfold bufferReadPort
  split
  · simp
  · split <;> simp

theorem bufferWritePort_ne_fault (a : Nat) (b : Byte) (s : State) (f : Fault) : bufferWritePort a b s ≠ .fault f := by
  unfold bufferWritePort
  split
  · simp
  · split <;> simp

theorem txPort_ne_fault (s : State) (f : Fault) : txPort s ≠ .fault f := by
  unfold txPort
  split <;> simp

theorem portStep_ne_fault (h : s.Inv) (p : PortStep) (f : Fault) : portStep p s ≠ .fault f := by
  cases p with
  | cmd w => exact commandPort_ne_fault w s f
  | regRead n => exact ne_fault_of_next ⟨_, rfl⟩ f
  | regWrite n v => exact registerWritePort_ne_fault n v s f
  | bufRead a => exact bufferReadPort_ne_fault a s f
  | bufWrite a b => exact bufferWritePort_ne_fault a b s f
  | rx ev => exact rxPort_ne_fault h ev f
  | txTake => exact txPort_ne_fault s f
  | hardReset => exact ne_fault_of_next ⟨_, rfl⟩ f

/-- Settles O60, port by port: only RX events can fault, and no RX event of an active command does. -/
theorem noStepFaults : Obligations.NoStepFaults := by
  intro s f h
  unfold step
  split
  · simp
  · exact portStep_ne_fault (h.outside _ s.txq s.replies) _ f

end Sys2Proof.Machine
end

section
/-! What a port step can do, said once for each port (20_memory R46, R50; 45_system R172 to R175): when the unit refuses it,
and what it leaves behind. -/

namespace Sys2Proof.Machine

variable {s t : State}

/-! ### The command port (R50, 30_encoding R62) -/

theorem State.accepts_iff {w : Word} : s.accepts w = true ↔ s.rxmode = .idle ∨ w = 0x01000000 := by
  simp [State.accepts, State.busy, rstWord]

theorem commandPort_of_ok {w : Word} {i : Instr} (accepted : s.rxmode = .idle ∨ w = 0x01000000)
    (word : decode w = .ok i) : commandPort w s = exec i s := by
  rw [commandPort, if_pos (State.accepts_iff.mpr accepted), word]

theorem commandPort_of_error {w : Word} {r : DecodeError} (accepted : s.rxmode = .idle ∨ w = 0x01000000)
    (word : decode w = .error r) : commandPort w s = .next s.illegalCommand := by
  rw [commandPort, if_pos (State.accepts_iff.mpr accepted), word]

theorem commandPort_of_not_accepted {w : Word} (h : ¬ (s.rxmode = .idle ∨ w = 0x01000000)) :
    commandPort w s = .refused .commandWhileBusy :=
  if_neg (mt State.accepts_iff.mp h)

/-- Settles O6: an accepted word reaches the command rule on the state whose agenda has moved on. -/
theorem stepRunsDecodedCommand : Obligations.StepRunsDecodedCommand := by
  intro s w rest i presented accepted word
  rw [step, presented]
  exact commandPort_of_ok (s := { s with agenda := rest }) accepted word

/-! ### Which port steps are refused (R50) -/

/-- The result is a refusal. -/
def Refused (r : Result) : Prop := ∃ x, r = .refused x

@[simp] theorem refused_refused (x : Refusal) : Refused (.refused x) := ⟨x, rfl⟩

@[simp] theorem not_refused_next (t : State) : ¬ Refused (.next t) := nofun

@[simp] theorem not_refused_fault (f : Fault) : ¬ Refused (.fault f) := nofun

theorem commandPort_refused_iff (w : Word) : Refused (commandPort w s) ↔ ¬ (s.rxmode = .idle ∨ w = 0x01000000) := by
  by_cases accepted : s.rxmode = .idle ∨ w = 0x01000000
  · refine iff_of_false ?_ (not_not_intro accepted)
    cases word : decode w with
    | ok i =>
      obtain ⟨t, effect⟩ := exec_defined i s
      simp [commandPort_of_ok accepted word, effect]
    | error r => simp [commandPort_of_error accepted word]
  · exact iff_of_true ⟨_, commandPort_of_not_accepted accepted⟩ accepted

theorem registerWritePort_refused_iff (n : Nat) (v : Word) :
    Refused (registerWritePort n v s) ↔ ¬ s.rxmode = .idle := by
  unfold registerWritePort
  by_cases idle : s.rxmode = .idle <;> simp [State.busy, idle]

theorem bufferReadPort_refused_iff (a : Nat) :
    Refused (bufferReadPort a s) ↔ ¬ (s.rxmode = .idle ∧ a < s.pbufSize.bytes) := by
  unfold bufferReadPort
  by_cases idle : s.rxmode = .idle <;> by_cases inside : a < s.pbufSize.bytes <;>
    simp [State.busy, State.size, idle, inside]

theorem bufferWritePort_refused_iff (a : Nat) (b : Byte) :
    Refused (bufferWritePort a b s) ↔ ¬ (s.rxmode = .idle ∧ a < s.pbufSize.bytes) := by
  unfold bufferWritePort
  by_cases idle : s.rxmode = .idle <;> by_cases inside : a < s.pbufSize.bytes <;>
    simp [State.busy, State.size, idle, inside]

theorem txPort_refused_iff : Refused (txPort s) ↔ ¬ s.txq ≠ [] := by
  unfold txPort
  cases s.txq <;> simp

/-! An RX event of an active command happens or faults, wherever the command stands. -/

theorem State.storeHbuf_not_refused {j : Nat} {b : Byte} {k : State → Result} (h : ∀ u, ¬ Refused (k u)) :
    ¬ Refused (s.storeHbuf j b k) := by
  unfold State.storeHbuf
  split
  · exact h _
  · simp

theorem State.storeTbuf_not_refused {j : Nat} {b : Byte} {k : State → Result} (h : ∀ u, ¬ Refused (k u)) :
    ¬ Refused (s.storeTbuf j b k) := by
  unfold State.storeTbuf
  split
  · exact h _
  · simp

theorem State.storePbuf_not_refused {a : Nat} {b : Byte} {k : State → Result} (h : ∀ u, ¬ Refused (k u)) :
    ¬ Refused (s.storePbuf a b k) := by
  unfold State.storePbuf
  split
  · exact h _
  · simp

theorem hdrHexBody_not_refused (w : Byte) (s : State) : ¬ Refused (hdrHexBody w s) := by
  unfold hdrHexBody
  split
  · simp
  · split
    · simp
    · unfold hdrHexDigit
      simp only
      split
      · exact State.storeHbuf_not_refused fun _ => not_refused_next _
      · exact State.storeHbuf_not_refused fun _ => not_refused_next _

theorem hdrRawByte_not_refused (w : Byte) (s : State) : ¬ Refused (hdrRawByte w s) := by
  unfold hdrRawByte
  split
  · simp
  · split
    · simp
    · split
      · simp
      · exact hdrHexBody_not_refused w s

theorem hdrBinBody_not_refused (w : Byte) (s : State) : ¬ Refused (hdrBinBody w s) := by
  unfold hdrBinBody
  simp only
  split
  case h_5 => exact State.storeHbuf_not_refused fun _ => not_refused_next _
  all_goals simp

theorem hdrRxEvent_not_refused (ev : RxEvent) (s : State) : ¬ Refused (hdrRxEvent ev s) := by
  cases ev with
  | timeout => exact not_refused_next _
  | byte w =>
    simp only [hdrRxEvent]
    split
    · split
      · simp
      · exact hdrRawByte_not_refused w _
    · split
      · exact hdrBinBody_not_refused w s
      · simp

theorem spkData_not_refused (b : Byte) (s : State) : ¬ Refused (spkData b s) := by
  unfold spkData
  split
  · simp
  · exact State.storePbuf_not_refused fun _ => not_refused_next _

theorem spkTrail_not_refused (b : Byte) (s : State) : ¬ Refused (spkTrail b s) :=
  State.storeTbuf_not_refused fun _ => not_refused_next _

theorem spkRxEvent_not_refused (ev : RxEvent) (s : State) : ¬ Refused (spkRxEvent ev s) := by
  cases ev with
  | timeout => exact not_refused_next _
  | byte w =>
    simp only [spkRxEvent]
    split
    case h_4 b _ =>
      split
      · exact spkData_not_refused b _
      · exact spkTrail_not_refused b _
    all_goals simp

theorem xbkData_not_refused (w : Byte) (s : State) : ¬ Refused (xbkData w s) :=
  State.storePbuf_not_refused fun _ => not_refused_next _

theorem xbkTrail_not_refused (w : Byte) (s : State) : ¬ Refused (xbkTrail w s) := by
  unfold xbkTrail
  split
  · simp
  · exact State.storeTbuf_not_refused fun _ => not_refused_next _

theorem xbkInBlock_not_refused (w : Byte) (s : State) : ¬ Refused (xbkInBlock w s) := by
  unfold xbkInBlock
  split
  · simp
  · split
    · simp
    · split
      · exact xbkData_not_refused w s
      · split
        · exact xbkTrail_not_refused w s
        · simp

theorem xbkRxEvent_not_refused (ev : RxEvent) (s : State) : ¬ Refused (xbkRxEvent ev s) := by
  cases ev with
  | timeout => exact not_refused_next _
  | byte w =>
    simp only [xbkRxEvent]
    split
    · simp
    · exact xbkInBlock_not_refused w _

theorem rxPort_refused_iff (ev : RxEvent) : Refused (rxPort ev s) ↔ ¬ s.rxmode ≠ .idle := by
  unfold rxPort
  cases s.rxmode with
  | idle => simp
  | hdr => simpa using hdrRxEvent_not_refused ev s
  | spk => simpa using spkRxEvent_not_refused ev s
  | xbk => simpa using xbkRxEvent_not_refused ev s

/-- Settles O8, port by port: each port refuses exactly what the table of R50 leaves out. -/
theorem refusedIffNotEnabled : Obligations.RefusedIffNotEnabled := by
  intro s p
  cases p with
  | cmd w => exact commandPort_refused_iff w
  | regRead n => simp [portStep, registerReadPort, State.Enables]
  | regWrite n v => exact registerWritePort_refused_iff n v
  | bufRead a => exact bufferReadPort_refused_iff a
  | bufWrite a b => exact bufferWritePort_refused_iff a b
  | rx ev => exact rxPort_refused_iff ev
  | txTake => exact txPort_refused_iff
  | hardReset => simp [portStep, State.Enables]

end Sys2Proof.Machine
end

section
/-! What a port step leaves behind (20_memory R47, R51, R56). -/

namespace Sys2Proof.Machine

variable {s t : State}

/-! ### The step that happens, port by port -/

theorem commandPort_next {w : Word} (h : commandPort w s = .next t) :
    (∃ i, decode w = .ok i ∧ exec i s = .next t) ∨ t = s.illegalCommand := by
  by_cases accepted : s.rxmode = .idle ∨ w = 0x01000000
  · cases word : decode w with
    | ok i => exact .inl ⟨i, rfl, commandPort_of_ok accepted word ▸ h⟩
    | error r =>
      rw [commandPort_of_error accepted word] at h
      cases h
      exact .inr rfl
  · rw [commandPort_of_not_accepted accepted] at h
    cases h

theorem registerWritePort_next {n : Nat} {v : Word} (h : registerWritePort n v s = .next t) : t = s.regStore n v := by
  unfold registerWritePort at h
  split at h <;> cases h
  rfl

theorem bufferReadPort_next {a : Nat} (h : bufferReadPort a s = .next t) : t = s.reply (.buf a (s.pbufByte a)) := by
  unfold bufferReadPort at h
  split at h
  · cases h
  · split at h <;> cases h
    rfl

theorem bufferWritePort_next {a : Nat} {b : Byte} (h : bufferWritePort a b s = .next t) :
    t = { s with pbuf := s.pbuf.write a b } := by
  unfold bufferWritePort at h
  split at h
  · cases h
  · split at h <;> cases h
    rfl

theorem txPort_next (h : txPort s = .next t) :
    ∃ b rest, s.txq = b :: rest ∧ t = { s with txq := rest }.reply (.tx b) := by
  unfold txPort at h
  split at h <;> cases h
  exact ⟨_, _, ‹_›, rfl⟩

/-! ### The surroundings of the unit -/

/-- PBUF and the model's own fields: what no command and no event of HDR.RX reaches (R56). -/
structure Surroundings where
  agenda : List PortStep
  replies : List Reply
  pbufSize : PbufSize
  ctlesc : Bool
  epoch : Nat
  pbuf : Memory

def State.surroundings (s : State) : Surroundings :=
  ⟨s.agenda, s.replies, s.pbufSize, s.ctlesc, s.epoch, s.pbuf⟩

/-! ### Commands -/

theorem execHdrTx_surroundings {enc : HdrEnc} (h : execHdrTx enc s = .next t) : t.surroundings = s.surroundings := by
  cases enc <;> cases h <;> rfl

theorem spkSend_surroundings {enc : HdrEnc} {fe : FrameEnd} {len : Nat} :
    (spkSend enc fe len s).surroundings = s.surroundings := by
  simp [State.surroundings, spkSend, State.finishSent_eq]

theorem spkStart_surroundings {maxlen : Nat} : (spkStart maxlen s).surroundings = s.surroundings := by
  simp [State.surroundings, spkStart]

theorem xbkSend_surroundings {mode : CheckMode} {len : Nat} : (xbkSend mode len s).surroundings = s.surroundings := by
  simp [State.surroundings, xbkSend, State.finishSent_eq]

theorem exec_surroundings {i : Instr} (h : exec i s = .next t) : t.surroundings = s.surroundings := by
  cases i with
  | escDec byte => cases h; simp [State.surroundings]
  | hdrTx enc => exact execHdrTx_surroundings h
  | spkTx enc fe len =>
    obtain ⟨_, rfl⟩ | ⟨_, rfl⟩ := execSpkTx_next h
    · rfl
    · exact spkSend_surroundings
  | spkRx maxlen =>
    obtain ⟨_, rfl⟩ | ⟨_, rfl⟩ := execSpkRx_next h
    · rfl
    · exact spkStart_surroundings
  | xbkTx mode len =>
    obtain ⟨_, rfl⟩ | ⟨_, rfl⟩ := execXbkTx_next h
    · rfl
    · exact xbkSend_surroundings
  | xbkRx mode => cases mode <;> cases h <;> rfl
  | _ => cases h; rfl

theorem commandPort_surroundings {w : Word} (h : commandPort w s = .next t) : t.surroundings = s.surroundings := by
  obtain ⟨i, _, effect⟩ | rfl := commandPort_next h
  · exact exec_surroundings effect
  · rfl

theorem State.regStore_surroundings (s : State) (n : Nat) (v : Word) :
    (s.regStore n v).surroundings = s.surroundings := by
  unfold State.regStore
  split <;> rfl

/-! ### RX events -/

theorem hdrFinish_surroundings : (hdrFinish s).surroundings = s.surroundings := by
  obtain ⟨_, e⟩ | ⟨_, e⟩ := hdrFinish_cases s <;> rw [e] <;> rfl

theorem startBody_surroundings {enc : HdrEnc} : (startBody enc s).surroundings = s.surroundings := by
  simp [State.surroundings, startBody]

theorem hdrAfterLowDigit_surroundings {j : Nat} {hj : j < 9} {b : Byte} :
    (hdrAfterLowDigit s j hj b).surroundings = s.surroundings := by
  unfold hdrAfterLowDigit
  split <;> rfl

theorem hdrAfterBodyByte_surroundings {hj : s.idx.toNat < 9} {b : Byte} :
    (hdrAfterBodyByte s hj b).surroundings = s.surroundings := by
  unfold hdrAfterBodyByte
  split <;> simp [State.surroundings]

theorem State.finishCheck_surroundings {ok : Bool} : (s.finishCheck ok).surroundings = s.surroundings := by
  cases ok <;> rfl

theorem HdrRawCase.surroundings {w : Byte} (h : HdrRawCase w s t) : t.surroundings = s.surroundings := by
  cases h with
  | start => exact startBody_surroundings
  | lowDigit => exact hdrAfterLowDigit_surroundings
  | lastDigit => exact hdrFinish_surroundings.trans hdrAfterLowDigit_surroundings
  | _ => simp [State.surroundings]

theorem HdrBinCase.surroundings {w : Byte} (h : HdrBinCase w s t) : t.surroundings = s.surroundings := by
  cases h with
  | more => exact hdrAfterBodyByte_surroundings
  | last => exact hdrFinish_surroundings.trans hdrAfterBodyByte_surroundings
  | _ => simp [State.surroundings]

theorem hdrRxEvent_surroundings {ev : RxEvent} (h : hdrRxEvent ev s = .next t) : t.surroundings = s.surroundings := by
  obtain ⟨_, rfl⟩ | ⟨w, _, ⟨_, raw⟩ | ⟨_, _, bin⟩⟩ := hdrRxEvent_cases h
  · rfl
  · exact raw.surroundings
  · exact bin.surroundings

/-- One byte is stored, at PBUF[IDX], and IDX and RXLEN move past it; the rest of the surroundings is as before (R42). -/
structure State.Receives (s t : State) : Prop where
  idx : t.idx = s.idx + 1
  rxlen : t.rxlen = t.idx
  stored : ∃ b, t.surroundings = { s.surroundings with pbuf := s.pbuf.write s.idx.toNat b }

theorem SpkCase.surroundings {w : Byte} (h : SpkCase w s t) : t.surroundings = s.surroundings ∨ s.Receives t := by
  cases h with
  | payload b => exact .inr ⟨rfl, rfl, b, by simp [State.surroundings]⟩
  | last => exact .inl State.finishCheck_surroundings
  | _ => exact .inl (by simp [State.surroundings])

theorem spkRxEvent_surroundings {ev : RxEvent} (h : spkRxEvent ev s = .next t) :
    t.surroundings = s.surroundings ∨ s.Receives t := by
  obtain ⟨_, rfl⟩ | ⟨w, _, byte⟩ := spkRxEvent_cases h
  · exact .inl rfl
  · exact byte.surroundings

theorem xbkAfterPayloadByte_surroundings {w : Byte} : (xbkAfterPayloadByte s w).surroundings =
    { s.surroundings with pbuf := s.pbuf.write s.idx.toNat w } := by
  simp [State.surroundings, xbkAfterPayloadByte]

theorem XbkCase.surroundings {w : Byte} (h : XbkCase w s t) : t.surroundings = s.surroundings ∨ s.Receives t := by
  cases h with
  | payload => exact .inr ⟨rfl, rfl, w, xbkAfterPayloadByte_surroundings⟩
  | lastPayload => exact .inr ⟨rfl, rfl, w, xbkAfterPayloadByte_surroundings⟩
  | sum => exact .inl State.finishCheck_surroundings
  | crcLow => exact .inl State.finishCheck_surroundings
  | _ => exact .inl (by simp [State.surroundings])

theorem xbkRxEvent_surroundings {ev : RxEvent} (h : xbkRxEvent ev s = .next t) :
    t.surroundings = s.surroundings ∨ s.Receives t := by
  obtain ⟨_, rfl⟩ | ⟨w, _, byte⟩ := xbkRxEvent_cases h
  · exact .inl rfl
  · exact byte.surroundings

/-- PBUF and the model's own fields over an RX event: only SPK.RX and XBK.RX store (R56). -/
theorem rxPort_surroundings {ev : RxEvent} (h : rxPort ev s = .next t) :
    t.surroundings = s.surroundings ∨ (s.rxmode = .spk ∨ s.rxmode = .xbk) ∧ s.Receives t := by
  unfold rxPort at h
  split at h
  · cases h
  · exact .inl (hdrRxEvent_surroundings h)
  · exact (spkRxEvent_surroundings h).imp_right (⟨.inl ‹_›, ·⟩)
  · exact (xbkRxEvent_surroundings h).imp_right (⟨.inr ‹_›, ·⟩)

/-! ### PBUF -/

/-- The surroundings hold PBUF. -/
theorem State.pbuf_of_surroundings (h : t.surroundings = s.surroundings) : t.pbuf = s.pbuf :=
  congrArg Surroundings.pbuf h

theorem State.Receives.elsewhere (h : s.Receives t) {a : Nat} (other : a ≠ s.idx.toNat) :
    t.pbuf.read a = s.pbuf.read a ∧ t.pbufByte a = s.pbufByte a := by
  obtain ⟨b, stored⟩ := h.stored
  have pbuf : t.pbuf = s.pbuf.write s.idx.toNat b := congrArg Surroundings.pbuf stored
  have epoch : t.epoch = s.epoch := congrArg Surroundings.epoch stored
  have read : t.pbuf.read a = s.pbuf.read a := by rw [pbuf, Memory.read_write_other _ _ other]
  exact ⟨read, State.pbufByte_congr read epoch⟩

/-- Settles O21, port by port: beside the PBUF port and hardware reset only a `Receives` event stores. -/
theorem onlyReceiversWriteTheBuffer : Obligations.OnlyReceiversWriteTheBuffer := by
  intro s t p h
  cases p with
  | cmd w => exact State.pbuf_of_surroundings (commandPort_surroundings h)
  | regRead n => cases h; rfl
  | regWrite n v =>
    obtain rfl := registerWritePort_next h
    exact State.pbuf_of_surroundings (s.regStore_surroundings n v)
  | bufRead a => obtain rfl := bufferReadPort_next h; rfl
  | bufWrite a b =>
    obtain rfl := bufferWritePort_next h
    exact fun a' other => Memory.read_write_other _ _ other
  | rx ev =>
    refine (rxPort_surroundings h).imp State.pbuf_of_surroundings ?_
    rintro ⟨receiver, received⟩
    exact ⟨receiver, received.idx, received.rxlen, fun _ => received.elsewhere⟩
  | txTake => obtain ⟨b, rest, _, rfl⟩ := txPort_next h; rfl
  | hardReset => trivial

/-! ### The order of port steps -/

/-- What every port step leaves: the order of the steps still to come, the parameters, and the values handed out before. -/
structure State.Continues (s t : State) : Prop where
  agenda : t.agenda = s.agenda
  replies : ∃ l : List Reply, t.replies = s.replies ++ l ∧ l.length ≤ 1
  pbufSize : t.pbufSize = s.pbufSize
  ctlesc : t.ctlesc = s.ctlesc

/-- A step that reaches nothing of the surroundings but PBUF. -/
theorem State.Continues.of_surroundings {m : Memory} (h : t.surroundings = { s.surroundings with pbuf := m }) :
    s.Continues t where
  agenda := congrArg Surroundings.agenda h
  replies := ⟨[], (congrArg Surroundings.replies h).trans (List.append_nil _).symm, Nat.zero_le 1⟩
  pbufSize := congrArg Surroundings.pbufSize h
  ctlesc := congrArg Surroundings.ctlesc h

theorem State.Continues.of_same (h : t.surroundings = s.surroundings) : s.Continues t :=
  .of_surroundings (m := s.pbuf) h

/-- A port that hands out a value. -/
theorem State.continues_reply (s : State) (q : List Byte) (r : Reply) : s.Continues ({ s with txq := q }.reply r) :=
  ⟨rfl, ⟨[r], rfl, Nat.le_refl 1⟩, rfl, rfl⟩

theorem State.continues_hardReset (s : State) : s.Continues s.hardReset :=
  ⟨rfl, ⟨[], (List.append_nil _).symm, Nat.zero_le 1⟩, rfl, rfl⟩

theorem portStep_continues {p : PortStep} (h : portStep p s = .next t) : s.Continues t := by
  cases p with
  | cmd w => exact .of_same (commandPort_surroundings h)
  | regRead n => cases h; exact s.continues_reply s.txq _
  | regWrite n v => obtain rfl := registerWritePort_next h; exact .of_same (s.regStore_surroundings n v)
  | bufRead a => obtain rfl := bufferReadPort_next h; exact s.continues_reply s.txq _
  | bufWrite a b => obtain rfl := bufferWritePort_next h; exact .of_surroundings rfl
  | rx ev =>
    obtain same | ⟨_, received⟩ := rxPort_surroundings h
    · exact .of_same same
    · obtain ⟨b, stored⟩ := received.stored
      exact .of_surroundings stored
  | txTake => obtain ⟨b, rest, _, rfl⟩ := txPort_next h; exact s.continues_reply rest _
  | hardReset => cases h; exact s.continues_hardReset

/-- Settles O9: `step` takes the head of the agenda, and the port step on the rest leaves the rest. -/
theorem stepTakesTheNextPortStep : Obligations.StepTakesTheNextPortStep := by
  intro s t h
  unfold step at h
  split at h
  · cases h
  · rename_i p rest presented
    obtain ⟨agenda, replies, pbufSize, ctlesc⟩ := portStep_continues h
    exact ⟨⟨p, by rw [presented, agenda]⟩, replies, pbufSize, ctlesc⟩

/-! ### The TX queue (R47) -/

theorem whenZero_eq_ok {op : Byte} {z : Bool} {i j : Instr} : whenZero op z i = .ok j ↔ z = true ∧ i = j := by
  cases z <;> simp [whenZero]

/-- The RST word is the only word of RST (R62). -/
theorem word_of_decode_rst {w : Word} (h : decode w = .ok .rst) : w = 0x01000000 := by
  unfold decode at h
  simp only at h
  split at h
  case h_1 op =>
    obtain ⟨operands, _⟩ := whenZero_eq_ok.mp h
    simp only [Bool.and_eq_true, beq_iff_eq] at operands
    rw [← wordOf_fields w, op, operands.1, operands.2]
    rfl
  all_goals simp [whenZero_eq_ok] at h

theorem accumulator_ne_tx (c32 : Bool) : accumulator c32 ≠ .tx := by
  cases c32 <;> decide

theorem blockAccumulator_ne_tx (mode : CheckMode) : blockAccumulator mode ≠ .tx := by
  cases mode <;> decide

/-- No row of an RX event marks the TX queue (10_state R36). -/
theorem tx_notMem_eventWriteSet (s : State) : Element.tx ∉ eventWriteSet s := by
  unfold eventWriteSet
  split <;> simp [(accumulator_ne_tx _).symm, (blockAccumulator_ne_tx _).symm]

theorem hdrTxHex_txq : ∃ bs, (hdrTxHex s).txq = s.txq ++ bs := by
  simp [hdrTxHex, State.finishSent_eq]

theorem hdrTxBin_txq {enc : HdrEnc} : ∃ bs, (hdrTxBin enc s).txq = s.txq ++ bs := by
  simp [hdrTxBin, State.finishSent_eq]

theorem execHdrTx_txq {enc : HdrEnc} (h : execHdrTx enc s = .next t) : ∃ bs, t.txq = s.txq ++ bs := by
  cases enc with
  | bin16 => cases h; exact hdrTxBin_txq
  | hex => cases h; exact hdrTxHex_txq
  | bin32 => cases h; exact hdrTxBin_txq
  | reserved => cases h; exact ⟨[], by simp [State.badOperand_eq]⟩

theorem spkSend_txq {enc : HdrEnc} {fe : FrameEnd} {len : Nat} : ∃ bs, (spkSend enc fe len s).txq = s.txq ++ bs := by
  simp [spkSend, State.finishSent_eq]

theorem xbkSend_txq {mode : CheckMode} {len : Nat} : ∃ bs, (xbkSend mode len s).txq = s.txq ++ bs := by
  simp [xbkSend, State.finishSent_eq]

/-- A queue that is left alone grew by nothing. -/
theorem txq_grows_of_eq (h : t.txq = s.txq) : ∃ bs, t.txq = s.txq ++ bs := ⟨[], by simpa using h⟩

/-- The transmit commands and ESC.ENC append; the other commands but RST leave the queue alone. -/
theorem exec_txq {i : Instr} (h : exec i s = .next t) (notRst : i ≠ .rst) : ∃ bs, t.txq = s.txq ++ bs := by
  cases i with
  | rst => exact absurd rfl notRst
  | escEnc byte => cases h; exact ⟨_, rfl⟩
  | hdrTx enc => exact execHdrTx_txq h
  | spkTx enc fe len =>
    obtain ⟨_, rfl⟩ | ⟨_, rfl⟩ := execSpkTx_next h
    · exact txq_grows_of_eq rfl
    · exact spkSend_txq
  | xbkTx mode len =>
    obtain ⟨_, rfl⟩ | ⟨_, rfl⟩ := execXbkTx_next h
    · exact txq_grows_of_eq rfl
    · exact xbkSend_txq
  | _ =>
    exact txq_grows_of_eq (exec_frame h .tx
      (by simp [writeSet, (accumulator_ne_tx _).symm, (blockAccumulator_ne_tx _).symm]))

theorem State.regStore_txq (s : State) (n : Nat) (v : Word) : (s.regStore n v).txq = s.txq := by
  unfold State.regStore
  split <;> rfl

/-- Settles O15: the transmit commands and ESC.ENC append, and every other step in question leaves the queue alone. -/
theorem txQueueGrowsAtTheTail : Obligations.TxQueueGrowsAtTheTail := by
  intro s t p h notTake notReset notRst
  cases p with
  | cmd w =>
    obtain ⟨i, word, effect⟩ | rfl := commandPort_next h
    · refine exec_txq effect ?_
      rintro rfl
      exact notRst (congrArg PortStep.cmd (word_of_decode_rst word))
    · exact txq_grows_of_eq rfl
  | regRead n => cases h; exact txq_grows_of_eq rfl
  | regWrite n v => obtain rfl := registerWritePort_next h; exact txq_grows_of_eq (s.regStore_txq n v)
  | bufRead a => obtain rfl := bufferReadPort_next h; exact txq_grows_of_eq rfl
  | bufWrite a b => obtain rfl := bufferWritePort_next h; exact txq_grows_of_eq rfl
  | rx ev => exact txq_grows_of_eq (rxPort_frame h .tx (tx_notMem_eventWriteSet s))
  | txTake => exact absurd rfl notTake
  | hardReset => exact absurd rfl notReset

end Sys2Proof.Machine
end

section
/-! The command word (30_encoding R60 to R66): decode and encode agree on the well-formed commands and on the accepted
words, and the opcode map selects exactly the accepted words. Hex digits (R80). -/

namespace Sys2Proof

open Machine (whenZero_eq_ok)

/-! ### The operands in the field `a` (R65), below the bits that must be zero -/

theorem zero_append_shiftRight {m k : Nat} (c : BitVec k) : (0#m ++ c) >>> k = 0#(m + k) := by
  apply BitVec.eq_of_getLsbD_eq
  intro i _
  simp [BitVec.getLsbD_append]

theorem zero_append_lowBits {m k : Nat} {a : BitVec (m + k)} (h : a >>> k = 0#(m + k)) :
    0#m ++ a.extractLsb' 0 k = a := by
  have high : a.extractLsb' k m = 0#m := by
    apply BitVec.eq_of_getLsbD_eq
    intro i _
    have bit : (a >>> k).getLsbD i = false := by simp [h]
    simpa using fun _ => bit
  rw [← high, BitVec.extractLsb'_append_extractLsb']

@[simp] theorem hdrField_shiftRight (e : BitVec 2) : (0#6 ++ e : Byte) >>> 2 = 0#8 := zero_append_shiftRight e
@[simp] theorem hdrField_enc (e : BitVec 2) : (0#6 ++ e : Byte).extractLsb' 0 2 = e :=
  BitVec.extractLsb'_append_eq_right
theorem hdrField_of_shiftRight {a : Byte} (h : a >>> 2 = 0#8) : 0#6 ++ a.extractLsb' 0 2 = a :=
  zero_append_lowBits (m := 6) h

@[simp] theorem xbkField_shiftRight (c : BitVec 1) : (0#7 ++ c : Byte) >>> 1 = 0#8 := zero_append_shiftRight c
@[simp] theorem xbkField_crc (c : BitVec 1) : (0#7 ++ c : Byte).extractLsb' 0 1 = c :=
  BitVec.extractLsb'_append_eq_right
theorem xbkField_of_shiftRight {a : Byte} (h : a >>> 1 = 0#8) : 0#7 ++ a.extractLsb' 0 1 = a :=
  zero_append_lowBits (m := 7) h

@[simp] theorem spkTxField_shiftRight (f e : BitVec 2) : (0#4 ++ f ++ e : Byte) >>> 4 = 0#8 := by
  rw [BitVec.append_assoc]
  exact zero_append_shiftRight (f ++ e)
@[simp] theorem spkTxField_enc (f e : BitVec 2) : (0#4 ++ f ++ e : Byte).extractLsb' 0 2 = e :=
  BitVec.extractLsb'_append_eq_right
@[simp] theorem spkTxField_fe (f e : BitVec 2) : (0#4 ++ f ++ e : Byte).extractLsb' 2 2 = f :=
  (BitVec.extractLsb'_append_eq_of_le (Nat.le_refl 2)).trans BitVec.extractLsb'_append_eq_right
theorem spkTxField_of_shiftRight {a : Byte} (h : a >>> 4 = 0#8) :
    0#4 ++ a.extractLsb' 2 2 ++ a.extractLsb' 0 2 = a := by
  have operands : a.extractLsb' 2 2 ++ a.extractLsb' 0 2 = a.extractLsb' 0 4 :=
    BitVec.extractLsb'_append_extractLsb'_eq_extractLsb' rfl
  rw [BitVec.append_assoc, operands]
  exact zero_append_lowBits (m := 4) h

/-! ### A length in the field `n` -/

theorem lenFits_iff {len : Nat} : lenFits len = true ↔ len < 65536 := decide_eq_true_iff

theorem toNat_ofNat_of_lenFits {len : Nat} (h : lenFits len = true) : (BitVec.ofNat 16 len).toNat = len :=
  Nat.mod_eq_of_lt (lenFits_iff.mp h)

theorem lenFits_toNat (n : Half) : lenFits n.toNat = true := lenFits_iff.mpr n.isLt

/-! ### decode and encode -/

/-- Settles O1, command by command: the bits that must be zero are, and each operand is read back from its own bits. -/
theorem decodeOfEncode : Obligations.DecodeOfEncode := by
  intro i wf
  cases i with
  | spkTx enc fe len => simp [encode, decode, whenZero_eq_ok, toNat_ofNat_of_lenFits wf]
  | spkRx maxlen => simp [encode, decode, whenZero_eq_ok, toNat_ofNat_of_lenFits wf]
  | xbkTx mode len => simp [encode, decode, whenZero_eq_ok, toNat_ofNat_of_lenFits wf]
  | _ => simp [encode, decode, whenZero_eq_ok]

/-- It suffices for an accepted word that the must-be-zero bits make its fields those of the encoding. -/
theorem encode_of_whenZero {w : Word} {op : Byte} {z : Bool} {i j : Instr} (h : whenZero op z i = .ok j)
    (wf : i.WellFormed) (fields : z = true → encode i = wordOf (opField w) (aField w) (nField w)) :
    j.WellFormed ∧ encode j = w := by
  obtain ⟨zero, rfl⟩ := whenZero_eq_ok.mp h
  exact ⟨wf, (fields zero).trans (wordOf_fields w)⟩

/-- Settles O2, opcode by opcode, in the order of `decode`, by the formats of R61. -/
theorem encodeOfDecode : Obligations.EncodeOfDecode := by
  intro w i h
  unfold decode at h
  simp only at h
  split at h
  case h_1 op | h_2 op | h_4 op | h_5 op | h_7 op | h_8 op | h_10 op | h_14 op  -- format N
    | h_3 op | h_6 op | h_9 op | h_11 op | h_12 op =>  -- format B
    exact encode_of_whenZero h rfl (by simp +contextual [encode, op])
  case h_13 op => exact encode_of_whenZero h rfl (by simp +contextual [encode, op, hdrField_of_shiftRight])
  case h_15 op =>
    exact encode_of_whenZero h (lenFits_toNat _) (by simp +contextual [encode, op, spkTxField_of_shiftRight])
  case h_16 op => exact encode_of_whenZero h (lenFits_toNat _) (by simp +contextual [encode, op])
  case h_17 op =>
    exact encode_of_whenZero h (lenFits_toNat _) (by simp +contextual [encode, op, xbkField_of_shiftRight])
  case h_18 op => exact encode_of_whenZero h rfl (by simp +contextual [encode, op, xbkField_of_shiftRight])
  case h_19 => cases h

/-! ### Operands (R65) -/

/-- An operand at bit `j` of the field `a` is at bit `16 + j` of the word. -/
theorem operand_eq_bits {op a : Byte} {n : Half} {j k : Nat} {x : BitVec k} (operand : a.extractLsb' j k = x)
    (inside : j + k ≤ 8) : x = (wordOf op a n).extractLsb' (16 + j) k := by
  rw [← operand]
  apply BitVec.eq_of_getLsbD_eq
  intro i hi
  simp [getLsbD_wordOf, hi, show ¬ 16 + j + i < 16 by omega, show 16 + j + i < 24 by omega,
    show 16 + j + i - 16 = j + i by omega]

theorem length_eq_bits {op a : Byte} {len : Nat} (h : lenFits len = true) :
    len = ((wordOf op a (BitVec.ofNat 16 len)).extractLsb' 0 16).toNat :=
  ((congrArg BitVec.toNat (nField_wordOf op a _)).trans (toNat_ofNat_of_lenFits h)).symm

/-- Settles O4: an accepted word is the encoding of its command, which places the operands at these bits. -/
theorem operandsAreTheirBits : Obligations.OperandsAreTheirBits := by
  intro w i h
  obtain ⟨wf, rfl⟩ := encodeOfDecode w i h
  cases i with
  | crc16Upd byte | crc32Upd byte | sum8Upd byte | escEnc byte | escDec byte => exact (aField_wordOf ..).symm
  | hdrTx enc => exact operand_eq_bits (j := 0) (hdrField_enc enc.code) (by decide)
  | spkTx enc fe len =>
    exact ⟨operand_eq_bits (j := 0) (spkTxField_enc fe.code enc.code) (by decide),
      operand_eq_bits (j := 2) (spkTxField_fe fe.code enc.code) (by decide), length_eq_bits wf⟩
  | spkRx maxlen => exact length_eq_bits wf
  | xbkTx mode len => exact ⟨operand_eq_bits (j := 0) (xbkField_crc mode.code) (by decide), length_eq_bits wf⟩
  | xbkRx mode => exact operand_eq_bits (j := 0) (xbkField_crc mode.code) (by decide)
  | _ => trivial

/-! ### The opcode map (R63) -/

theorem encodeRow (i : Instr) : Laws.EncodeRow.Statement i := by
  cases i with
  | rst => exact Laws.EncodeRow.rst
  | crc16Init => exact Laws.EncodeRow.crc16Init
  | crc16Upd byte => exact Laws.EncodeRow.crc16Upd byte
  | crc16Fin => exact Laws.EncodeRow.crc16Fin
  | crc32Init => exact Laws.EncodeRow.crc32Init
  | crc32Upd byte => exact Laws.EncodeRow.crc32Upd byte
  | crc32Fin => exact Laws.EncodeRow.crc32Fin
  | sum8Init => exact Laws.EncodeRow.sum8Init
  | sum8Upd byte => exact Laws.EncodeRow.sum8Upd byte
  | escRst => exact Laws.EncodeRow.escRst
  | escEnc byte => exact Laws.EncodeRow.escEnc byte
  | escDec byte => exact Laws.EncodeRow.escDec byte
  | hdrTx enc => exact Laws.EncodeRow.hdrTx enc
  | hdrRx => exact Laws.EncodeRow.hdrRx
  | spkTx enc fe len => exact Laws.EncodeRow.spkTx enc fe len
  | spkRx maxlen => exact Laws.EncodeRow.spkRx maxlen
  | xbkTx mode len => exact Laws.EncodeRow.xbkTx mode len
  | xbkRx mode => exact Laws.EncodeRow.xbkRx mode

theorem exists_row (i : Instr) : ∃ r ∈ opcodeMap, r.mnemonic = i.mnemonic := by
  cases i <;> simp [opcodeMap, opcodeMapSysCsu, opcodeMapFraming, Instr.mnemonic]

theorem OpcodeRow.selects_iff_and_eq (r : OpcodeRow) (w : Word) : r.selects w = true ↔ w &&& r.mask = r.pattern :=
  beq_iff_eq

theorem row_fields : ∀ r ∈ opcodeMap,
    opField r.mask = BitVec.allOnes 8 ∧ aField r.pattern = 0#8 ∧ nField r.pattern = 0#16 := by
  decide

/-- A row selects the words of its opcode in which the bits it fixes beside the opcode are 0. -/
theorem fields_of_selects {w : Word} {r : OpcodeRow} (hr : r ∈ opcodeMap) (h : r.selects w = true) :
    opField w = opField r.pattern ∧ aField w &&& aField r.mask = 0#8 ∧ nField w &&& nField r.mask = 0#16 := by
  obtain ⟨mask, a, n⟩ := row_fields r hr
  simpa only [mask, a, n, BitVec.and_allOnes] using (r.selects_iff w).mp h

theorem opcodes_nodup : (opcodeMap.map (opField ·.pattern)).Nodup := by decide

/-- The must-be-zero bits of `a`, named by a row's mask as in R63 and by a shift as in `decode`. -/
theorem shiftRight_of_mask : ∀ a : Byte, (a &&& 0xFC#8 = 0#8 → a >>> 2 = 0#8)
    ∧ (a &&& 0xF0#8 = 0#8 → a >>> 4 = 0#8) ∧ (a &&& 0xFE#8 = 0#8 → a >>> 1 = 0#8) := by
  decide

theorem byte_and_ones (a : Byte) : a &&& 0xFF#8 = a := BitVec.and_allOnes
theorem half_and_ones (n : Half) : n &&& 0xFFFF#16 = n := BitVec.and_allOnes

theorem exists_decode_of_selects {w : Word} {r : OpcodeRow} (hr : r ∈ opcodeMap) (h : r.selects w = true) :
    ∃ i, decode w = .ok i := by
  obtain ⟨op, a, n⟩ := fields_of_selects hr h
  obtain ⟨hdr, spk, xbk⟩ := shiftRight_of_mask (aField w)
  unfold decode
  generalize opField w = op', aField w = a', nField w = n' at *
  subst op
  simp only [opcodeMap, opcodeMapSysCsu, opcodeMapFraming, List.cons_append, List.nil_append, List.mem_cons,
    List.not_mem_nil, or_false] at hr
  -- Row by row, what the row fixes to 0 is what `decode` asks to be 0.
  rcases hr with rfl | rfl | rfl | rfl | rfl | rfl | rfl | rfl | rfl |
    rfl | rfl | rfl | rfl | rfl | rfl | rfl | rfl | rfl
  all_goals
    simp only [aField, nField, BitVec.ofNat_eq_ofNat, BitVec.reduceExtractLsb', byte_and_ones, half_and_ones] at a n
    simp [opField, whenZero, *]

/-- Settles O3: the row of the command's mnemonic selects its encoding, a selected word is accepted, and the opcode of a
selected word tells its row. -/
theorem opcodeMapDecides : Obligations.OpcodeMapDecides := by
  constructor
  · intro w
    cases word : decode w with
    | ok i =>
      obtain ⟨_, rfl⟩ := encodeOfDecode w i word
      obtain ⟨r, hr, mnemonic⟩ := exists_row i
      have selected := (encodeRow i r hr).trans (decide_eq_true mnemonic)
      exact ⟨r, hr, mnemonic, (r.selects_iff_and_eq _).mp selected⟩
    | error e =>
      intro r hr selected
      obtain ⟨i, accepted⟩ := exists_decode_of_selects hr ((r.selects_iff_and_eq w).mpr selected)
      rw [word] at accepted
      cases accepted
  · intro w r₁ hr₁ r₂ hr₂ h₁ h₂
    have op₁ := (fields_of_selects hr₁ ((r₁.selects_iff_and_eq w).mpr h₁)).1
    have op₂ := (fields_of_selects hr₂ ((r₂.selects_iff_and_eq w).mpr h₂)).1
    exact List.inj_on_of_nodup_map opcodes_nodup hr₁ hr₂ (op₁.symm.trans op₂)

/-- Settles O5, by evaluation: the spec's eight words are literal. -/
theorem exampleWordsDecode : Obligations.ExampleWordsDecode := by
  unfold Obligations.ExampleWordsDecode
  decide

end Sys2Proof

namespace Sys2Proof.Machine

/-! ### Hex digits (R80) -/

/-- The alphabet of R80, in the order of the digits' values. -/
def hexAlphabet : List Byte :=
  [0x30, 0x31, 0x32, 0x33, 0x34, 0x35, 0x36, 0x37, 0x38, 0x39, 0x61, 0x62, 0x63, 0x64, 0x65, 0x66]

theorem hexDigit_eq_getD : ∀ d : BitVec 4, hexDigit d = hexAlphabet.getD d.toNat 0 := by decide

theorem hexDigit_mem_and_idxOf : ∀ d : BitVec 4,
    hexDigit d ∈ hexAlphabet ∧ hexAlphabet.idxOf (hexDigit d) = d.toNat := by
  decide

theorem eq_hexDigit_of_hexVal : ∀ (w : Byte) (d : BitVec 4), hexVal w = some d → w = hexDigit d := by decide

theorem hexVal_ne_none : ∀ w ∈ hexAlphabet, hexVal w ≠ none := by decide

theorem hexPair_eq (b : Byte) :
    hexPair b = [hexAlphabet.getD (b.toNat / 16) 0, hexAlphabet.getD (b.toNat % 16) 0] := by
  have high : (b.extractLsb' 4 4).toNat = b.toNat / 16 := by
    rw [BitVec.extractLsb'_toNat, Nat.shiftRight_eq_div_pow]
    exact Nat.mod_eq_of_lt (by omega)
  have low : (b.extractLsb' 0 4).toNat = b.toNat % 16 := BitVec.extractLsb'_toNat ..
  rw [hexPair, hexDigit_eq_getD, hexDigit_eq_getD, high, low]

/-- Settles O36: a byte with a value is the digit of its value, and every digit has a value. -/
theorem hexDigits : Obligations.HexDigits := by
  refine ⟨hexPair_eq, fun w => ?_⟩
  change _ = if w ∈ hexAlphabet then some (hexAlphabet.idxOf w) else none
  cases value : hexVal w with
  | none => rw [if_neg fun member => hexVal_ne_none w member value]; rfl
  | some d =>
    obtain rfl := eq_hexDigit_of_hexVal w d value
    obtain ⟨member, index⟩ := hexDigit_mem_and_idxOf d
    rw [if_pos member, index]
    rfl

end Sys2Proof.Machine
end

section
/-! The CRC steps (40_checksum R102): each step is linear, and is a byte shift plus the step of the byte that leaves, which
is what the tables hold (R103). Then the commands of the Checksum Unit (R92 to R100). -/

namespace Sys2Proof.Machine

/-! ### A step is linear in the accumulator and the byte together -/

theorem crc16Step_xor (c d : Half) (a b : Byte) : crc16Step (c ^^^ d) (a ^^^ b) = crc16Step c a ^^^ crc16Step d b := by
  rw [crc16Step, crc16Step, crc16Step, ← crc16Shifts_xor, BitVec.setWidth_xor, BitVec.shiftLeft_xor_distrib]
  ac_rfl

theorem crc32Step_xor (c d : Word) (a b : Byte) : crc32Step (c ^^^ d) (a ^^^ b) = crc32Step c a ^^^ crc32Step d b := by
  rw [crc32Step, crc32Step, crc32Step, ← crc32Shifts_xor, BitVec.setWidth_xor]
  ac_rfl

@[simp] theorem crc16Step_zero_zero : crc16Step 0 0 = 0 := crc16Shifts_zero 8

@[simp] theorem crc32Step_zero_zero : crc32Step 0 0 = 0 := crc32Shifts_zero 8

theorem crc16Step_xor_same_byte (c d : Half) (b : Byte) :
    crc16Step c b ^^^ crc16Step d b = crc16Step (c ^^^ d) 0 := by
  rw [← crc16Step_xor, BitVec.xor_self]
  rfl

theorem crc32Step_xor_same_byte (c d : Word) (b : Byte) :
    crc32Step c b ^^^ crc32Step d b = crc32Step (c ^^^ d) 0 := by
  rw [← crc32Step_xor, BitVec.xor_self]
  rfl

/-! ### A step loses nothing of the accumulator -/

theorem crc16Step_eq_zero {c : Half} (h : crc16Step c 0 = 0) : c = 0 := by
  simpa using crc16Shifts_eq_zero 8 h

theorem crc32Step_eq_zero {c : Word} (h : crc32Step c 0 = 0) : c = 0 := by
  simpa using crc32Shifts_eq_zero 8 h

theorem crc16Step_injective (b : Byte) : Function.Injective (crc16Step · b) := fun c d h =>
  BitVec.xor_eq_zero_iff.mp <| crc16Step_eq_zero <|
    (crc16Step_xor_same_byte c d b).symm.trans (BitVec.xor_eq_zero_iff.mpr h)

theorem crc32Step_injective (b : Byte) : Function.Injective (crc32Step · b) := fun c d h =>
  BitVec.xor_eq_zero_iff.mp <| crc32Step_eq_zero <|
    (crc32Step_xor_same_byte c d b).symm.trans (BitVec.xor_eq_zero_iff.mpr h)

/-- Settles O26: both steps are linear, so an accumulator lost by a step would be one that goes to 0, and the accumulators
are finitely many. -/
theorem crcStepsBijectiveAndLinear : Obligations.CrcStepsBijectiveAndLinear :=
  ⟨fun b => (crc16Step_injective b).bijective_of_finite, crc16Step_xor_same_byte,
    fun b => (crc32Step_injective b).bijective_of_finite, crc32Step_xor_same_byte⟩

/-! ### A step shifts one byte out and adds the step of that byte -/

/-- Folded with the byte that is to leave, an accumulator only shifts: nothing is fed back. -/
theorem crc16Step_leaving_byte (c : Half) : crc16Step c (c.extractLsb' 8 8) = c <<< 8 := by
  have low : c ^^^ (c.extractLsb' 8 8).setWidth 16 <<< 8 = (c.setWidth 8).setWidth 16 := by
    apply BitVec.eq_of_getLsbD_eq
    intro i hi
    by_cases h : i < 8
    · simp [h, hi]
    · simp [h, hi, show i - 8 < 8 by omega, show 8 + (i - 8) = i by omega]
  have shifted : (c.setWidth 8).setWidth 16 <<< 8 = c <<< 8 := by
    apply BitVec.eq_of_getLsbD_eq
    intro i hi
    simp [hi, show i - 8 < 8 by omega, show i - 8 < 16 by omega]
  rw [crc16Step, low, crc16Shifts_low, shifted]

theorem crc32Step_leaving_byte (c : Word) : crc32Step c (c.extractLsb' 0 8) = c >>> 8 := by
  have cleared : (c ^^^ (c.extractLsb' 0 8).setWidth 32).setWidth 8 = 0 := by
    apply BitVec.eq_of_getLsbD_eq
    intro i hi
    simp [hi, show i < 32 by omega]
  have shifted : (c ^^^ (c.extractLsb' 0 8).setWidth 32) >>> 8 = c >>> 8 := by
    apply BitVec.eq_of_getLsbD_eq
    intro i hi
    simp
  rw [crc32Step, crc32Shifts_high _ cleared, shifted]

theorem crc16Step_eq_shift_xor (c : Half) (b : Byte) :
    crc16Step c b = c <<< 8 ^^^ crc16Step 0 (c.extractLsb' 8 8 ^^^ b) := by
  rw [← crc16Step_leaving_byte c, ← crc16Step_xor]
  simp

theorem crc32Step_eq_shift_xor (c : Word) (b : Byte) :
    crc32Step c b = c >>> 8 ^^^ crc32Step 0 (c.extractLsb' 0 8 ^^^ b) := by
  rw [← crc32Step_leaving_byte c, ← crc32Step_xor]
  simp

/-! ### The tables hold the steps from 0 (R103) -/

theorem table16_eq_step : ∀ b : Byte, table16.getD b.toNat 0 = crc16Step 0 b := by decide +kernel

theorem table32_eq_step : ∀ b : Byte, table32.getD b.toNat 0 = crc32Step 0 b := by decide +kernel

/-- Settles O24: the byte that leaves selects its own step in the table. -/
theorem crc16ByTable : Obligations.Crc16ByTable := fun c b => by
  rw [crc16Step_eq_shift_xor, crc16StepByTable, table16_eq_step, BitVec.setWidth_ushiftRight_eq_extractLsb]

/-- Settles O25: the byte that leaves selects its own step in the table. -/
theorem crc32ByTable : Obligations.Crc32ByTable := fun c b => by
  rw [crc32Step_eq_shift_xor, crc32StepByTable, table32_eq_step,
    BitVec.setWidth_eq_extractLsb' (by decide)]

/-! ### Residues (R102 c, d) -/

theorem foldl_crc16Step_own_bytes (c : Half) : (beBytes c).foldl crc16Step c = 0 := by
  have low : c.extractLsb' 0 8 = (c <<< 8).extractLsb' 8 8 := by
    apply BitVec.eq_of_getLsbD_eq
    intro i hi
    simp [hi, show i < 16 by omega, show 8 + i < 16 by omega]
  calc (beBytes c).foldl crc16Step c
    _ = crc16Step (crc16Step c (c.extractLsb' 8 8)) (c.extractLsb' 0 8) := rfl
    _ = c <<< 8 <<< 8 := by rw [crc16Step_leaving_byte, low, crc16Step_leaving_byte]
    _ = 0 := by rw [← BitVec.shiftLeft_add]; exact BitVec.shiftLeft_eq_zero (le_refl 16)

theorem foldl_crc32Step_own_bytes (c : Word) : (leBytes c).foldl crc32Step c = 0 := by
  have next (k : Nat) : c.extractLsb' k 8 = (c >>> k).extractLsb' 0 8 := by
    apply BitVec.eq_of_getLsbD_eq
    intro i hi
    simp [hi]
  have step (k : Nat) : crc32Step (c >>> k) (c.extractLsb' k 8) = c >>> (k + 8) := by
    rw [next, crc32Step_leaving_byte, BitVec.shiftRight_add]
  calc (leBytes c).foldl crc32Step c
    _ = crc32Step (crc32Step (crc32Step (crc32Step (c >>> 0) (c.extractLsb' 0 8)) (c.extractLsb' 8 8))
          (c.extractLsb' 16 8)) (c.extractLsb' 24 8) := rfl
    _ = c >>> 32 := by rw [step, step, step, step]
    _ = 0 := BitVec.ushiftRight_eq_zero (le_refl 32)

theorem foldl_crc32Step_xor (m : List Byte) (c d : Word) :
    m.foldl crc32Step (c ^^^ d) = m.foldl crc32Step c ^^^ (List.replicate m.length 0).foldl crc32Step d := by
  induction m generalizing c d with
  | nil => rfl
  | cons b m ih =>
    have step : crc32Step (c ^^^ d) b = crc32Step c b ^^^ crc32Step d 0 := by
      simpa using crc32Step_xor c d b 0
    simp [step, ih, List.replicate_succ]

/-- Settles O27: the check's own bytes shift a CRC16 out; the running CRC32 is its check with all bits inverted, and those
bits are folded with four zero bytes. -/
theorem crcResidues : Obligations.CrcResidues := by
  refine ⟨fun m => ?_, fun m => ?_⟩
  · rw [crc16Of_append]
    exact foldl_crc16Step_own_bytes _
  · have running : crc32Run m = crc32Of m ^^^ 0xFFFFFFFF := by
      rw [← show ~~~ crc32Of m = crc32Run m from BitVec.not_not]
      exact BitVec.xor_allOnes.symm
    calc crc32Run (m ++ leBytes (crc32Of m))
      _ = (leBytes (crc32Of m)).foldl crc32Step (crc32Of m ^^^ 0xFFFFFFFF) := by rw [crc32Run_append, running]
      _ = 0 ^^^ [0, 0, 0, 0].foldl crc32Step 0xFFFFFFFF := by
        rw [foldl_crc32Step_xor, foldl_crc32Step_own_bytes]; rfl
      _ = 0xDEBB20E3 := by decide +kernel

/-! ### Zero bytes and the order of bytes (R102 a, b, f) -/

theorem crc16Of_replicate_zero (n : Nat) : crc16Of (List.replicate n 0) = 0 := by
  induction n with
  | zero => rfl
  | succ n ih => rw [List.replicate_succ', crc16Of_concat, ih, crc16Step_zero_zero]

theorem sum8Step_right_comm (s a b : Byte) : sum8Step (sum8Step s a) b = sum8Step (sum8Step s b) a :=
  add_right_comm s a b

theorem sum8Of_eq_of_perm {m m' : List Byte} (h : m.Perm m') : sum8Of m = sum8Of m' :=
  h.foldl_eq' (fun a _ b _ s => sum8Step_right_comm s a b) sum8Seed

/-- Settles O28: both CRCs tell the bytes 0, 1 from the bytes 1, 0. -/
theorem checksumLaws : Obligations.ChecksumLaws :=
  ⟨rfl, rfl, by decide, crc16Of_replicate_zero, fun _ _ => sum8Of_eq_of_perm,
    ⟨[0, 1], [1, 0], .swap .., by decide +kernel⟩, ⟨[0, 1], [1, 0], .swap .., by decide +kernel⟩⟩

/-! ### The commands (R92 to R100) -/

/-- A word of format B by its opcode and its byte (30_encoding R61). -/
theorem wordOf_byte (op a : Byte) : wordOf op a 0 = op.setWidth 32 <<< 24 ||| a.setWidth 32 <<< 16 := by
  apply BitVec.eq_of_getLsbD_eq
  intro i hi
  rw [getLsbD_wordOf]
  by_cases low : i < 16
  · simp [low, show i < 24 by omega]
  · by_cases mid : i < 24
    · simp [low, mid, hi]
    · simp [low, mid, hi, show 8 ≤ i - 16 by omega]

/-- Settles O22, command by command: the word of an update is its opcode and its byte, and the effects are the rules. -/
theorem checksumCommands : Obligations.ChecksumCommands := fun _ b =>
  ⟨⟨rfl, rfl⟩, ⟨wordOf_byte 0x11 b, rfl⟩, ⟨rfl, rfl⟩, ⟨rfl, rfl⟩, ⟨wordOf_byte 0x15 b, rfl⟩, ⟨rfl, rfl⟩, ⟨rfl, rfl⟩,
    ⟨wordOf_byte 0x19 b, rfl⟩⟩

end Sys2Proof.Machine
end

section
/-! The Byte Escaping Codec (41_escape): the encoder's escape test and its round trip through the decoder, the two escape
commands, and the cancel run within one command. -/

namespace Sys2Proof.Machine

/-! ### The encoder (R106, R112) -/

/-- The escape test in the words of R106. -/
theorem escNeeds_iff (ctlesc : Bool) (b last : Byte) : escNeeds ctlesc b last = true ↔
    b &&& 0x60 = 0 ∧ (ctlesc = true ∨ b ∈ [0x10#8, 0x11#8, 0x13#8, 0x18#8, 0x90#8, 0x91#8, 0x93#8]
      ∨ b ∈ [0x0D#8, 0x8D#8] ∧ last &&& 0x7F = 0x40) := by
  simp [escNeeds, alwaysEscaped, or_assoc]

/-- No byte that R106 names is outside 00..1F and 80..9F. -/
theorem control_of_mem : ∀ b ∈ [0x10#8, 0x11#8, 0x13#8, 0x18#8, 0x90#8, 0x91#8, 0x93#8, 0x0D#8, 0x8D#8],
    b &&& 0x60 = 0 := by decide

/-- Bits 6 and 5 are 0 exactly in the ranges 00..1F and 80..9F. -/
theorem control_iff : ∀ b : Byte, b &&& 0x60 = 0 ↔ b ≤ 0x1F#8 ∨ 0x80#8 ≤ b ∧ b ≤ 0x9F#8 := by decide

/-- Settles O32: each set is the escape test with CTLESC and the last wire byte known. -/
theorem escapeSets : Obligations.EscapeSets := by
  intro b last
  have named := control_of_mem b
  refine ⟨fun notAt => ?_, fun isAt => ?_, ?_, fun ctlesc => ⟨rfl, rfl⟩, rfl, rfl, rfl, rfl⟩
  · rw [escNeeds_iff]
    simp only [notAt, and_false, or_false, Bool.false_eq_true, false_or]
    exact and_iff_right_of_imp fun h => named (List.mem_append_left [0x0D#8, 0x8D#8] h)
  · rw [escNeeds_iff]
    simp only [isAt, and_true, Bool.false_eq_true, false_or, ← List.mem_append]
    exact and_iff_right_of_imp named
  · rw [escNeeds_iff, ← control_iff]
    simp

theorem escWire_of_needs {ctlesc : Bool} {b last : Byte} (h : escNeeds ctlesc b last = true) :
    escWire ctlesc last b = [zdle, b ^^^ 0x40] := if_pos h

theorem escWire_of_not_needs {ctlesc : Bool} {b last : Byte} (h : ¬ escNeeds ctlesc b last = true) :
    escWire ctlesc last b = [b] := if_neg h

theorem escLast_of_needs {ctlesc : Bool} {b last : Byte} (h : escNeeds ctlesc b last = true) :
    escLast ctlesc last b = b ^^^ 0x40 := if_pos h

theorem escLast_of_not_needs {ctlesc : Bool} {b last : Byte} (h : ¬ escNeeds ctlesc b last = true) :
    escLast ctlesc last b = b := if_neg h

/-- The escape byte itself is always escaped. -/
theorem escNeeds_zdle (ctlesc : Bool) (last : Byte) : escNeeds ctlesc zdle last = true :=
  (escNeeds_iff ..).mpr ⟨rfl, .inr (.inl (by decide))⟩

/-- The wire form of a byte: a pair whose second byte is toggled, or the byte itself, which then is not 0x18. -/
theorem escWire_cases (ctlesc : Bool) (last b : Byte) :
    (b &&& 0x60 = 0 ∧ escWire ctlesc last b = [zdle, b ^^^ 0x40]) ∨ (b ≠ zdle ∧ escWire ctlesc last b = [b]) := by
  by_cases h : escNeeds ctlesc b last = true
  · exact .inl ⟨((escNeeds_iff ..).mp h).1, escWire_of_needs h⟩
  · refine .inr ⟨?_, escWire_of_not_needs h⟩
    rintro rfl
    exact h (escNeeds_zdle ctlesc last)

/-! ### The second byte of a pair (R108, R115) -/

theorem frameEndOf_letterOf (fe : FrameEnd) : frameEndOf (letterOf fe) = some fe := by cases fe <;> rfl

/-- The letters of the frame ends are 68..6B. -/
theorem frameEndOf_eq_none_iff : ∀ w : Byte, frameEndOf w = none ↔ ¬ (0x68#8 ≤ w ∧ w ≤ 0x6B#8) := by decide

theorem escSecond_letterOf (fe : FrameEnd) : escSecond (letterOf fe) = .frameEnd fe := by
  rw [escSecond, frameEndOf_letterOf]

theorem escSecond_of_letter {w : Byte} (h : 0x68#8 ≤ w ∧ w ≤ 0x6B#8) :
    ∃ fe, w = letterOf fe ∧ escSecond w = .frameEnd fe := by
  obtain ⟨fe, named⟩ := Option.ne_none_iff_exists'.mp (mt (frameEndOf_eq_none_iff w).mp (not_not_intro h))
  obtain rfl := frameEndOf_some named
  exact ⟨fe, rfl, escSecond_letterOf fe⟩

theorem escSecond_of_not_letter {w : Byte} (h : ¬ (0x68#8 ≤ w ∧ w ≤ 0x6B#8)) : escSecond w =
    if w = 0x6C then .data 0x7F else if w = 0x6D then .data 0xFF
    else if w &&& 0x60 = 0x40 then .data (w ^^^ 0x40) else .badEscape w := by
  rw [escSecond, (frameEndOf_eq_none_iff w).mpr h]
  rfl

/-- Bits 6 and 5 are 10 exactly in the ranges 40..5F and C0..DF. -/
theorem toggled_iff : ∀ w : Byte, w &&& 0x60 = 0x40 ↔ 0x40#8 ≤ w ∧ w ≤ 0x5F#8 ∨ 0xC0#8 ≤ w ∧ w ≤ 0xDF#8 := by decide

theorem escSecond_of_toggled {w : Byte} (h : w &&& 0x60 = 0x40) : escSecond w = .data (w ^^^ 0x40) := by
  have range := (toggled_iff w).mp h
  rw [escSecond_of_not_letter (by bv_omega), if_neg (by bv_omega), if_neg (by bv_omega), if_pos h]

/-- The toggle takes the bytes the encoder may escape to the toggled bytes. -/
theorem toggle_toggled : ∀ b : Byte, b &&& 0x60 = 0 → (b ^^^ 0x40) &&& 0x60 = 0x40 := by decide

/-- The decoder undoes the encoder's toggle. -/
theorem escSecond_toggle {b : Byte} (h : b &&& 0x60 = 0) : escSecond (b ^^^ 0x40) = .data b := by
  rw [escSecond_of_toggled (toggle_toggled b h), BitVec.xor_assoc, BitVec.xor_self, BitVec.xor_zero]

/-- Settles O33: the first four classes by R108, the bad escapes as what their ranges leave, the sizes by counting. -/
theorem secondByteClasses : Obligations.SecondByteClasses := by
  refine ⟨escSecond_letterOf, rfl, rfl, fun w toggled => ?_, fun w bad => ?_, ?_, ?_, ?_⟩
  · exact escSecond_of_toggled ((toggled_iff w).mpr (of_decide_eq_true toggled))
  · have range := of_decide_eq_true bad
    have notToggled : ¬ (w &&& 0x60 = 0x40) := by rw [toggled_iff]; bv_omega
    rw [escSecond_of_not_letter (by bv_omega), if_neg (by bv_omega), if_neg (by bv_omega), if_neg notToggled]
  · decide +kernel
  · decide +kernel
  · decide +kernel

/-! ### The decoder over wire bytes (R108) -/

theorem escEvents_cons (escp : Bool) (c : BitVec 3) (w : Byte) (ws : List Byte) : escEvents escp c (w :: ws) =
    escEvent escp (cancelRun c w) w :: escEvents (escPending (cancelRun c w) w) (cancelRun c w) ws := rfl

theorem escEvents_cons_of_ne {w : Byte} (h : w ≠ zdle) (escp : Bool) (c : BitVec 3) (ws : List Byte) :
    escEvents escp c (w :: ws) = (if escp then escSecond w else .data w) :: escEvents false 0 ws := by
  obtain ⟨_, isZdle, _⟩ | ⟨_, isZdle, _⟩ | ⟨_, run, pending, event⟩ := escEvent_cases escp c w
  · exact absurd isZdle h
  · exact absurd isZdle h
  · rw [escEvents_cons, event, pending, run]

@[simp] theorem escPending_zdle (run : BitVec 3) : escPending run zdle = (run != 5) := Bool.and_true _

theorem escEvents_cons_of_fifth {c : BitVec 3} (h : cancelRun c zdle = 5) (escp : Bool) (ws : List Byte) :
    escEvents escp c (zdle :: ws) = .abort :: escEvents false 5 ws := by
  rw [escEvents_cons, escEvent_zdle, if_pos h, escPending_zdle, h]
  rfl

theorem escEvents_cons_zdle {c : BitVec 3} (h : cancelRun c zdle ≠ 5) (escp : Bool) (ws : List Byte) :
    escEvents escp c (zdle :: ws) = .escapeStarted :: escEvents true (cancelRun c zdle) ws := by
  rw [escEvents_cons, escEvent_zdle, if_neg h, escPending_zdle, bne_iff_ne.mpr h]

/-- A toggled byte is never 0x18. -/
theorem toggle_ne_zdle {b : Byte} (h : b &&& 0x60 = 0) : b ^^^ 0x40 ≠ zdle := by
  intro e
  have := escSecond_toggle h
  rw [e] at this
  cases this

/-- Between two logical bytes the decoder stands at ESCP = 0 and CANCNT = 0: the events of the next byte's wire form are its
own, and the decoder is back there. -/
theorem escEvents_escWire_append (ctlesc : Bool) (last b : Byte) (ws : List Byte) :
    (escEvents false 0 (escWire ctlesc last b ++ ws)).filter (· ≠ .escapeStarted)
      = .data b :: (escEvents false 0 ws).filter (· ≠ .escapeStarted) := by
  obtain ⟨control, e⟩ | ⟨raw, e⟩ := escWire_cases ctlesc last b <;> rw [e]
  · have pair : escEvents false 0 (zdle :: (b ^^^ 0x40) :: ws) = .escapeStarted :: .data b :: escEvents false 0 ws := by
      rw [escEvents_cons_zdle (by decide), escEvents_cons_of_ne (toggle_ne_zdle control), if_pos rfl,
        escSecond_toggle control]
    rw [List.cons_append, List.cons_append, List.nil_append, pair]
    rfl
  · rw [List.cons_append, List.nil_append, escEvents_cons_of_ne raw]
    rfl

/-- However much of the encoded bytes has arrived, no two bytes 0x18 stand in a row at its end. -/
theorem cancelRun_take_escWires_le (ctlesc : Bool) (last : Byte) (m : List Byte) (k : Nat) :
    ((escWires ctlesc last m).take k).foldl cancelRun 0 ≤ 1 := by
  induction m generalizing last k with
  | nil => simp [escWires]
  | cons b m ih =>
    rw [escWires]
    obtain ⟨control, e⟩ | ⟨raw, e⟩ := escWire_cases ctlesc last b <;> rw [e]
    · rcases k with _ | _ | k
      · exact Nat.zero_le _
      · exact BitVec.le_refl 1
      · simp only [List.cons_append, List.nil_append, List.take_succ_cons, List.foldl_cons,
          cancelRun_of_ne (toggle_ne_zdle control)]
        exact ih _ k
    · rcases k with _ | k
      · exact Nat.zero_le _
      · simp only [List.cons_append, List.nil_append, List.take_succ_cons, List.foldl_cons, cancelRun_of_ne raw]
        exact ih _ k

/-- Settles O34, by induction over the bytes: each comes back as its own data event. -/
theorem escapeRoundTrip : Obligations.EscapeRoundTrip := by
  refine fun ctlesc last m => ⟨?_, cancelRun_take_escWires_le ctlesc last m⟩
  induction m generalizing last with
  | nil => rfl
  | cons b m ih => rw [escWires, escEvents_escWire_append, ih, List.map_cons]

/-! ### The cancel run (R111, R114) -/

theorem cancelRun_zdle_eq_five_iff (c : BitVec 3) : cancelRun c zdle = 5 ↔ 4 ≤ c.toNat := by
  rw [← BitVec.toNat_inj, toNat_cancelRun_zdle]
  change min (c.toNat + 1) 5 = 5 ↔ _
  omega

/-- From a run of four or more every byte 0x18 aborts. -/
theorem escEvents_replicate_abort (n : Nat) (escp : Bool) {c : BitVec 3} (h : 4 ≤ c.toNat) :
    escEvents escp c (List.replicate n zdle) = List.replicate n .abort := by
  induction n generalizing escp c with
  | zero => rfl
  | succ n ih =>
    rw [List.replicate_succ, escEvents_cons_of_fifth ((cancelRun_zdle_eq_five_iff c).mpr h), ih _ (by decide),
      List.replicate_succ]

/-- From a run of 4 - n the next n bytes 0x18 start escapes, and those after them abort. -/
theorem escEvents_replicate_zdle (n more : Nat) (escp : Bool) {c : BitVec 3} (h : c.toNat + n = 4) :
    escEvents escp c (List.replicate (n + more) zdle) = List.replicate n .escapeStarted ++ List.replicate more .abort := by
  induction n generalizing escp c with
  | zero => rw [Nat.zero_add, escEvents_replicate_abort more escp h.ge, List.replicate_zero, List.nil_append]
  | succ n ih =>
    have short : cancelRun c zdle ≠ 5 := by rw [Ne, cancelRun_zdle_eq_five_iff]; omega
    have next : (cancelRun c zdle).toNat + n = 4 := by rw [toNat_cancelRun_zdle]; omega
    rw [Nat.succ_add, List.replicate_succ, escEvents_cons_zdle short, ih _ next, List.replicate_succ, List.cons_append]

/-- Settles O35: the run grows to four, and the fifth byte 0x18 is counted at four. -/
theorem fifthCancelAborts : Obligations.FifthCancelAborts := fun escp c more _ =>
  escEvents_replicate_zdle (4 - c.toNat) (more + 1) escp (by omega)

/-! ### The commands (R105, R107, R109) -/

theorem exec_escEnc (b : Byte) (s : State) : exec (.escEnc b) s =
    .next { s with
      txq := s.txq ++ escWire s.ctlesc s.lasttx b, lasttx := escLast s.ctlesc s.lasttx b, outcome := .ok, cause := .none
      rxmode := .idle, res := encReport (escWire s.ctlesc s.lasttx b) } := by
  have wires : escWires s.ctlesc s.lasttx [b] = escWire s.ctlesc s.lasttx b := List.append_nil _
  rw [exec, execEscEnc, State.txPutEsc, wires]
  rfl

theorem encReport_single (b : Byte) : encReport [b] = 0x00010000#32 ||| b.setWidth 32 := by simp [encReport]

theorem encReport_pair (b c : Byte) :
    encReport [b, c] = 0x00020000#32 ||| c.setWidth 32 <<< 8 ||| b.setWidth 32 := by simp [encReport]

/-- Settles O30: the test of R106 decides between the pair and the byte itself, and the report lists what was put. -/
theorem escapeCommands : Obligations.EscapeCommands := by
  refine fun s b => ⟨⟨rfl, rfl⟩, wordOf_byte 0x21 b, ?_⟩
  simp only [← escNeeds_iff]
  rw [exec_escEnc]
  by_cases h : escNeeds s.ctlesc b s.lasttx = true
  · rw [if_pos h, escWire_of_needs h, escLast_of_needs h, encReport_pair]
    rfl
  · rw [if_neg h, escWire_of_not_needs h, escLast_of_not_needs h, encReport_single]

/-- Step (1) of R108 in numbers. -/
theorem toNat_cancelRun (c : BitVec 3) (w : Byte) :
    (cancelRun c w).toNat = if w = 0x18 then min (c.toNat + 1) 5 else 0 := by
  split
  · subst w
    exact toNat_cancelRun_zdle c
  · rw [cancelRun_of_ne ‹_›]
    rfl

/-- Settles O31, by what `EscDec` can answer: Abort, EscapeStarted, or the event of a byte other than 0x18. -/
theorem escapeDecode : Obligations.EscapeDecode := by
  intro s w run answer
  refine ⟨wordOf_byte 0x22 w, ?_⟩
  have count : (cancelRun s.cancnt w).toNat = run := toNat_cancelRun s.cancnt w
  have effect : exec (.escDec w) s = answer (escPending (cancelRun s.cancnt w) w)
      ((escEvent s.escp (cancelRun s.cancnt w) w).kind.setWidth 32)
      ((escEvent s.escp (cancelRun s.cancnt w) w).value.setWidth 32) := by
    simp only [answer]
    rw [← count, BitVec.ofNat_toNat, BitVec.setWidth_eq]
    rfl
  have five : run = 5 ↔ cancelRun s.cancnt w = 5 := by
    rw [← count, ← BitVec.toNat_inj]
    rfl
  rw [effect]
  obtain ⟨event, _, full, pending⟩ | ⟨event, isZdle, short, pending⟩ | ⟨notZdle, zero, pending, event⟩ :=
    escEvent_cases s.escp s.cancnt w
  · rw [event, pending, if_pos (five.mpr full)]
    rfl
  · rw [event, pending, if_neg (mt five.mp short), if_pos (show w = 0x18 from isZdle)]
    rfl
  · have short : ¬ run = 5 := by
      rw [five, zero]
      decide
    rw [if_neg short, if_neg (show ¬ w = 0x18 from notZdle), pending, event]
    cases s.escp with
    | false => rfl
    | true =>
      rw [if_pos rfl, if_neg (show ¬ true = false by decide)]
      by_cases letter : 0x68#8 ≤ w ∧ w ≤ 0x6B#8
      · obtain ⟨fe, rfl, event⟩ := escSecond_of_letter letter
        rw [if_pos letter, event]
        rfl
      · rw [if_neg letter, escSecond_of_not_letter letter]
        split_ifs <;> rfl

/-! ### A cancel run within one command (R114; 42_header R128, 43_subpacket R150, 44_xblock R162) -/

/-- A command is active that counts bytes 0x18: HDR.RX or SPK.RX in any phase, XBK.RX in START. -/
structure State.CountsCancels (s : State) : Prop where
  inv : s.Inv
  active : s.rxmode = .hdr ∨ s.rxmode = .spk ∨ (s.rxmode = .xbk ∧ s.phase = phaseStart)

/-- What a byte 0x18 can change while the command stays active: CANCNT, ESCP and PHASE. -/
def State.afterCancel (s : State) (cancnt : BitVec 3) (escp : Bool) (phase : BitVec 3) : State :=
  { s with cancnt := cancnt, escp := escp, phase := phase }

@[simp] theorem State.afterCancel_cancnt (s : State) (c : BitVec 3) (e : Bool) (p : BitVec 3) :
    (s.afterCancel c e p).cancnt = c := (rfl)

variable {s : State}

/-- In HDR mode a byte is matched raw or goes through the escape decoder (42_header R125). -/
theorem State.Inv.raw_or_binary (h : s.Inv) (m : s.rxmode = .hdr) :
    hdrRaw s = true ∨ (s.phase = phaseBody ∧ s.rxenc ≠ .hex) := by
  have phase := (h.inHdr m).1
  by_cases body : s.phase = phaseBody
  · by_cases hex : s.rxenc = .hex
    · exact .inl (by simp [hdrRaw, body, hex])
    · exact .inr ⟨body, hex⟩
  · have hunting : s.phase = phaseHunt ∨ s.phase = phasePad ∨ s.phase = phaseFmt := by
      simp only [phaseHunt, phasePad, phaseFmt, phaseBody] at body ⊢
      bv_omega
    exact .inl (by obtain p | p | p := hunting <;> simp [hdrRaw, p])

/-- Where a phase matched raw goes on a byte 0x18 short of the fifth (42_header R126, R127). -/
theorem hdrRawByte_zdle (s : State) : ∃ p, hdrRawByte zdle s = .next { s with phase := p } := by
  unfold hdrRawByte
  split
  · exact ⟨s.phase, rfl⟩
  · split
    · exact ⟨phaseFmt, rfl⟩
    · split
      · exact ⟨phaseHunt, rfl⟩
      · exact ⟨phaseHunt, rfl⟩

theorem hdrRxEvent_zdle (h : s.Inv) (m : s.rxmode = .hdr) (short : cancelRun s.cancnt zdle ≠ 5) :
    ∃ e p, hdrRxEvent (.byte zdle) s = .next (s.afterCancel (cancelRun s.cancnt zdle) e p) := by
  obtain raw | ⟨body, binary⟩ := h.raw_or_binary m
  · obtain ⟨p, e⟩ := hdrRawByte_zdle (s.countCancel zdle)
    exact ⟨s.escp, p, (hdrRxEvent_of_raw raw short).trans e⟩
  · have started := escDec_of_escapeStarted ((escEvent_zdle s.escp _).trans (if_neg short))
    exact ⟨true, s.phase, by rw [hdrRxEvent_of_binary body binary, hdrBinBody, started]; rfl⟩

theorem hdrRxEvent_fifth (h : s.Inv) (m : s.rxmode = .hdr) (fifth : cancelRun s.cancnt zdle = 5) :
    ∃ e, hdrRxEvent (.byte zdle) s = .next ((s.afterCancel 5 e s.phase).finish .abort .none 0) := by
  obtain raw | ⟨body, binary⟩ := h.raw_or_binary m
  · refine ⟨s.escp, ?_⟩
    rw [hdrRxEvent_of_fifth raw fifth, State.countCancel, fifth]
    rfl
  · have aborted := escDec_of_abort ((escEvent_zdle s.escp _).trans (if_pos fifth))
    exact ⟨false, by rw [hdrRxEvent_of_binary body binary, hdrBinBody, aborted]; rfl⟩

theorem spkRxEvent_zdle (short : cancelRun s.cancnt zdle ≠ 5) :
    spkRxEvent (.byte zdle) s = .next (s.afterCancel (cancelRun s.cancnt zdle) true s.phase) := by
  rw [spkRxEvent, escDec_of_escapeStarted ((escEvent_zdle s.escp _).trans (if_neg short))]
  rfl

theorem spkRxEvent_fifth (fifth : cancelRun s.cancnt zdle = 5) :
    spkRxEvent (.byte zdle) s = .next ((s.afterCancel 5 false s.phase).finish .abort .none 0) := by
  rw [spkRxEvent, escDec_of_abort ((escEvent_zdle s.escp _).trans (if_pos fifth))]
  rfl

theorem xbkRxEvent_zdle (start : s.phase = phaseStart) (short : cancelRun s.cancnt zdle ≠ 5) :
    xbkRxEvent (.byte zdle) s = .next (s.afterCancel (cancelRun s.cancnt zdle) s.escp s.phase) :=
  (if_pos start).trans (congrArg _ (if_neg short))

theorem xbkRxEvent_fifth (start : s.phase = phaseStart) (fifth : cancelRun s.cancnt zdle = 5) :
    xbkRxEvent (.byte zdle) s = .next ((s.afterCancel 5 s.escp s.phase).finish .abort .none 0) := by
  rw [← fifth]
  exact (if_pos start).trans (congrArg _ (if_pos fifth))

theorem rxPort_of_hdr (m : s.rxmode = .hdr) (ev : RxEvent) : rxPort ev s = hdrRxEvent ev s := by rw [rxPort, m]
theorem rxPort_of_spk (m : s.rxmode = .spk) (ev : RxEvent) : rxPort ev s = spkRxEvent ev s := by rw [rxPort, m]
theorem rxPort_of_xbk (m : s.rxmode = .xbk) (ev : RxEvent) : rxPort ev s = xbkRxEvent ev s := by rw [rxPort, m]

/-- A byte 0x18 short of the fifth is counted, and the command goes on counting. -/
theorem State.CountsCancels.next (h : s.CountsCancels) (short : cancelRun s.cancnt zdle ≠ 5) :
    ∃ e p, rxPort (.byte zdle) s = .next (s.afterCancel (cancelRun s.cancnt zdle) e p)
      ∧ (s.afterCancel (cancelRun s.cancnt zdle) e p).CountsCancels := by
  obtain m | m | ⟨m, start⟩ := h.active
  · obtain ⟨e, p, event⟩ := hdrRxEvent_zdle h.inv m short
    have port := (rxPort_of_hdr m _).trans event
    exact ⟨e, p, port, rxPort_inv h.inv port, .inl m⟩
  · have port := (rxPort_of_spk m _).trans (spkRxEvent_zdle short)
    exact ⟨true, s.phase, port, rxPort_inv h.inv port, .inr (.inl m)⟩
  · have port := (rxPort_of_xbk m _).trans (xbkRxEvent_zdle start short)
    exact ⟨s.escp, s.phase, port, rxPort_inv h.inv port, .inr (.inr ⟨m, start⟩)⟩

/-- The fifth byte 0x18 completes Abort. -/
theorem State.CountsCancels.fifth (h : s.CountsCancels) (fifth : cancelRun s.cancnt zdle = 5) :
    ∃ e, rxPort (.byte zdle) s = .next ((s.afterCancel 5 e s.phase).finish .abort .none 0) := by
  obtain m | m | ⟨m, start⟩ := h.active
  · rw [rxPort_of_hdr m]
    exact hdrRxEvent_fifth h.inv m fifth
  · exact ⟨false, (rxPort_of_spk m _).trans (spkRxEvent_fifth fifth)⟩
  · exact ⟨s.escp, (rxPort_of_xbk m _).trans (xbkRxEvent_fifth start fifth)⟩

/-- n bytes 0x18, none of them the fifth, leave the command active, with n more counted. -/
theorem State.CountsCancels.run (n : Nat) (h : s.CountsCancels) (short : n ≤ 4 - s.cancnt.toNat) :
    ∃ c e p, runPorts (deliver (List.replicate n zdle)) s = .next (s.afterCancel c e p)
      ∧ (s.afterCancel c e p).CountsCancels ∧ c.toNat = s.cancnt.toNat + n := by
  induction n generalizing s with
  | zero => exact ⟨s.cancnt, s.escp, s.phase, rfl, h, rfl⟩
  | succ n ih =>
    obtain ⟨e, p, event, counts⟩ := h.next (by rw [Ne, cancelRun_zdle_eq_five_iff]; omega)
    have count : (cancelRun s.cancnt zdle).toNat = s.cancnt.toNat + 1 := by rw [toNat_cancelRun_zdle]; omega
    obtain ⟨c', e', p', rest, counts', count'⟩ := ih counts (by rw [State.afterCancel_cancnt, count]; omega)
    refine ⟨c', e', p', ?_, counts', ?_⟩
    · rw [List.replicate_succ, deliver, List.map_cons, runPorts, portStep, event]
      exact rest
    · rw [count', State.afterCancel_cancnt, count]
      omega

/-- Settles O44: the run grows to four, by induction on its length, and the next byte 0x18 is the fifth. -/
theorem cancelRunAborts : Obligations.CancelRunAborts := by
  intro s inv active
  have counts : s.CountsCancels := ⟨inv, active⟩
  obtain ⟨c, e, p, run, counts', count⟩ := counts.run (4 - s.cancnt.toNat) le_rfl
  have fifth : cancelRun c zdle = 5 := by rw [cancelRun_zdle_eq_five_iff]; omega
  obtain ⟨e', event⟩ := counts'.fifth fifth
  exact ⟨_, _, run, rfl, event, rfl, rfl, rfl, rfl, rfl, rfl, rfl, rfl, rfl, rfl⟩

end Sys2Proof.Machine
end

section
/-! A change of one byte is detected by every check (42_header R133, 43_subpacket R153, 44_xblock R165): each step is
injective in the byte for a fixed accumulator and in the accumulator for a fixed byte. -/

namespace Sys2Proof.Machine

theorem foldl_injective {α : Type} {f : α → Byte → α} (acc : ∀ b, Function.Injective (f · b)) (m : List Byte) :
    Function.Injective (m.foldl f) := by
  induction m with
  | nil => exact Function.injective_id
  | cons b m ih => exact ih.comp (acc b)

/-- Two messages that differ in one byte leave different accumulators after that byte, and so after the rest. -/
theorem foldl_ne_of_byte_ne {α : Type} {f : α → Byte → α} (acc : ∀ b, Function.Injective (f · b))
    (byte : ∀ a, Function.Injective (f a)) (seed : α) (pre post : List Byte) {b b' : Byte} (h : b ≠ b') :
    (pre ++ b :: post).foldl f seed ≠ (pre ++ b' :: post).foldl f seed := by
  rw [List.foldl_append, List.foldl_append, List.foldl_cons, List.foldl_cons]
  exact (foldl_injective acc post).ne ((byte _).ne h)

theorem crc16Step_zero_eq_zero {b : Byte} (h : crc16Step 0 b = 0) : b = 0 := by
  have placed : b.setWidth 16 <<< 8 = 0#16 := by simpa using crc16Shifts_eq_zero 8 h
  apply BitVec.eq_of_getLsbD_eq
  intro i hi
  have bit := congrArg (BitVec.getLsbD · (8 + i)) placed
  simpa [show 8 + i < 16 by omega, show i < 16 by omega] using bit

theorem crc32Step_zero_eq_zero {b : Byte} (h : crc32Step 0 b = 0) : b = 0 := by
  have placed : b.setWidth 32 = 0#32 := by simpa using crc32Shifts_eq_zero 8 h
  simpa using congrArg (BitVec.setWidth 8) placed

theorem crc16Step_byte_injective (c : Half) : Function.Injective (crc16Step c) := fun a b h => by
  have diff := crc16Step_xor c c a b
  rw [h, BitVec.xor_self, BitVec.xor_self] at diff
  exact BitVec.xor_eq_zero_iff.mp (crc16Step_zero_eq_zero diff)

theorem crc32Step_byte_injective (c : Word) : Function.Injective (crc32Step c) := fun a b h => by
  have diff := crc32Step_xor c c a b
  rw [h, BitVec.xor_self, BitVec.xor_self] at diff
  exact BitVec.xor_eq_zero_iff.mp (crc32Step_zero_eq_zero diff)

/-- Settles O29: no step forgets its byte, and no later step forgets the accumulator; the inversion of CRC32 is
injective. -/
theorem oneByteChangeIsDetected : Obligations.OneByteChangeIsDetected := fun pre post _ _ h =>
  ⟨foldl_ne_of_byte_ne crc16Step_injective crc16Step_byte_injective crc16Seed pre post h,
    mt BitVec.not_inj.mp (foldl_ne_of_byte_ne crc32Step_injective crc32Step_byte_injective crc32Seed pre post h),
    foldl_ne_of_byte_ne add_left_injective add_right_injective sum8Seed pre post h⟩

end Sys2Proof.Machine
end

section
/-! The check of the active receive command (42_header R129, 43_subpacket R144, 30_encoding R78): every step keeps the
accumulator equal to the check of exactly the bytes received. -/

namespace Sys2Proof.Machine

variable {s t : State}

/-! ### The check in each mode -/

theorem State.checkCurrent_of_idle (m : s.rxmode = .idle) : s.CheckCurrent := by
  rw [State.CheckCurrent, m]
  trivial

/-- Before a header body HDR mode checks nothing. -/
theorem State.checkCurrent_of_not_body (m : s.rxmode = .hdr) (p : s.phase ≠ phaseBody) : s.CheckCurrent := by
  rw [State.CheckCurrent, m]
  exact fun body => absurd body p

theorem State.checkCurrent_of_body (m : s.rxmode = .hdr)
    (h : s.CheckIs (s.hbuf.toList.take (min s.bodyBytes 5))) : s.CheckCurrent := by
  rw [State.CheckCurrent, m]
  exact fun _ => h

theorem State.CheckCurrent.inBody (h : s.CheckCurrent) (m : s.rxmode = .hdr) (p : s.phase = phaseBody) :
    s.CheckIs (s.hbuf.toList.take (min s.bodyBytes 5)) := by
  rw [State.CheckCurrent, m] at h
  exact h p

theorem State.checkCurrent_of_data (m : s.rxmode = .spk) (p : s.phase = phaseSpkData)
    (h : s.CheckIs (s.payload s.rxlen.toNat)) : s.CheckCurrent := by
  rw [State.CheckCurrent, m, p, if_neg (by decide), List.append_nil]
  exact h

theorem State.CheckCurrent.inData (h : s.CheckCurrent) (m : s.rxmode = .spk) (p : s.phase = phaseSpkData) :
    s.CheckIs (s.payload s.rxlen.toNat) := by
  rw [State.CheckCurrent, m, p, if_neg (by decide), List.append_nil] at h
  exact h

theorem State.checkCurrent_of_trail (m : s.rxmode = .spk) (p : s.phase = phaseSpkTrail)
    (h : s.CheckIs (s.payload s.rxlen.toNat ++ [letterOf s.fe])) : s.CheckCurrent := by
  rw [State.CheckCurrent, m, p]
  exact h

theorem State.checkCurrent_of_xbk (m : s.rxmode = .xbk) (h : s.BlockCheckIs (s.payload s.rxlen.toNat)) :
    s.CheckCurrent := by
  rw [State.CheckCurrent, m]
  exact h

theorem State.CheckCurrent.inXbk (h : s.CheckCurrent) (m : s.rxmode = .xbk) :
    s.BlockCheckIs (s.payload s.rxlen.toNat) := by
  rw [State.CheckCurrent, m] at h
  exact h

/-- The check reads neither the agenda nor the TX queue nor the reply log. -/
theorem State.CheckCurrent.outside (h : s.CheckCurrent) (agenda : List PortStep) (txq : List Byte)
    (replies : List Reply) : { s with agenda := agenda, txq := txq, replies := replies }.CheckCurrent := h

/-! ### The check of a message, seeded and extended by one byte -/

theorem State.checkIs_seedCheck {c32 : Bool} (width : c32 = s.rxc32) : (s.seedCheck c32).CheckIs [] := by
  subst width
  cases w : s.rxc32 <;> simp [State.CheckIs, w]

theorem State.blockCheckIs_seedBlock {mode : CheckMode} (h : mode = s.xmode) : (s.seedBlock mode).BlockCheckIs [] := by
  subst h
  cases w : s.xmode <;> simp [State.BlockCheckIs, State.seedBlock, w]

theorem State.CheckIs.fold {m : List Byte} (h : s.CheckIs m) {c32 : Bool} (width : c32 = s.rxc32) (b : Byte) :
    (s.foldCheck c32 b).CheckIs (m ++ [b]) := by
  subst width
  cases w : s.rxc32 <;> simp_all [State.CheckIs, crc16Of_concat, crc32Run_concat]

theorem State.BlockCheckIs.fold {m : List Byte} (h : s.BlockCheckIs m) (b : Byte) :
    (s.foldBlock s.xmode b).BlockCheckIs (m ++ [b]) := by
  cases w : s.xmode <;> simp_all [State.BlockCheckIs, State.foldBlock, crc16Of_concat, sum8Of_concat]

/-! ### The body of a header (42_header R127, R129, R130) -/

theorem take_set_succ (v : Vector Byte 9) {j : Nat} (hj : j < 9) (b : Byte) :
    (v.set j b).toList.take (j + 1) = v.toList.take j ++ [b] := by
  simp [List.take_add_one, Vector.toList_set, List.take_set_of_le, hj]

theorem take_set_of_le (v : Vector Byte 9) {j n : Nat} (hj : j < 9) (b : Byte) (h : n ≤ j) :
    (v.set j b).toList.take n = v.toList.take n := by
  rw [Vector.toList_set, List.take_set_of_le h]

/-- A byte stored in HBUF is folded if it is one of the first five. -/
theorem State.CheckIs.storeBody {j : Nat} (h : s.CheckIs (s.hbuf.toList.take (min j 5))) {c32 : Bool}
    (width : c32 = s.rxc32) (hj : j < 9) (b : Byte) :
    (if j < 5 then { s with hbuf := s.hbuf.set j b }.foldCheck c32 b else { s with hbuf := s.hbuf.set j b }).CheckIs
      ((s.hbuf.set j b).toList.take (min (j + 1) 5)) := by
  by_cases body : j < 5
  · rw [if_pos body, min_eq_left body, take_set_succ]
    rw [min_eq_left body.le] at h
    exact State.CheckIs.fold (s := { s with hbuf := s.hbuf.set j b }) h width b
  · rw [if_neg body, min_eq_right (by omega), take_set_of_le _ _ _ (by omega)]
    rwa [min_eq_right (by omega)] at h

theorem hdrAfterBodyByte_checkIs (hj : s.idx.toNat < 9) (b : Byte)
    (h : s.CheckIs (s.hbuf.toList.take (min s.idx.toNat 5))) : (hdrAfterBodyByte s hj b).CheckIs
      ((hdrAfterBodyByte s hj b).hbuf.toList.take (min (s.idx.toNat + 1) 5)) := by
  have stored : (hdrAfterBodyByte s hj b).hbuf = s.hbuf.set s.idx.toNat b := by
    obtain ⟨_, _, e⟩ := hdrAfterBodyByte_eq s hj b
    rw [e]
  rw [stored]
  exact h.storeBody rfl hj b

theorem hdrAfterLowDigit_checkIs (narrow : s.rxc32 = false) {j : Nat} (hj : j < 9) (b : Byte)
    (h : s.CheckIs (s.hbuf.toList.take (min j 5))) : (hdrAfterLowDigit s j hj b).CheckIs
      ((hdrAfterLowDigit s j hj b).hbuf.toList.take (min (j + 1) 5)) := by
  have stored : (hdrAfterLowDigit s j hj b).hbuf = s.hbuf.set j b := by
    obtain ⟨_, e⟩ := hdrAfterLowDigit_eq s j hj b
    rw [e]
  rw [stored]
  exact h.storeBody narrow.symm hj b

theorem State.bodyBytes_of_hex (h : s.rxenc = .hex) : s.bodyBytes = s.idx.toNat / 2 := if_pos h

theorem State.bodyBytes_of_binary (h : s.rxenc ≠ .hex) : s.bodyBytes = s.idx.toNat := if_neg h

theorem State.checkCurrent_of_hexBody {n : Nat} (m : s.rxmode = .hdr) (he : s.rxenc = .hex)
    (count : s.idx.toNat / 2 = n)
    (h : s.CheckIs (s.hbuf.toList.take (min n 5))) : s.CheckCurrent :=
  State.checkCurrent_of_body m (by rwa [State.bodyBytes_of_hex he, count])

theorem State.checkCurrent_of_binaryBody {n : Nat} (m : s.rxmode = .hdr) (he : s.rxenc ≠ .hex)
    (count : s.idx.toNat = n)
    (h : s.CheckIs (s.hbuf.toList.take (min n 5))) : s.CheckCurrent :=
  State.checkCurrent_of_body m (by rwa [State.bodyBytes_of_binary he, count])

/-- A HEX body is checked with CRC16. -/
theorem State.Inv.narrow_of_hex (h : s.Inv) (m : s.rxmode = .hdr) (p : s.phase = phaseBody) (he : s.rxenc = .hex) :
    s.rxc32 = false := by
  rw [((h.inHdr m).2 p).1, he]
  rfl

/-- IDX does not wrap inside a body. -/
theorem State.Inv.toNat_idx_succ (h : s.Inv) (m : s.rxmode = .hdr) (p : s.phase = phaseBody) :
    (s.idx + 1).toNat = s.idx.toNat + 1 := by
  have below := ((h.inHdr m).2 p).2
  have : bodyLength s.rxenc ≤ 14 := by cases s.rxenc <;> decide
  bv_omega

/-! ### RX events -/

theorem hdrFinish_checkCurrent : (hdrFinish s).CheckCurrent := by
  obtain ⟨_, e⟩ | ⟨_, e⟩ := hdrFinish_cases s <;> rw [e] <;> exact State.checkCurrent_of_idle rfl

theorem HdrRawCase.checkCurrent {w : Byte} (h : s.Inv) (current : s.CheckCurrent) (m : s.rxmode = .hdr)
    (c : HdrRawCase w s t) : t.CheckCurrent := by
  cases c with
  | abort => exact State.checkCurrent_of_idle rfl
  | hunt p hp => 
    have before : p ≠ phaseBody := by obtain rfl | rfl | rfl := hp <;> decide
    exact State.checkCurrent_of_not_body m before
  | start enc =>
    have seeded : (startBody enc (s.countCancel w)).CheckIs [] := State.checkIs_seedCheck rfl
    have none : (startBody enc (s.countCancel w)).bodyBytes = 0 := by simp [startBody, State.bodyBytes]
    exact State.checkCurrent_of_body (by simpa [startBody] using m) (by simpa [none] using seeded)
  | badDigit => exact State.checkCurrent_of_idle rfl
  | highDigit d hp he _ hi hj =>
    have same : (s.idx + 1).toNat / 2 = s.idx.toNat / 2 := by rw [h.toNat_idx_succ m hp]; omega
    have held := current.inBody m hp
    rw [State.bodyBytes_of_hex he, ← take_set_of_le _ hj (d.setWidth 8 <<< 4) (min_le_left ..)] at held
    exact State.checkCurrent_of_hexBody m he same held
  | lowDigit d hp he _ hi hj =>
    have next : (s.idx + 1).toNat / 2 = s.idx.toNat / 2 + 1 := by rw [h.toNat_idx_succ m hp]; omega
    have held := current.inBody m hp
    rw [State.bodyBytes_of_hex he] at held
    have checked := hdrAfterLowDigit_checkIs (s := s.countCancel w) (h.narrow_of_hex m hp he) hj
      (s.hbuf[s.idx.toNat / 2] ||| d.setWidth 8) held
    obtain ⟨c16, e⟩ := hdrAfterLowDigit_eq (s.countCancel w) (s.idx.toNat / 2) hj
      (s.hbuf[s.idx.toNat / 2] ||| d.setWidth 8)
    rw [e] at checked ⊢
    exact State.checkCurrent_of_hexBody m he next checked
  | lastDigit => exact hdrFinish_checkCurrent

theorem HdrBinCase.checkCurrent {w : Byte} (h : s.Inv) (current : s.CheckCurrent) (m : s.rxmode = .hdr)
    (hp : s.phase = phaseBody) (he : s.rxenc ≠ .hex) (c : HdrBinCase w s t) : t.CheckCurrent := by
  cases c with
  | escape => exact current
  | more b _ hj =>
    have held := current.inBody m hp
    rw [State.bodyBytes_of_binary he] at held
    have checked := hdrAfterBodyByte_checkIs (s := (s.escDec w).2) hj b held
    obtain ⟨c16, c32, e⟩ := hdrAfterBodyByte_eq (s.escDec w).2 hj b
    rw [e] at checked ⊢
    exact State.checkCurrent_of_binaryBody m he (h.toNat_idx_succ m hp) checked
  | last => exact hdrFinish_checkCurrent
  | _ => exact State.checkCurrent_of_idle rfl

theorem hdrRxEvent_checkCurrent (h : s.Inv) (current : s.CheckCurrent) (m : s.rxmode = .hdr) {ev : RxEvent}
    (e : hdrRxEvent ev s = .next t) : t.CheckCurrent := by
  obtain ⟨_, rfl⟩ | ⟨w, _, ⟨_, raw⟩ | ⟨hp, he, bin⟩⟩ := hdrRxEvent_cases e
  · exact State.checkCurrent_of_idle rfl
  · exact raw.checkCurrent h current m
  · exact bin.checkCurrent h current m hp he

theorem State.finishCheck_checkCurrent (ok : Bool) : (s.finishCheck ok).CheckCurrent := by
  cases ok <;> exact State.checkCurrent_of_idle rfl

/-- The payload with one more byte stored at its end (43_subpacket R147, 44_xblock R163). -/
theorem State.payload_receive {n : Nat} {b : Byte} (pbuf : t.pbuf = s.pbuf.write n b) (epoch : t.epoch = s.epoch) :
    t.payload (n + 1) = s.payload n ++ [b] := by
  have before : t.payload n = s.payload n :=
    State.payload_congr (fun a ha => by rw [pbuf, Memory.read_write_other _ _ ha.ne]) epoch
  have stored : t.pbufByte n = b := State.pbufByte_of_read (by rw [pbuf, Memory.read_write_same])
  rw [State.payload_succ, before, stored]

theorem SpkCase.checkCurrent {w : Byte} (h : s.Inv) (current : s.CheckCurrent) (m : s.rxmode = .spk)
    (c : SpkCase w s t) : t.CheckCurrent := by
  obtain ⟨_, count, room, _, _⟩ := h.inSpk m
  cases c with
  | escape => exact current
  | payload b _ hp hi =>
    have next : (s.idx + 1).toNat = s.idx.toNat + 1 := by bv_omega
    have held := current.inData m hp
    have checked := State.CheckIs.fold (s := { (s.escDec w).2 with pbuf := s.pbuf.write s.idx.toNat b }) held rfl b
    rw [count] at checked
    refine State.checkCurrent_of_data (by simpa using m) (by simpa using hp) ?_
    rw [next, State.payload_receive (s := s) (b := b) (by simp) (by simp)]
    exact checked
  | trailer => exact current
  | last => exact State.finishCheck_checkCurrent _
  | frameEnd fe _ hp =>
    have held := current.inData m hp
    have checked := State.CheckIs.fold (s := (s.escDec w).2) held rfl (letterOf fe)
    refine State.checkCurrent_of_trail (by simpa using m) rfl ?_
    rw [State.payload_congr (s := s) (by simp) (by simp)]
    simp only [State.foldCheck_rxlen, State.escDec_rxlen]
    exact checked
  | _ => exact State.checkCurrent_of_idle rfl

theorem spkRxEvent_checkCurrent (h : s.Inv) (current : s.CheckCurrent) (m : s.rxmode = .spk) {ev : RxEvent}
    (e : spkRxEvent ev s = .next t) : t.CheckCurrent := by
  obtain ⟨_, rfl⟩ | ⟨w, _, byte⟩ := spkRxEvent_cases e
  · exact State.checkCurrent_of_idle rfl
  · exact byte.checkCurrent h current m

/-- A payload byte of a block is folded (44_xblock R163). -/
theorem xbkAfterPayloadByte_blockCheckIs (h : s.BlockCheckIs (s.payload s.rxlen.toNat)) (count : s.rxlen = s.idx)
    (below : s.idx.toNat < 128) (w : Byte) : (xbkAfterPayloadByte s w).BlockCheckIs
      ((xbkAfterPayloadByte s w).payload (xbkAfterPayloadByte s w).rxlen.toNat) := by
  have next : (xbkAfterPayloadByte s w).rxlen.toNat = s.idx.toNat + 1 := by
    change (s.idx + 1).toNat = _
    bv_omega
  rw [count] at h
  rw [next, State.payload_receive (s := s) (b := w) (by simp [xbkAfterPayloadByte]) (by simp [xbkAfterPayloadByte])]
  exact State.BlockCheckIs.fold (s := { s with cancnt := 0, pbuf := s.pbuf.write s.idx.toNat w }) h w

theorem XbkCase.checkCurrent {w : Byte} (h : s.Inv) (current : s.CheckCurrent) (m : s.rxmode = .xbk)
    (c : XbkCase w s t) : t.CheckCurrent := by
  obtain ⟨_, count, _, data, _⟩ := h.inXbk m
  have held := current.inXbk m
  cases c with
  | start | cancel | number | complement | crcHigh => exact State.checkCurrent_of_xbk m held
  | payload hp =>
    exact State.checkCurrent_of_xbk (by simpa [xbkAfterPayloadByte] using m)
      (xbkAfterPayloadByte_blockCheckIs held count (data hp) w)
  | lastPayload hp =>
    exact State.checkCurrent_of_xbk (by simpa [xbkAfterPayloadByte] using m)
      (xbkAfterPayloadByte_blockCheckIs held count (data hp) w)
  | sum => exact State.finishCheck_checkCurrent _
  | crcLow => exact State.finishCheck_checkCurrent _
  | _ => exact State.checkCurrent_of_idle rfl

theorem xbkRxEvent_checkCurrent (h : s.Inv) (current : s.CheckCurrent) (m : s.rxmode = .xbk) {ev : RxEvent}
    (e : xbkRxEvent ev s = .next t) : t.CheckCurrent := by
  obtain ⟨_, rfl⟩ | ⟨w, _, byte⟩ := xbkRxEvent_cases e
  · exact State.checkCurrent_of_idle rfl
  · exact byte.checkCurrent h current m

/-! ### Commands -/

/-- An accepted SPK.RX has received nothing and seeded its check (43_subpacket R146). -/
theorem spkStart_checkCurrent (maxlen : Nat) : (spkStart maxlen s).CheckCurrent := by
  have seeded : (spkStart maxlen s).CheckIs [] := State.checkIs_seedCheck rfl
  refine State.checkCurrent_of_data (by simp [spkStart]) (by simp [spkStart, phaseSpkData]) ?_
  simpa [spkStart] using seeded

/-- An accepted XBK.RX has received nothing and seeded its check (44_xblock R160). -/
theorem execXbkRx_checkCurrent {mode : CheckMode} (e : execXbkRx mode s = .next t) : t.CheckCurrent := by
  cases e
  refine State.checkCurrent_of_xbk (by simp) ?_
  simpa using State.blockCheckIs_seedBlock (mode := mode) rfl

theorem execHdrTx_checkCurrent {enc : HdrEnc} (e : execHdrTx enc s = .next t) : t.CheckCurrent := by
  cases enc <;> cases e <;> exact State.checkCurrent_of_idle rfl

theorem exec_checkCurrent {i : Instr} (e : exec i s = .next t) : t.CheckCurrent := by
  cases i with
  | hdrTx enc => exact execHdrTx_checkCurrent e
  | hdrRx => cases e; exact State.checkCurrent_of_not_body rfl (by simp [phaseBody])
  | spkTx enc fe len =>
    obtain ⟨_, rfl⟩ | ⟨_, rfl⟩ := execSpkTx_next e <;> exact State.checkCurrent_of_idle rfl
  | spkRx maxlen =>
    obtain ⟨_, rfl⟩ | ⟨_, rfl⟩ := execSpkRx_next e
    · exact State.checkCurrent_of_idle rfl
    · exact spkStart_checkCurrent maxlen
  | xbkTx mode len =>
    obtain ⟨_, rfl⟩ | ⟨_, rfl⟩ := execXbkTx_next e <;> exact State.checkCurrent_of_idle rfl
  | xbkRx mode => exact execXbkRx_checkCurrent e
  | _ => cases e; exact State.checkCurrent_of_idle rfl

/-! ### Ports -/

theorem rxPort_checkCurrent (h : s.Inv) (current : s.CheckCurrent) {ev : RxEvent} (e : rxPort ev s = .next t) :
    t.CheckCurrent := by
  unfold rxPort at e
  split at e
  · cases e
  · exact hdrRxEvent_checkCurrent h current ‹_› e
  · exact spkRxEvent_checkCurrent h current ‹_› e
  · exact xbkRxEvent_checkCurrent h current ‹_› e

theorem commandPort_checkCurrent {w : Word} (e : commandPort w s = .next t) : t.CheckCurrent := by
  obtain ⟨i, _, effect⟩ | rfl := commandPort_next e
  · exact exec_checkCurrent effect
  · exact State.checkCurrent_of_idle rfl

theorem registerWritePort_checkCurrent {n : Nat} {v : Word} (e : registerWritePort n v s = .next t) :
    t.CheckCurrent := by
  unfold registerWritePort at e
  split at e <;> cases e
  exact State.checkCurrent_of_idle ((s.regStore_kept n v).1.trans (not_busy_iff.mp ‹_›))

theorem bufferWritePort_checkCurrent {a : Nat} {b : Byte} (e : bufferWritePort a b s = .next t) :
    t.CheckCurrent := by
  unfold bufferWritePort at e
  split at e
  · cases e
  · split at e <;> cases e
    exact State.checkCurrent_of_idle (not_busy_iff.mp ‹_›)

theorem portStep_checkCurrent (h : s.Inv) (current : s.CheckCurrent) {p : PortStep} (e : portStep p s = .next t) :
    t.CheckCurrent := by
  cases p with
  | cmd w => exact commandPort_checkCurrent e
  | regRead n => cases e; exact current.outside _ _ _
  | regWrite n v => exact registerWritePort_checkCurrent e
  | bufRead a => obtain rfl := bufferReadPort_next e; exact current.outside _ _ _
  | bufWrite a b => exact bufferWritePort_checkCurrent e
  | rx ev => exact rxPort_checkCurrent h current e
  | txTake => obtain ⟨_, _, _, rfl⟩ := txPort_next e; exact current.outside _ _ _
  | hardReset => cases e; exact State.checkCurrent_of_idle rfl

/-- Settles O59, port by port, on the state whose agenda has moved on: an active command's accumulator starts at the seed
and folds each byte as it is stored. -/
theorem stepKeepsCheckCurrent : Obligations.StepKeepsCheckCurrent := by
  intro s t h current e
  unfold step at e
  split at e
  · cases e
  · exact portStep_checkCurrent (h.outside _ s.txq s.replies) (current.outside _ s.txq s.replies) e

end Sys2Proof.Machine
end

section
/-! The commands of the Header Codec and the acceptance of the receive commands (42_header R120, R123; 43_subpacket R146,
44_xblock R160). -/

namespace Sys2Proof.Machine

variable {s t : State}

/-! ### HDR.TX (R120) -/

theorem encode_hdrTx (enc : HdrEnc) : encode (.hdrTx enc) = 0x30000000#32 ||| enc.code.setWidth 32 <<< 16 := by
  cases enc <;> decide

/-- RES of a transmit command counts the bytes appended (10_state R21). -/
theorem State.finishSent_of_txq {bs : List Byte} (h : t.txq = s.txq ++ bs) :
    t.finishSent s = t.finish .ok .none (BitVec.ofNat 32 bs.length) := by
  rw [State.finishSent_eq, h, List.length_append, Nat.add_sub_cancel_left]

theorem hdrTxHex_eq (s : State) : hdrTxHex s =
    { s with
      crc16 := crc16Of s.headerBody
      txq := s.txq ++ ([zpad, zpad, zdle, formatByte .hex]
        ++ (s.headerBody ++ beBytes (crc16Of s.headerBody)).flatMap hexPair ++ [charCR, charLF])
      outcome := .ok, cause := .none, rxmode := .idle, res := 20 } := by
  unfold hdrTxHex
  exact (State.finishSent_of_txq (s := s) rfl).trans rfl

theorem hdrTxBin_eq (s : State) (enc : HdrEnc) {m : List Byte}
    (h : s.headerBody ++ (s.checkOver (wideCheck enc) s.headerBody).trailer (wideCheck enc) = m) : hdrTxBin enc s =
    { s.checkOver (wideCheck enc) s.headerBody with
      txq := s.txq ++ ([zpad, zdle, formatByte enc] ++ escWires s.ctlesc s.lasttx m)
      lasttx := (escWires s.ctlesc s.lasttx m).getLastD s.lasttx
      outcome := .ok, cause := .none, rxmode := .idle
      res := BitVec.ofNat 32 (3 + (escWires s.ctlesc s.lasttx m).length) } := by
  have appended : (((s.checkOver (wideCheck enc) s.headerBody).txPut [zpad, zdle, formatByte enc]).txPutEsc m).txq =
      s.txq ++ ([zpad, zdle, formatByte enc] ++ escWires s.ctlesc s.lasttx m) := by simp
  rw [hdrTxBin, h, State.finishSent_of_txq appended, ← escLasts_eq, List.length_append]
  simp [State.finish, State.complete, State.txPut, State.txPutEsc]

/-- Settles O37, by the three forms of a header: HEX raw, and a binary form with either check through the encoder. -/
theorem headerTransmit : Obligations.HeaderTransmit := by
  refine fun s enc => ⟨encode_hdrTx enc, ?_⟩
  cases enc with
  | reserved => rfl
  | hex => exact congrArg _ (hdrTxHex_eq s)
  | bin16 => exact congrArg _ (hdrTxBin_eq s .bin16 rfl)
  | bin32 => exact congrArg _ (hdrTxBin_eq s .bin32 rfl)

/-! ### Acceptance (R123, R146, R160) -/

theorem exec_spkRx {maxlen : Nat} (named : s.henc ≠ .reserved) (fits : maxlen ≤ s.size) :
    exec (.spkRx maxlen) s = .next (spkStart maxlen s) :=
  if_neg (Bool.eq_false_iff.mp (State.spkRxBad_eq_false.mpr ⟨named, fits⟩))

/-- Settles O38: HDR.RX and XBK.RX have no operand to refuse, and SPK.RX takes the width of its check from HENC. -/
theorem receiversStart : Obligations.ReceiversStart := by
  refine fun s maxlen => ⟨⟨rfl, rfl⟩, fun named fits => ?_, rfl, rfl⟩
  rw [exec_spkRx named fits, spkStart]
  by_cases wide : s.henc = .bin32
  · rw [if_pos wide, if_pos wide, wideCheck, beq_iff_eq.mpr wide]
    rfl
  · rw [if_neg wide, if_neg wide, wideCheck, beq_eq_false_iff_ne.mpr wide]
    rfl

/-! ### A Timeout event (R132, R147, R161) -/

/-- Settles O39, mode by mode: each RX-event rule takes a Timeout before it looks at the phase. -/
theorem timeoutCompletes : Obligations.TimeoutCompletes := by
  intro s busy
  cases mode : s.rxmode with
  | idle => exact absurd mode busy
  | hdr => exact rxPort_of_hdr mode .timeout
  | spk => exact rxPort_of_spk mode .timeout
  | xbk => exact rxPort_of_xbk mode .timeout

end Sys2Proof.Machine
end

section
/-! HDR.RX byte by byte (42_header R124 to R130): the hunt for the sentinel, the HEX body, the binary body, and what an
accepted header is. -/

namespace Sys2Proof.Machine

variable {s t : State} {w b : Byte}

/-! ### Phases matched raw (R125, R126) -/

/-- A byte that completes no cancel run goes to the handler of its phase. -/
theorem rx_of_raw (m : s.rxmode = .hdr) (raw : hdrRaw s = true) (short : cancelRun s.cancnt w ≠ 5) :
    portStep (.rx (.byte w)) s = hdrRawByte w (s.countCancel w) :=
  (rxPort_of_hdr m _).trans (hdrRxEvent_of_raw raw short)

theorem rx_of_hunt (m : s.rxmode = .hdr) (p : s.phase = phaseHunt) (short : cancelRun s.cancnt w ≠ 5) :
    portStep (.rx (.byte w)) s =
      .next { s with cancnt := cancelRun s.cancnt w, phase := if w = zpad then phasePad else phaseHunt } := by
  rw [rx_of_raw m (by simp [hdrRaw, p]) short, hdrRawByte, State.countCancel_phase, if_pos p, hdrHunt]
  split
  · rfl
  · rw [← p]
    rfl

theorem rx_of_pad (m : s.rxmode = .hdr) (p : s.phase = phasePad) (short : cancelRun s.cancnt w ≠ 5) :
    portStep (.rx (.byte w)) s = .next { s with
      cancnt := cancelRun s.cancnt w
      phase := if w = zpad then phasePad else if w = zdle then phaseFmt else phaseHunt } := by
  have later : ¬ s.phase = phaseHunt := by rw [p]; decide
  rw [rx_of_raw m (by simp [hdrRaw, p]) short, hdrRawByte, State.countCancel_phase, if_neg later, if_pos p, hdrPad]
  split
  · rfl
  · split <;> rfl

theorem rx_of_fmt (m : s.rxmode = .hdr) (p : s.phase = phaseFmt) (short : cancelRun s.cancnt w ≠ 5) :
    portStep (.rx (.byte w)) s = .next (hdrFmt w (s.countCancel w)) := by
  have later : ¬ s.phase = phaseHunt ∧ ¬ s.phase = phasePad := by rw [p]; decide
  rw [rx_of_raw m (by simp [hdrRaw, p]) short, hdrRawByte, State.countCancel_phase, if_neg later.1, if_neg later.2,
    if_pos p]

theorem encOfFormat_formatByte {enc : HdrEnc} (named : enc ≠ .reserved) : encOfFormat (formatByte enc) = some enc := by
  cases enc with
  | reserved => exact absurd rfl named
  | _ => rfl

/-- A format byte starts a body (R71). -/
theorem rx_of_format {enc : HdrEnc} (m : s.rxmode = .hdr) (p : s.phase = phaseFmt) (named : enc ≠ .reserved)
    (short : cancelRun s.cancnt (formatByte enc) ≠ 5) :
    portStep (.rx (.byte (formatByte enc))) s = .next (startBody enc (s.countCancel (formatByte enc))) := by
  rw [rx_of_fmt m p short, hdrFmt, encOfFormat_formatByte named]

/-- Every other byte resumes the hunt. -/
theorem rx_of_no_format (m : s.rxmode = .hdr) (p : s.phase = phaseFmt) (h : encOfFormat w = none)
    (short : cancelRun s.cancnt w ≠ 5) : portStep (.rx (.byte w)) s =
      .next { s with cancnt := cancelRun s.cancnt w, phase := if w = zpad then phasePad else phaseHunt } := by
  rw [rx_of_fmt m p short, hdrFmt, h]
  simp only
  split <;> rfl

theorem encOfFormat_eq_none_iff : encOfFormat w = none ↔ w ∉ [0x41#8, 0x42#8, 0x43#8] := by
  unfold encOfFormat
  split_ifs <;> simp_all

/-- Settles O40, phase by phase; a body starts with the seed of its check. -/
theorem headerHunt : Obligations.HeaderHunt := by
  refine fun s w m short => ⟨fun p => rx_of_hunt m p short, fun p => rx_of_pad m p short,
    fun p other => rx_of_no_format m p (encOfFormat_eq_none_iff.mpr other) short, fun p enc narrow format => ?_,
    fun p format => ?_⟩
  · subst format
    obtain rfl | rfl : enc = .bin16 ∨ enc = .hex := by simpa using narrow
    · exact rx_of_format (enc := .bin16) m p (by decide) short
    · exact rx_of_format (enc := .hex) m p (by decide) short
  · subst format
    exact rx_of_format (enc := .bin32) m p (by decide) short

/-! ### The body of a header -/

theorem hdrFinish_of_ok (h : hdrCheckOk s = true) : hdrFinish s =
    { s with
      htype := s.hbuf[0], hval := ofLe s.hbuf[1] s.hbuf[2] s.hbuf[3] s.hbuf[4], henc := s.rxenc
      outcome := .ok, cause := .none, rxmode := .idle, res := 0 } := if_pos h

theorem hdrFinish_of_mismatch (h : ¬ hdrCheckOk s = true) : hdrFinish s =
    { s with outcome := .corrupt, cause := .checkMismatch, rxmode := .idle, res := 0 } := if_neg h

theorem hdrAfterLowDigit_fields {j : Nat} (hj : j < 9) (b : Byte) : hdrAfterLowDigit s j hj b =
    { s with
      hbuf := s.hbuf.set j b, idx := s.idx + 1, crc16 := if j < 5 then crc16Step s.crc16 b else s.crc16 } := by
  by_cases folded : j < 5 <;> simp [hdrAfterLowDigit, State.foldCheck, folded]

theorem hdrAfterBodyByte_fields (hj : s.idx.toNat < 9) (b : Byte) : hdrAfterBodyByte s hj b =
    { s with
      hbuf := s.hbuf.set s.idx.toNat b, idx := s.idx + 1
      crc32 := if s.rxc32 = true ∧ s.idx.toNat < 5 then crc32Step s.crc32 b else s.crc32
      crc16 := if ¬ s.rxc32 = true ∧ s.idx.toNat < 5 then crc16Step s.crc16 b else s.crc16 } := by
  by_cases folded : s.idx.toNat < 5 <;> cases width : s.rxc32 <;>
    simp [hdrAfterBodyByte, State.foldCheck, folded, width]

/-! ### The HEX body (R127) -/

theorem rx_of_hexBody (m : s.rxmode = .hdr) (p : s.phase = phaseBody) (he : s.rxenc = .hex)
    (short : cancelRun s.cancnt w ≠ 5) : portStep (.rx (.byte w)) s = hdrHexBody w (s.countCancel w) := by
  have later : ¬ s.phase = phaseHunt ∧ ¬ s.phase = phasePad ∧ ¬ s.phase = phaseFmt := by rw [p]; decide
  rw [rx_of_raw m (by simp [hdrRaw, p, he]) short, hdrRawByte, State.countCancel_phase, if_neg later.1,
    if_neg later.2.1, if_neg later.2.2]

theorem hexVal_zdle : hexVal zdle = none := by decide

theorem hdrHexBody_digit {d : BitVec 4} (h : hexVal w = some d) (s : State) : hdrHexBody w s = hdrHexDigit d s := by
  have digit : w ≠ zdle := by
    rintro rfl
    rw [hexVal_zdle] at h
    cases h
  rw [hdrHexBody, if_neg digit, h]

theorem hdrHexBody_no_digit (notZdle : w ≠ zdle) (h : hexVal w = none) (s : State) :
    hdrHexBody w s = .next (s.finish .corrupt .badHexDigit 0) := by
  rw [hdrHexBody, if_neg notZdle, h]
  rfl

/-- A high digit waits in HBUF for the low one. -/
theorem rx_of_highDigit {d : BitVec 4} {j : Nat} (m : s.rxmode = .hdr) (p : s.phase = phaseBody) (he : s.rxenc = .hex)
    (short : cancelRun s.cancnt w ≠ 5) (value : hexVal w = some d) (hi : s.idx.toNat = 2 * j) (hj : j < 9) :
    portStep (.rx (.byte w)) s = .next { s with
      cancnt := cancelRun s.cancnt w, hbuf := s.hbuf.set j (d.setWidth 8 <<< 4), idx := s.idx + 1 } := by
  obtain rfl : j = s.idx.toNat / 2 := by omega
  rw [rx_of_hexBody m p he short, hdrHexBody_digit value]
  exact hdrHexDigit_high (s := s.countCancel w) d (show s.idx.toNat % 2 = 0 by omega) hj

/-- A low digit completes its byte; the fourteenth digit completes the header. -/
theorem rx_of_lowDigit {d : BitVec 4} {j : Nat} (m : s.rxmode = .hdr) (p : s.phase = phaseBody) (he : s.rxenc = .hex)
    (short : cancelRun s.cancnt w ≠ 5) (value : hexVal w = some d) (hi : s.idx.toNat = 2 * j + 1) (hj : j < 9) :
    portStep (.rx (.byte w)) s = .next
      (if s.idx + 1 = 14 then hdrFinish (hdrAfterLowDigit (s.countCancel w) j hj (s.hbuf[j] ||| d.setWidth 8))
        else hdrAfterLowDigit (s.countCancel w) j hj (s.hbuf[j] ||| d.setWidth 8)) := by
  obtain rfl : j = s.idx.toNat / 2 := by omega
  rw [rx_of_hexBody m p he short, hdrHexBody_digit value]
  exact hdrHexDigit_low (s := s.countCancel w) d (show s.idx.toNat % 2 = 1 by omega) hj

/-- Settles O41: a byte of the body by its digit and the parity of IDX; under the invariant a HEX body is checked with
CRC16, and the fourteenth digit completes the seventh byte, which is not folded. -/
theorem hexBodyByte : Obligations.HexBodyByte := by
  intro s w inv m p he short j t
  have below : s.idx.toNat < 14 := by simpa [he, bodyLength] using ((inv.inHdr m).2 p).2
  refine ⟨?_, fun notZdle noDigit => ?_,
    fun d value => ⟨by omega, fun even => ?_, fun odd more => ?_, fun last => ?_⟩⟩
  · rintro rfl
    exact rx_of_hexBody m p he short
  · exact (rx_of_hexBody m p he short).trans (hdrHexBody_no_digit notZdle noDigit _)
  · exact rx_of_highDigit m p he short value (by omega) (by omega)
  · rw [rx_of_lowDigit (j := j) m p he short value (by omega) (by omega), if_neg (by bv_omega), hdrAfterLowDigit_fields]
    rfl
  · intro hbuf u
    have full : s.idx + 1 = 14 := by bv_omega
    have stored : hdrAfterLowDigit (s.countCancel w) j (by omega) (s.hbuf[j] ||| d.setWidth 8) = u := by
      rw [hdrAfterLowDigit_fields, if_neg (show ¬ j < 5 by omega), State.countCancel_idx, full]
      rfl
    have verified : hdrCheckOk u = true ↔ [hbuf[5], hbuf[6]] = beBytes s.crc16 := by
      rw [hdrCheckOk_iff, if_neg (by simp [u, t, inv.narrow_of_hex m p he])]
    rw [rx_of_lowDigit (j := j) m p he short value (by omega) (by omega), if_pos full, stored]
    refine ⟨fun ok => ?_, fun bad => ?_⟩
    · rw [hdrFinish_of_ok (verified.mpr ok)]
      simp only [u, t, he]
      rfl
    · rw [hdrFinish_of_mismatch (mt verified.mp bad)]

/-! ### The binary body (R130) -/

theorem rx_of_binaryBody (m : s.rxmode = .hdr) (p : s.phase = phaseBody) (he : s.rxenc ≠ .hex) :
    portStep (.rx (.byte w)) s = hdrBinBody w s :=
  (rxPort_of_hdr m _).trans (hdrRxEvent_of_binary p he)

/-- A decoded byte is stored and counted; the last one completes the header. -/
theorem rx_of_bodyByte (m : s.rxmode = .hdr) (p : s.phase = phaseBody) (he : s.rxenc ≠ .hex)
    (event : escEvent s.escp (cancelRun s.cancnt w) w = .data b) (hj : s.idx.toNat < 9) :
    portStep (.rx (.byte w)) s = .next
      (if s.idx + 1 = (if s.rxc32 then 9 else 7)
        then hdrFinish (hdrAfterBodyByte { s with cancnt := 0, escp := false } hj b)
        else hdrAfterBodyByte { s with cancnt := 0, escp := false } hj b) := by
  rw [rx_of_binaryBody m p he, hdrBinBody, escDec_of_data event]
  exact hdrBinByte_eq (s := { s with cancnt := 0, escp := false }) b hj

/-- What an accepted header is: the body received, in the encoding of the sentinel, with a trailer that is its check
(R129). -/
structure State.HeaderVerified (t : State) (enc : HdrEnc) : Prop where
  htype : t.htype = t.hbuf[0]
  hval : leBytes t.hval = [t.hbuf[1], t.hbuf[2], t.hbuf[3], t.hbuf[4]]
  henc : t.henc = enc
  trailer : if enc = .bin32
    then leBytes (crc32Of [t.hbuf[0], t.hbuf[1], t.hbuf[2], t.hbuf[3], t.hbuf[4]]) =
      [t.hbuf[5], t.hbuf[6], t.hbuf[7], t.hbuf[8]]
    else beBytes (crc16Of [t.hbuf[0], t.hbuf[1], t.hbuf[2], t.hbuf[3], t.hbuf[4]]) = [t.hbuf[5], t.hbuf[6]]

theorem take_five (v : Vector Byte 9) : v.toList.take 5 = [v[0], v[1], v[2], v[3], v[4]] := by
  simp [List.take_add_one]

theorem hdrFinish_verified (check : s.CheckIs (s.hbuf.toList.take 5)) (width : s.rxc32 = wideCheck s.rxenc)
    (ok : hdrCheckOk s = true) : (hdrFinish s).HeaderVerified s.rxenc := by
  rw [hdrFinish_of_ok ok]
  rw [hdrCheckOk_iff] at ok
  rw [take_five, State.CheckIs] at check
  refine ⟨rfl, ((ofLe_eq_iff ..).mp rfl).symm, rfl, ?_⟩
  by_cases wide : s.rxenc = .bin32
  · have w32 : s.rxc32 = true := by rw [width, wide]; rfl
    rw [if_pos w32] at ok check
    rw [if_pos wide, crc32Of, ← check]
    exact ok.symm
  · have w16 : ¬ s.rxc32 = true := by rw [width]; simpa [wideCheck] using wide
    rw [if_neg w16] at ok check
    rw [if_neg wide, ← check]
    exact ok.symm

/-- The two ends of an event of HDR.RX: the header registers are left alone and the outcome is not Ok, or the header is
accepted. -/
def State.SettlesHeader (s t : State) : Prop :=
  (t.outcome ≠ .ok ∧ t.htype = s.htype ∧ t.hval = s.hval ∧ t.henc = s.henc)
    ∨ (t.outcome = .ok ∧ t.HeaderVerified s.rxenc)

/-- A command that fails leaves the header registers alone. -/
theorem State.settlesHeader_finish {u : State} {o : CmdOutcome} {c : Cause} (failed : o ≠ .ok := by decide)
    (htype : u.htype = s.htype := by rfl) (hval : u.hval = s.hval := by rfl) (henc : u.henc = s.henc := by rfl) :
    s.SettlesHeader (u.finish o c 0) :=
  .inl ⟨failed, htype, hval, henc⟩

/-- A command that stays active leaves the header registers alone. -/
theorem State.settlesHeader_of_pending (pending : t.outcome ≠ .ok) (htype : t.htype = s.htype := by rfl)
    (hval : t.hval = s.hval := by rfl) (henc : t.henc = s.henc := by rfl) : s.SettlesHeader t :=
  .inl ⟨pending, htype, hval, henc⟩

theorem hdrFinish_settlesHeader {u : State} (check : u.CheckIs (u.hbuf.toList.take 5))
    (width : u.rxc32 = wideCheck u.rxenc) (htype : u.htype = s.htype := by rfl) (hval : u.hval = s.hval := by rfl)
    (henc : u.henc = s.henc := by rfl) (rxenc : u.rxenc = s.rxenc := by rfl) : s.SettlesHeader (hdrFinish u) := by
  by_cases ok : hdrCheckOk u = true
  · exact .inr ⟨by rw [hdrFinish_of_ok ok], rxenc ▸ hdrFinish_verified check width ok⟩
  · rw [hdrFinish_of_mismatch ok]
    exact State.settlesHeader_of_pending nofun htype hval henc

theorem HdrRawCase.settlesHeader (h : s.Inv) (current : s.CheckCurrent) (m : s.rxmode = .hdr) (c : HdrRawCase w s t) :
    s.SettlesHeader t := by
  have pending : s.outcome ≠ .ok := by simp [(h.pending (by simp [m])).1]
  cases c with
  | abort => exact State.settlesHeader_finish
  | hunt => exact State.settlesHeader_of_pending pending
  | start =>
    exact State.settlesHeader_of_pending (by simpa [startBody] using pending) (by simp [startBody]) (by simp [startBody])
      (by simp [startBody])
  | badDigit => exact State.settlesHeader_finish
  | highDigit => exact State.settlesHeader_of_pending pending
  | lowDigit =>
    rw [hdrAfterLowDigit_fields]
    exact State.settlesHeader_of_pending pending
  | lastDigit d hp he _ _ hj hl =>
    have held := current.inBody m hp
    rw [State.bodyBytes_of_hex he] at held
    have check := hdrAfterLowDigit_checkIs (s := s.countCancel w) (h.narrow_of_hex m hp he) hj
      (s.hbuf[s.idx.toNat / 2] ||| d.setWidth 8) held
    rw [min_eq_right (by bv_omega)] at check
    rw [hdrAfterLowDigit_fields] at check ⊢
    exact hdrFinish_settlesHeader check ((h.inHdr m).2 hp).1

theorem HdrBinCase.settlesHeader (h : s.Inv) (current : s.CheckCurrent) (m : s.rxmode = .hdr) (hp : s.phase = phaseBody)
    (he : s.rxenc ≠ .hex) (c : HdrBinCase w s t) : s.SettlesHeader t := by
  have pending : s.outcome ≠ .ok := by simp [(h.pending (by simp [m])).1]
  cases c with
  | escape => exact State.settlesHeader_of_pending pending
  | more b _ hj =>
    have fields := hdrAfterBodyByte_fields (s := (s.escDec w).2) hj b
    rw [fields]
    exact State.settlesHeader_of_pending pending
  | last b _ hj hl =>
    have held := current.inBody m hp
    rw [State.bodyBytes_of_binary he] at held
    have check := hdrAfterBodyByte_checkIs (s := (s.escDec w).2) hj b held
    have full : 5 ≤ (s.escDec w).2.idx.toNat + 1 := by simp only [State.escDec_idx]; split at hl <;> bv_omega
    have fields := hdrAfterBodyByte_fields (s := (s.escDec w).2) hj b
    rw [min_eq_right full] at check
    rw [fields] at check ⊢
    exact hdrFinish_settlesHeader check ((h.inHdr m).2 hp).1
  | _ => exact State.settlesHeader_finish

theorem hdrRxEvent_settlesHeader (h : s.Inv) (current : s.CheckCurrent) (m : s.rxmode = .hdr) {ev : RxEvent}
    (e : hdrRxEvent ev s = .next t) : s.SettlesHeader t := by
  obtain ⟨_, rfl⟩ | ⟨w, _, ⟨_, raw⟩ | ⟨hp, he, bin⟩⟩ := hdrRxEvent_cases e
  · exact State.settlesHeader_finish
  · exact raw.settlesHeader h current m
  · exact bin.settlesHeader h current m hp he

/-- IDX is inside HBUF in a binary body, and the width of its check is the encoding's. -/
theorem State.Inv.inBinaryBody (h : s.Inv) (m : s.rxmode = .hdr) (p : s.phase = phaseBody) (he : s.rxenc ≠ .hex) :
    (s.rxc32 = true ↔ s.rxenc = .bin32) ∧ s.idx.toNat < 9 := by
  obtain ⟨width, below⟩ := (h.inHdr m).2 p
  exact ⟨by rw [width, beq_iff_eq], below.trans_le (bodyLength_le_nine he)⟩

/-- Settles O42: an event accepts the header with its check verified or leaves the header registers alone; in a binary body
each event of the escape decoder has its own end, and a decoded byte is stored, folded and counted. -/
theorem headerAcceptedOnlyIfCheckVerifies : Obligations.HeaderAcceptedOnlyIfCheckVerifies := by
  constructor
  · intro s t ev inv current m e
    obtain ⟨notOk, same⟩ | ⟨ok, verified⟩ :=
      hdrRxEvent_settlesHeader inv current m ((rxPort_of_hdr m ev).symm.trans e)
    · exact ⟨fun _ => same, fun ok => absurd ok notOk⟩
    · exact ⟨fun notOk => absurd ok notOk, fun _ =>
        ⟨verified.htype, verified.hval, verified.henc, verified.trailer⟩⟩
  · intro s w inv m p he event done t
    obtain ⟨width, inHbuf⟩ := inv.inBinaryBody m p he
    refine ⟨fun e => ?_, fun e => ?_, fun fe e => ?_, fun x e => ?_, fun b e => ⟨inHbuf, ?_⟩⟩
    · rw [rx_of_binaryBody m p he, hdrBinBody, escDec_of_abort e]
      rfl
    · rw [rx_of_binaryBody m p he, hdrBinBody, escDec_of_escapeStarted e]
    · rw [rx_of_binaryBody m p he, hdrBinBody, escDec_of_frameEnd e]
      rfl
    · rw [rx_of_binaryBody m p he, hdrBinBody, escDec_of_badEscape e]
      rfl
    · intro wide hbuf u verified
      have stored : hdrAfterBodyByte t inHbuf b = u := by
        rw [hdrAfterBodyByte_fields]
        simp only [t, u, wide, width]
        rfl
      have rule := rx_of_bodyByte m p he e inHbuf
      have full : s.idx + 1 = (if s.rxc32 then 9 else 7) ↔ s.idx.toNat + 1 = if wide then 9 else 7 := by
        simp only [wide, width]
        split <;> bv_omega
      refine ⟨fun more => ?_, fun last => ?_⟩
      · rw [rule, if_neg (mt full.mp more.ne), stored]
      · have trailer : ¬ s.idx.toNat < 5 := by split at last <;> omega
        have checked : hdrCheckOk u = true ↔ verified := by
          rw [hdrCheckOk_iff]
          simp only [u, t, trailer, and_false, if_false, width]
          rfl
        rw [rule, if_pos (full.mpr last), stored]
        refine ⟨fun ok => ?_, fun bad => ?_⟩
        · rw [hdrFinish_of_ok (checked.mpr ok)]
          rfl
        · rw [hdrFinish_of_mismatch (mt checked.mp bad)]

end Sys2Proof.Machine
end

section
/-! The header round trip (42_header R133): HDR.RX passes over what comes before the header, meets the sentinel that HDR.TX
sent, reads the body byte by byte in the encoding the sentinel names, and accepts it. -/

namespace Sys2Proof.Machine

variable {s t u : State} {enc : HdrEnc} {b : Byte} {got m ws : List Byte}

/-! ### Port steps in their order (20_memory R51) -/

theorem runPorts_append {ps qs : List PortStep} (h : runPorts ps s = .next t) :
    runPorts (ps ++ qs) s = runPorts qs t := by
  induction ps generalizing s with
  | nil =>
    cases h
    rfl
  | cons p ps ih =>
    rw [runPorts] at h
    rw [List.cons_append, runPorts]
    split at h
    · exact ih h
    · cases h
    · cases h

theorem deliver_append (bs bs' : List Byte) : deliver (bs ++ bs') = deliver bs ++ deliver bs' := List.map_append

theorem runPorts_deliver_cons (h : portStep (.rx (.byte b)) s = .next t) (bs : List Byte) :
    runPorts (deliver (b :: bs)) s = runPorts (deliver bs) t := by
  rw [deliver, List.map_cons, runPorts, h]
  rfl

theorem runPorts_present_hdrRx (idle : s.rxmode = .idle) (ps : List PortStep) :
    runPorts (present .hdrRx :: ps) s = runPorts ps (s.activate .hdr) := by
  have accepted : portStep (present .hdrRx) s = .next (s.activate .hdr) :=
    commandPort_of_ok (.inl idle) (decodeOfEncode .hdrRx rfl)
  rw [runPorts, accepted]

/-! ### A body being read (R127, R130) -/

/-- HDR.RX stands between two bytes of a body in the encoding `enc`, the bytes `got` of it received. -/
structure State.HasRead (s : State) (enc : HdrEnc) (got : List Byte) : Prop where
  mode : s.rxmode = .hdr
  phase : s.phase = phaseBody
  rxenc : s.rxenc = enc
  width : s.rxc32 = wideCheck enc
  count : s.idx.toNat = if enc = .hex then 2 * got.length else got.length
  stored : s.hbuf.toList.take got.length = got
  check : s.CheckIs (s.hbuf.toList.take (min got.length 5))
  escp : s.escp = false
  cancnt : s.cancnt = 0

/-- The bytes of a body with its trailer. -/
def headerLength (enc : HdrEnc) : Nat := if wideCheck enc then 9 else 7

theorem headerLength_le_nine (enc : HdrEnc) : headerLength enc ≤ 9 := by cases enc <;> decide

/-- The wire bytes `ws` make HDR.RX read the body byte `b`, and complete the header if it is the last. -/
def Carries (enc : HdrEnc) (ws : List Byte) (b : Byte) : Prop :=
  ∀ (s : State) (got : List Byte), s.HasRead enc got → got.length < headerLength enc →
    ∃ u : State, u.HasRead enc (got ++ [b])
      ∧ runPorts (deliver ws) s = .next (if got.length + 1 = headerLength enc then hdrFinish u else u)

/-- The state after one more body byte. -/
theorem State.HasRead.snoc (h : s.HasRead enc got) (mode : u.rxmode = s.rxmode) (phase : u.phase = s.phase)
    (rxenc : u.rxenc = s.rxenc) (width : u.rxc32 = s.rxc32)
    (count : u.idx.toNat = if enc = .hex then 2 * (got.length + 1) else got.length + 1)
    (stored : u.hbuf.toList.take (got.length + 1) = s.hbuf.toList.take got.length ++ [b])
    (check : u.CheckIs (u.hbuf.toList.take (min (got.length + 1) 5))) (escp : u.escp = false) (cancnt : u.cancnt = 0) :
    u.HasRead enc (got ++ [b]) := by
  have len : (got ++ [b]).length = got.length + 1 := List.length_append
  exact ⟨mode.trans h.mode, phase.trans h.phase, rxenc.trans h.rxenc, width.trans h.width, by rw [len, count],
    by rw [len, stored, h.stored], by rw [len]; exact check, escp, cancnt⟩

/-- In a binary body, whatever the escape decoder held before the byte that completes `b`. -/
theorem State.HasRead.data (h : s.HasRead enc got) (binary : enc ≠ .hex) (more : got.length < headerLength enc)
    {c : BitVec 3} {e : Bool} {w : Byte} (event : escEvent e (cancelRun c w) w = .data b) :
    ∃ u : State, u.HasRead enc (got ++ [b]) ∧ portStep (.rx (.byte w)) { s with cancnt := c, escp := e } =
      .next (if got.length + 1 = headerLength enc then hdrFinish u else u) := by
  have count : s.idx.toNat = got.length := h.count.trans (if_neg binary)
  have hj : s.idx.toNat < 9 := by have := headerLength_le_nine enc; omega
  have clean : { s with cancnt := 0, escp := false } = s := by rw [← h.cancnt, ← h.escp]
  have last : s.idx + 1 = (if s.rxc32 then 9 else 7) ↔ got.length + 1 = headerLength enc := by
    rw [h.width, headerLength]
    split <;> bv_omega
  refine ⟨hdrAfterBodyByte s hj b, ?_, ?_⟩
  · have check := hdrAfterBodyByte_checkIs hj b (by rw [count]; exact h.check)
    rw [hdrAfterBodyByte_fields] at check ⊢
    refine h.snoc rfl rfl rfl rfl ?_ ?_ (count ▸ check) h.escp h.cancnt
    · rw [if_neg binary]
      bv_omega
    · rw [← count]
      exact take_set_succ _ hj _
  · rw [rx_of_bodyByte (s := { s with cancnt := c, escp := e }) h.mode h.phase (by simpa [h.rxenc] using binary) event
      hj]
    simp only [clean, last]

/-- A byte of a binary body arrives as itself or as an escaped pair (30_encoding R73). -/
theorem carries_escWire (binary : enc ≠ .hex) (ctlesc : Bool) (last b : Byte) :
    Carries enc (escWire ctlesc last b) b := by
  intro s got h more
  obtain ⟨control, e⟩ | ⟨raw, e⟩ := escWire_cases ctlesc last b <;> rw [e]
  · have started : escEvent s.escp (cancelRun s.cancnt zdle) zdle = .escapeStarted := by rw [h.cancnt]; rfl
    have event : escEvent true (cancelRun 1 (b ^^^ 0x40)) (b ^^^ 0x40) = .data b := by
      rw [cancelRun_of_ne (toggle_ne_zdle control), escEvent, if_neg (by decide), if_neg (toggle_ne_zdle control)]
      exact escSecond_toggle control
    have first : portStep (.rx (.byte zdle)) s = .next { s with cancnt := 1, escp := true } := by
      rw [rx_of_binaryBody h.mode h.phase (by rwa [h.rxenc]), hdrBinBody, escDec_of_escapeStarted started, h.cancnt]
      rfl
    obtain ⟨u, read, second⟩ := h.data binary more event
    exact ⟨u, read, by rw [runPorts_deliver_cons first, runPorts_deliver_cons second]; rfl⟩
  · have event : escEvent s.escp (cancelRun s.cancnt b) b = .data b := by
      rw [cancelRun_of_ne raw, h.escp, escEvent, if_neg (by decide), if_neg raw]
      rfl
    obtain ⟨u, read, only⟩ := h.data binary more event
    exact ⟨u, read, by rw [runPorts_deliver_cons only]; rfl⟩

theorem hexVal_hexDigit : ∀ d : BitVec 4, hexVal (hexDigit d) = some d := by decide

theorem hexDigit_ne_zdle : ∀ d : BitVec 4, hexDigit d ≠ zdle := by decide

theorem nibbles_or :
    ∀ b : Byte, (b.extractLsb' 4 4).setWidth 8 <<< 4 ||| (b.extractLsb' 0 4).setWidth 8 = b := by decide

theorem cancelRun_hexDigit (c : BitVec 3) (d : BitVec 4) : cancelRun c (hexDigit d) = 0 :=
  cancelRun_of_ne (hexDigit_ne_zdle d) c

theorem cancelRun_hexDigit_ne_five (c : BitVec 3) (d : BitVec 4) : cancelRun c (hexDigit d) ≠ 5 := by
  rw [cancelRun_hexDigit]
  decide

/-- HDR.RX between the two digits of the byte that goes to HBUF[j]. -/
def State.halfRead (s : State) (j : Nat) (hj : j < 9) (d : BitVec 4) : State :=
  { s with cancnt := 0, hbuf := s.hbuf.set j (d.setWidth 8 <<< 4), idx := s.idx + 1 }

theorem State.HasRead.highDigit (h : s.HasRead .hex got) (hj : got.length < 9) (d : BitVec 4) :
    portStep (.rx (.byte (hexDigit d))) s = .next (s.halfRead got.length hj d) := by
  have event := rx_of_highDigit h.mode h.phase h.rxenc (cancelRun_hexDigit_ne_five _ _) (hexVal_hexDigit d) h.count hj
  rw [event, cancelRun_hexDigit]
  rfl

theorem State.HasRead.lowDigit (h : s.HasRead .hex got) (more : got.length < 7) (hj : got.length < 9)
    (high low : BitVec 4) : ∃ u : State, u.HasRead .hex (got ++ [high.setWidth 8 <<< 4 ||| low.setWidth 8])
      ∧ portStep (.rx (.byte (hexDigit low))) (s.halfRead got.length hj high) =
        .next (if got.length + 1 = 7 then hdrFinish u else u) := by
  have count : s.idx.toNat = 2 * got.length := h.count
  have odd : (s.halfRead got.length hj high).idx.toNat = 2 * got.length + 1 := by
    change (s.idx + 1).toNat = _
    bv_omega
  have joined : (s.halfRead got.length hj high).hbuf[got.length] = high.setWidth 8 <<< 4 := Vector.getElem_set_self ..
  have last : (s.halfRead got.length hj high).idx + 1 = 14 ↔ got.length + 1 = 7 := by bv_omega
  have event := rx_of_lowDigit (s := s.halfRead got.length hj high) h.mode h.phase h.rxenc
    (cancelRun_hexDigit_ne_five _ _) (hexVal_hexDigit low) odd hj
  simp only [joined, last] at event
  refine ⟨_, ?_, event⟩
  have held : (s.halfRead got.length hj high).CheckIs
      ((s.halfRead got.length hj high).hbuf.toList.take (min got.length 5)) := by
    have check := h.check
    rwa [← take_set_of_le _ hj (high.setWidth 8 <<< 4) (min_le_left ..)] at check
  have check := hdrAfterLowDigit_checkIs (s := (s.halfRead got.length hj high).countCancel (hexDigit low)) h.width hj
    (high.setWidth 8 <<< 4 ||| low.setWidth 8) held
  rw [hdrAfterLowDigit_fields] at check ⊢
  refine h.snoc rfl rfl rfl rfl ?_ ?_ check h.escp (cancelRun_hexDigit ..)
  · change ((s.halfRead got.length hj high).idx + 1).toNat = 2 * (got.length + 1)
    bv_omega
  · refine (take_set_succ _ hj _).trans (congrArg (· ++ _) ?_)
    exact take_set_of_le _ hj _ le_rfl

/-- A byte of a HEX body arrives as its two digits (30_encoding R72). -/
theorem carries_hexPair (b : Byte) : Carries .hex (hexPair b) b := by
  intro s got h more
  have more : got.length < 7 := more
  obtain ⟨u, read, low⟩ := h.lowDigit more (by omega) (b.extractLsb' 4 4) (b.extractLsb' 0 4)
  rw [nibbles_or] at read
  exact ⟨u, read, by rw [hexPair, runPorts_deliver_cons (h.highDigit (by omega) _), runPorts_deliver_cons low]; rfl⟩

/-! ### A whole body -/

/-- The wire bytes of a sequence of body bytes. -/
inductive BodyWire (enc : HdrEnc) : List Byte → List Byte → Prop where
  | nil : BodyWire enc [] []
  | cons {ws wire m : List Byte} {b : Byte} (first : Carries enc ws b) (rest : BodyWire enc wire m) :
      BodyWire enc (ws ++ wire) (b :: m)

theorem bodyWire_hex (m : List Byte) : BodyWire .hex (m.flatMap hexPair) m := by
  induction m with
  | nil => exact .nil
  | cons b m ih => exact .cons (carries_hexPair b) ih

theorem bodyWire_binary (binary : enc ≠ .hex) (ctlesc : Bool) (last : Byte) (m : List Byte) :
    BodyWire enc (escWires ctlesc last m) m := by
  induction m generalizing last with
  | nil => exact .nil
  | cons b m ih => exact .cons (carries_escWire binary ctlesc last b) (ih _)

/-- The bytes that complete the header are read one after another, and the last one completes it. -/
theorem BodyWire.run {wire : List Byte} (h : BodyWire enc wire m) (nonempty : m ≠ []) (read : s.HasRead enc got)
    (total : got.length + m.length = headerLength enc) :
    ∃ u : State, u.HasRead enc (got ++ m) ∧ runPorts (deliver wire) s = .next (hdrFinish u) := by
  induction h generalizing s got with
  | nil => exact absurd rfl nonempty
  | @cons ws wire m b first rest ih =>
    rw [List.length_cons] at total
    obtain ⟨u, read, step⟩ := first s got read (by omega)
    cases m with
    | nil =>
      cases rest
      rw [if_pos (by simpa using total)] at step
      exact ⟨u, read, by rw [List.append_nil, step]⟩
    | cons b' m =>
      rw [List.length_cons] at total
      rw [if_neg (by omega)] at step
      obtain ⟨v, read, finish⟩ := ih nofun read (by simp; omega)
      exact ⟨v, by simpa using read, by rw [deliver_append, runPorts_append step, finish]⟩

/-! ### Acceptance (R129) -/

/-- The check of a header as it crosses the wire (R120). -/
def headerTrailer (enc : HdrEnc) (body : List Byte) : List Byte :=
  if wideCheck enc then leBytes (crc32Of body) else beBytes (crc16Of body)

theorem take_seven (v : Vector Byte 9) : v.toList.take 7 = [v[0], v[1], v[2], v[3], v[4]] ++ [v[5], v[6]] := by
  simp [List.take_add_one]

theorem take_nine (v : Vector Byte 9) :
    v.toList.take 9 = [v[0], v[1], v[2], v[3], v[4]] ++ [v[5], v[6], v[7], v[8]] := by
  simp [List.take_add_one]

/-- HBUF after a whole header: the body, and then its check. -/
theorem State.HasRead.parts {body : List Byte} (h : s.HasRead enc (body ++ headerTrailer enc body))
    (five : body.length = 5) : [s.hbuf[0], s.hbuf[1], s.hbuf[2], s.hbuf[3], s.hbuf[4]] = body
      ∧ if wideCheck enc then [s.hbuf[5], s.hbuf[6], s.hbuf[7], s.hbuf[8]] = leBytes (crc32Of body)
        else [s.hbuf[5], s.hbuf[6]] = beBytes (crc16Of body) := by
  have stored := h.stored
  rw [List.length_append, five, headerTrailer] at stored
  split at stored
  · rw [show 5 + (leBytes (crc32Of body)).length = 9 from rfl, take_nine] at stored
    rw [if_pos ‹_›]
    exact List.append_inj stored five.symm
  · rw [show 5 + (beBytes (crc16Of body)).length = 7 from rfl, take_seven] at stored
    rw [if_neg ‹_›]
    exact List.append_inj stored five.symm

theorem State.HasRead.checkOk {body : List Byte} (h : s.HasRead enc (body ++ headerTrailer enc body))
    (five : body.length = 5) : hdrCheckOk s = true := by
  obtain ⟨first, trailer⟩ := h.parts five
  have check := h.check
  rw [min_eq_right (by rw [List.length_append, five]; omega), take_five, first, State.CheckIs, h.width] at check
  rw [hdrCheckOk_iff, h.width]
  split at check
  · rw [if_pos ‹_›] at trailer ⊢
    rw [trailer, check]
    rfl
  · rw [if_neg ‹_›] at trailer ⊢
    rw [trailer, check]

/-- A header that was read with its own check is accepted, as the header it was. -/
theorem State.HasRead.accepted {a : State} (h : s.HasRead enc (a.headerBody ++ headerTrailer enc a.headerBody)) :
    hdrFinish s = { s with
      htype := a.htype, hval := a.hval, henc := enc, outcome := .ok, cause := .none, rxmode := .idle, res := 0 } := by
  obtain ⟨body, _⟩ := h.parts rfl
  obtain ⟨htype, hval⟩ := List.cons.inj body
  rw [hdrFinish_of_ok (h.checkOk rfl), htype, (ofLe_eq_iff ..).mpr hval, h.rxenc]

/-! ### The hunt (R126) -/

/-- Bytes other than 0x2A that complete no cancel run are passed over. -/
theorem runPorts_hunt {junk : List Byte} (m : s.rxmode = .hdr) (p : s.phase = phaseHunt) (other : zpad ∉ junk)
    (short : RunStaysShort s.cancnt junk) :
    ∃ c, runPorts (deliver junk) s = .next { s with cancnt := c } := by
  induction junk generalizing s with
  | nil => exact ⟨s.cancnt, rfl⟩
  | cons w ws ih =>
    obtain ⟨notPad, others⟩ := not_or.mp (mt List.mem_cons.mpr other)
    have event := rx_of_hunt m p short.1
    rw [if_neg (Ne.symm notPad), ← p] at event
    obtain ⟨c, rest⟩ := ih (s := { s with cancnt := cancelRun s.cancnt w }) m p others short.2
    exact ⟨c, by rw [runPorts_deliver_cons event, rest]⟩

/-- The sentinel that HDR.TX sends (30_encoding R72, R73). -/
def sentinel (enc : HdrEnc) : List Byte :=
  if enc = .hex then [zpad, zpad, zdle, formatByte enc] else [zpad, zdle, formatByte enc]

theorem startBody_hasRead (m : s.rxmode = .hdr) (c : s.cancnt = 0) (enc : HdrEnc) :
    (startBody enc s).HasRead enc [] where
  mode := by simpa [startBody] using m
  phase := by simp [startBody]
  rxenc := by simp [startBody]
  width := by simp [startBody]
  count := by simp [startBody]
  stored := List.take_zero
  check := State.checkIs_seedCheck rfl
  escp := by simp [startBody]
  cancnt := by simpa [startBody] using c

theorem formatByte_ne_zdle (enc : HdrEnc) : formatByte enc ≠ zdle := by cases enc <;> decide

theorem runPorts_format (named : enc ≠ .reserved) (m : s.rxmode = .hdr) (p : s.phase = phasePad) (c : s.cancnt = 0) :
    ∃ u : State, u.HasRead enc [] ∧ runPorts (deliver [zdle, formatByte enc]) s = .next u := by
  have run (c : BitVec 3) : cancelRun c (formatByte enc) = 0 := cancelRun_of_ne (formatByte_ne_zdle enc) c
  have escape := rx_of_pad (w := zdle) m p (by rw [c]; decide)
  rw [if_neg (by decide), if_pos rfl] at escape
  have format := rx_of_format (s := { s with cancnt := cancelRun s.cancnt zdle, phase := phaseFmt }) m rfl named
    (by rw [run]; decide)
  refine ⟨_, ?_, (runPorts_deliver_cons escape _).trans (runPorts_deliver_cons format [])⟩
  exact startBody_hasRead (m := m) (c := run _) (enc := enc)
    (s := State.countCancel { s with cancnt := cancelRun s.cancnt zdle, phase := phaseFmt } (formatByte enc))

theorem runPorts_sentinel (named : enc ≠ .reserved) (m : s.rxmode = .hdr) (p : s.phase = phaseHunt) :
    ∃ u : State, u.HasRead enc [] ∧ runPorts (deliver (sentinel enc)) s = .next u := by
  have run (c : BitVec 3) : cancelRun c zpad = 0 := cancelRun_of_ne (by decide) c
  have first := rx_of_hunt (w := zpad) m p (by rw [run]; decide)
  rw [run, if_pos rfl] at first
  unfold sentinel
  split
  · have second := rx_of_pad (s := { s with cancnt := 0, phase := phasePad }) (w := zpad) m rfl
      (by rw [run]; decide)
    rw [run, if_pos rfl] at second
    obtain ⟨u, read, format⟩ := runPorts_format (s := { s with cancnt := 0, phase := phasePad }) named m rfl rfl
    exact ⟨u, read, by rw [runPorts_deliver_cons first, runPorts_deliver_cons second]; exact format⟩
  · obtain ⟨u, read, format⟩ := runPorts_format (s := { s with cancnt := 0, phase := phasePad }) named m rfl rfl
    exact ⟨u, read, by rw [runPorts_deliver_cons first, format]⟩

/-! ### The round trip -/

theorem hdrTxBin_appends (a : State) (enc : HdrEnc) : (hdrTxBin enc a).txq = a.txq ++ ([zpad, zdle, formatByte enc]
    ++ escWires a.ctlesc a.lasttx (a.headerBody ++ headerTrailer enc a.headerBody)) := by
  have trailer : (a.checkOver (wideCheck enc) a.headerBody).trailer (wideCheck enc) = headerTrailer enc a.headerBody := by
    rw [headerTrailer]
    cases wideCheck enc <;> rfl
  rw [hdrTxBin_eq a enc (congrArg _ trailer)]

/-- What HDR.TX appends: the sentinel, the body with its check, and after a HEX header CR LF (R120). -/
theorem exec_hdrTx_wire {a a' : State} (named : enc ≠ .reserved) (e : exec (.hdrTx enc) a = .next a') :
    ∃ wire, BodyWire enc wire (a.headerBody ++ headerTrailer enc a.headerBody)
      ∧ a'.txq = a.txq ++ (sentinel enc ++ wire ++ if enc = .hex then [charCR, charLF] else []) := by
  cases enc with
  | reserved => exact absurd rfl named
  | hex =>
    obtain rfl : hdrTxHex a = a' := Host.Outcome.next.inj e
    exact ⟨_, bodyWire_hex _, by rw [hdrTxHex_eq]; rfl⟩
  | bin16 =>
    obtain rfl : hdrTxBin .bin16 a = a' := Host.Outcome.next.inj e
    exact ⟨_, bodyWire_binary (by decide) _ _ _, by rw [hdrTxBin_appends, if_neg (by decide), List.append_nil]; rfl⟩
  | bin32 =>
    obtain rfl : hdrTxBin .bin32 a = a' := Host.Outcome.next.inj e
    exact ⟨_, bodyWire_binary (by decide) _ _ _, by rw [hdrTxBin_appends, if_neg (by decide), List.append_nil]; rfl⟩

theorem length_header_with_trailer (a : State) (enc : HdrEnc) :
    (a.headerBody ++ headerTrailer enc a.headerBody).length = headerLength enc := by
  rw [List.length_append, headerTrailer, headerLength]
  split <;> rfl

/-- Settles O43: the hunt passes over the bytes before the header, the sentinel opens a body in the sender's encoding, every
body byte is carried by its digits or its escaped bytes, and the header read with its own check is accepted. -/
theorem headerRoundTrip : Obligations.HeaderRoundTrip := by
  intro a a' b enc junk named sent idle noPad short wire heard
  obtain ⟨bodyWire, carries, appended⟩ := exec_hdrTx_wire named sent
  have heard_eq : heard = sentinel enc ++ bodyWire := by
    simp only [heard, wire, appended, List.drop_left]
    split
    · exact List.take_left' (by simp; omega)
    · exact List.append_nil _
  obtain ⟨c, hunted⟩ := runPorts_hunt (s := b.activate .hdr) rfl rfl noPad short
  obtain ⟨u, started, opened⟩ :=
    runPorts_sentinel (enc := enc) (s := { b.activate .hdr with cancnt := c }) named rfl rfl
  obtain ⟨v, read, finished⟩ := carries.run nofun started (by simpa using length_header_with_trailer a enc)
  refine ⟨hdrFinish v, ?_, ?_⟩
  · rw [runPorts_present_hdrRx idle, heard_eq, deliver_append, deliver_append, runPorts_append hunted,
      runPorts_append opened, finished]
  · rw [State.HasRead.accepted read]
    exact ⟨rfl, rfl, rfl, rfl, rfl⟩

end Sys2Proof.Machine
end

section
/-! The Data Subpacket Codec, one byte at a time (43_subpacket R141, R147 to R151): SPK.TX, what each event of the
escape decoder does in DATA and in TRAIL, and what an accepted subpacket is. -/

namespace Sys2Proof.Machine

variable {s t : State} {enc : HdrEnc} {fe : FrameEnd} {w b x : Byte} {m : List Byte} {len : Nat}

/-! ### The check of a subpacket (R144, R149) -/

/-- The check of `m` as it crosses the wire (20_memory R43). -/
def wireCheck (c32 : Bool) (m : List Byte) : List Byte :=
  if c32 then leBytes (crc32Of m) else beBytes (crc16Of m)

theorem State.trailer_checkOver (s : State) (c32 : Bool) (m : List Byte) :
    (s.checkOver c32 m).trailer c32 = wireCheck c32 m := by cases c32 <;> rfl

/-- With the check of `m` in the accumulator, the comparison is with the check of `m`. -/
theorem State.CheckIs.spkCheckOk_iff (h : s.CheckIs m) : spkCheckOk s = true ↔
    if s.rxc32 then leBytes (crc32Of m) = [s.tbuf[0], s.tbuf[1], s.tbuf[2], s.tbuf[3]]
    else beBytes (crc16Of m) = [s.tbuf[0], s.tbuf[1]] := by
  rw [Machine.spkCheckOk_iff]
  unfold State.CheckIs at h
  split at h
  · rw [if_pos ‹_›, if_pos ‹_›, h]
    exact eq_comm
  · rw [if_neg ‹_›, if_neg ‹_›, h]
    exact eq_comm

/-! ### SPK.TX (R141) -/

/-- A length operand fills the low half of its word (30_encoding R60). -/
theorem wordOf_length (op a : Byte) {n : Nat} (h : n < 65536) :
    wordOf op a (BitVec.ofNat 16 n) = wordOf op a 0 ||| BitVec.ofNat 32 n := by
  have low : BitVec.ofNat 32 n = (BitVec.ofNat 16 n).setWidth 32 := by
    apply BitVec.eq_of_toNat_eq
    simp
    omega
  rw [low]
  apply BitVec.eq_of_getLsbD_eq
  intro i hi
  rw [BitVec.getLsbD_or, getLsbD_wordOf, getLsbD_wordOf, BitVec.getLsbD_setWidth]
  by_cases half : i < 16
  · simp [half, hi]
  · simp [half, BitVec.getLsbD_of_ge (BitVec.ofNat 16 n) i (by omega)]

theorem encode_spkTx (enc : HdrEnc) (fe : FrameEnd) (h : len < 65536) : encode (.spkTx enc fe len) =
    0x40000000#32 ||| fe.code.setWidth 32 <<< 18 ||| enc.code.setWidth 32 <<< 16 ||| BitVec.ofNat 32 len := by
  have operands : wordOf 0x40 (0#4 ++ fe.code ++ enc.code) 0 =
      0x40000000#32 ||| fe.code.setWidth 32 <<< 18 ||| enc.code.setWidth 32 <<< 16 := by
    cases fe <;> cases enc <;> decide
  rw [← operands]
  exact wordOf_length _ _ h

theorem exec_spkTx (named : enc ≠ .reserved) (fits : len ≤ s.size) :
    exec (.spkTx enc fe len) s = .next (spkSend enc fe len s) :=
  if_neg (by simp [State.spkTxBad, named, fits])

theorem exec_spkTx_bad (h : enc = .reserved ∨ s.size < len) :
    exec (.spkTx enc fe len) s = .next (s.finish .badOperand .none 0) :=
  if_pos (by simpa [State.spkTxBad] using h)

theorem spkSend_eq {first second : List Byte} (payload : escWires s.ctlesc s.lasttx (s.payload len) = first)
    (check : escWires s.ctlesc (first.getLastD s.lasttx)
      (wireCheck (wideCheck enc) (s.payload len ++ [letterOf fe])) = second) : spkSend enc fe len s =
    { s.checkOver (wideCheck enc) (s.payload len ++ [letterOf fe]) with
      txq := s.txq ++ (first ++ [zdle, letterOf fe] ++ second)
      lasttx := second.getLastD (first.getLastD s.lasttx)
      outcome := .ok, cause := .none, rxmode := .idle
      res := BitVec.ofNat 32 (first.length + 2 + second.length) } := by
  have sent : (((s.checkOver (wideCheck enc) (s.payload len ++ [letterOf fe])).txPutEsc (s.payload len)).txPut
      [zdle, letterOf fe]).txPutEsc (wireCheck (wideCheck enc) (s.payload len ++ [letterOf fe])) =
      { s.checkOver (wideCheck enc) (s.payload len ++ [letterOf fe]) with
        txq := s.txq ++ (first ++ [zdle, letterOf fe] ++ second)
        lasttx := second.getLastD (first.getLastD s.lasttx) } := by
    simp only [State.txPutEsc, State.txPut, State.checkOver_ctlesc, State.checkOver_lasttx, State.checkOver_txq,
      escLasts_eq, payload, check, List.append_assoc]
  rw [spkSend, State.trailer_checkOver, sent, State.finishSent_of_txq (s := s) rfl, List.length_append,
    List.length_append]
  rfl

/-- Settles O45: the payload and its check go through the encoder around the raw frame-end pair, and the check covers
payload and letter. -/
theorem subpacketTransmit : Obligations.SubpacketTransmit := by
  refine fun s enc fe len => ⟨encode_spkTx enc fe, exec_spkTx_bad, fun named fits => ?_⟩
  intro payload letter c f trailer first second
  have check : wireCheck (wideCheck enc) (payload ++ [letter]) = trailer := by cases enc <;> rfl
  have running : ~~~ f = crc32Run (payload ++ [letter]) := BitVec.not_not
  rw [exec_spkTx named fits, spkSend_eq (first := first) (second := second) rfl (congrArg _ check), running]
  cases enc with
  | reserved => exact absurd rfl named
  | _ => rfl

/-! ### The events of the escape decoder (R147) -/

/-- No escape pending and no cancel run, as after every event but Abort and EscapeStarted (41_escape R108). -/
def State.noEscape (s : State) : State := { s with cancnt := 0, escp := false }

/-- What SPK.RX does with a decoded byte: payload in DATA, trailer in TRAIL (R147). -/
def spkByte (b : Byte) (s : State) : Result := if s.phase = phaseSpkData then spkData b s else spkTrail b s

theorem rx_of_spkAbort (mode : s.rxmode = .spk) (e : escEvent s.escp (cancelRun s.cancnt w) w = .abort) :
    portStep (.rx (.byte w)) s = .next ({ s with cancnt := 5, escp := false }.finish .abort .none 0) :=
  (rxPort_of_spk mode _).trans (by rw [spkRxEvent, escDec_of_abort e]; rfl)

theorem rx_of_spkEscape (mode : s.rxmode = .spk) (e : escEvent s.escp (cancelRun s.cancnt w) w = .escapeStarted) :
    portStep (.rx (.byte w)) s = .next { s with cancnt := cancelRun s.cancnt w, escp := true } :=
  (rxPort_of_spk mode _).trans (by rw [spkRxEvent, escDec_of_escapeStarted e])

theorem rx_of_spkBadEscape (mode : s.rxmode = .spk) (e : escEvent s.escp (cancelRun s.cancnt w) w = .badEscape x) :
    portStep (.rx (.byte w)) s = .next (s.noEscape.finish .corrupt .badEscape 0) :=
  (rxPort_of_spk mode _).trans (by rw [spkRxEvent, escDec_of_badEscape e]; rfl)

theorem rx_of_spkFrameEnd (mode : s.rxmode = .spk) (e : escEvent s.escp (cancelRun s.cancnt w) w = .frameEnd fe) :
    portStep (.rx (.byte w)) s = .next (spkFrameEnd fe s.noEscape) :=
  (rxPort_of_spk mode _).trans (by rw [spkRxEvent, escDec_of_frameEnd e]; rfl)

theorem rx_of_spkByte (mode : s.rxmode = .spk) (e : escEvent s.escp (cancelRun s.cancnt w) w = .data b) :
    portStep (.rx (.byte w)) s = spkByte b s.noEscape :=
  (rxPort_of_spk mode _).trans (by rw [spkRxEvent, escDec_of_data e]; rfl)

/-! ### The frame end (R148) -/

theorem State.foldCheck_eq (s : State) (c32 : Bool) (b : Byte) : s.foldCheck c32 b =
    { s with
      crc32 := if c32 then crc32Step s.crc32 b else s.crc32
      crc16 := if c32 then s.crc16 else crc16Step s.crc16 b } := by cases c32 <;> rfl

theorem spkFrameEnd_of_data (data : s.phase = phaseSpkData) (fe : FrameEnd) : spkFrameEnd fe s =
    { s with
      fe := fe, phase := phaseSpkTrail, tidx := 0
      crc32 := if s.rxc32 then crc32Step s.crc32 (letterOf fe) else s.crc32
      crc16 := if s.rxc32 then s.crc16 else crc16Step s.crc16 (letterOf fe) } := by
  rw [spkFrameEnd, if_pos data, State.foldCheck_eq]

theorem spkFrameEnd_of_trail (trail : s.phase = phaseSpkTrail) (fe : FrameEnd) :
    spkFrameEnd fe s = s.finish .corrupt .unexpectedFrameEnd 0 := by
  rw [spkFrameEnd, trail]
  rfl

/-- FE is written only by an event that leaves SPK.RX active and opens the trailer. -/
theorem SpkCase.fe_eq (c : SpkCase w s t) (mode : s.rxmode = .spk) (h : t.rxmode = .idle ∨ s.phase = phaseSpkTrail) :
    t.fe = s.fe := by
  cases c with
  | last _ _ _ _ _ ok => cases ok <;> rfl
  | frameEnd fe _ data =>
    obtain idle | trail := h
    · simp [mode] at idle
    · rw [data] at trail
      exact absurd trail (by decide)
  | _ => simp

/-- Settles O46: in DATA the letter is folded and opens the trailer, and no other event writes FE. -/
theorem frameEndIsLatched : Obligations.FrameEndIsLatched := by
  refine fun s w fe mode => ⟨fun data e => ?_, fun ev t e h => ?_⟩
  · obtain ⟨rfl, _⟩ := escEvent_frameEnd e
    exact ⟨rfl, (rx_of_spkFrameEnd mode e).trans (congrArg _ (spkFrameEnd_of_data (s := s.noEscape) data fe))⟩
  · obtain ⟨_, rfl⟩ | ⟨w, _, byte⟩ := spkRxEvent_cases ((rxPort_of_spk mode ev).symm.trans e)
    · rfl
    · exact byte.fe_eq mode h

/-! ### DATA (R151) -/

theorem spkByte_of_data (data : s.phase = phaseSpkData) (b : Byte) : spkByte b s = spkData b s := if_pos data

/-- The state of SPK.RX after a payload byte that is stored and folded. -/
def spkAfterPayloadByte (s : State) (b : Byte) : State :=
  { s with
    idx := s.idx + 1, rxlen := s.idx + 1, pbuf := s.pbuf.write s.idx.toNat b
    crc32 := if s.rxc32 then crc32Step s.crc32 b else s.crc32
    crc16 := if s.rxc32 then s.crc16 else crc16Step s.crc16 b }

theorem spkByte_of_room (data : s.phase = phaseSpkData) (more : s.idx ≠ s.rxmax) (inside : s.idx.toNat < s.size)
    (b : Byte) : spkByte b s = .next (spkAfterPayloadByte s b) := by
  rw [spkByte_of_data data, spkData_of_room b more inside, State.foldCheck_eq]
  rfl

/-- Settles O47: a decoded byte overruns or is stored at IDX and folded; every other event changes no more than ESCP and
CANCNT before it completes. -/
theorem payloadOrOverrun : Obligations.PayloadOrOverrun := by
  intro s w inv mode data event done t
  obtain ⟨_, count, room, fits, _⟩ := inv.inSpk mode
  refine ⟨rx_of_spkAbort mode, rx_of_spkEscape mode, fun _ => rx_of_spkBadEscape mode, fun b e => ?_⟩
  have byte : portStep (.rx (.byte w)) s = spkByte b t := rx_of_spkByte mode e
  rw [byte]
  refine ⟨fun full => ⟨count.trans full, (spkByte_of_data (s := t) data b).trans (spkData_of_full b full)⟩,
    fun more => ?_⟩
  have inside : s.idx.toNat < s.size := Nat.lt_of_lt_of_le (by bv_omega) fits
  exact ⟨_, spkByte_of_room (s := t) data more inside b, rfl, Memory.read_write_same ..,
    fun a other => Memory.read_write_other _ _ other⟩

/-! ### TRAIL (R149) -/

/-- How many bytes the trailer of a subpacket has (R145). -/
def trailerLength (c32 : Bool) : Nat := if c32 then 4 else 2

theorem spkByte_of_trail (trail : s.phase = phaseSpkTrail) (hj : s.tidx.toNat < 4) (b : Byte) : spkByte b s =
    .next (if s.tidx.toNat + 1 = trailerLength s.rxc32
      then (spkAfterTrailerByte s hj b).finishCheck (spkCheckOk (spkAfterTrailerByte s hj b))
      else spkAfterTrailerByte s hj b) := by
  have last : s.tidx + 1 = (if s.rxc32 then 4 else 2) ↔ s.tidx.toNat + 1 = trailerLength s.rxc32 := by
    rw [trailerLength]
    split <;> bv_omega
  rw [spkByte, trail, if_neg (by decide), spkTrail_eq b hj]
  simp only [last]

theorem State.finishCheck_of_ok {ok : Bool} (h : ok = true) : s.finishCheck ok = s.finish .ok .none 0 := if_pos h

theorem State.finishCheck_of_mismatch {ok : Bool} (h : ¬ ok = true) :
    s.finishCheck ok = s.finish .corrupt .checkMismatch 0 := if_neg h

/-- Settles O48: a trailer byte is stored and counted, and the last one is compared; every other event but EscapeStarted
completes. -/
theorem subpacketTrailer : Obligations.SubpacketTrailer := by
  intro s w inv mode trail
  obtain ⟨_, _, _, _, counted⟩ := inv.inSpk mode
  refine ⟨rx_of_spkAbort mode, rx_of_spkEscape mode, fun _ => rx_of_spkBadEscape mode, fun fe e => ?_, fun b e => ?_⟩
  · have stray := spkFrameEnd_of_trail (s := s.noEscape) trail fe
    exact (rx_of_spkFrameEnd mode e).trans (congrArg _ stray)
  · have inTbuf : s.tidx.toNat < 4 := (counted trail).trans_le (by split <;> omega)
    refine ⟨inTbuf, ?_⟩
    intro tbuf t verified
    have byte : portStep (.rx (.byte w)) s =
        .next (if s.tidx.toNat + 1 = trailerLength s.rxc32 then t.finishCheck (spkCheckOk t) else t) :=
      (rx_of_spkByte mode e).trans (spkByte_of_trail (s := s.noEscape) trail inTbuf b)
    have checked : spkCheckOk t = true ↔ verified := spkCheckOk_iff t
    refine ⟨fun more => byte.trans (congrArg _ (if_neg more.ne)), fun last => ?_⟩
    rw [byte, if_pos (show _ = trailerLength _ from last)]
    exact ⟨fun ok => congrArg _ (State.finishCheck_of_ok (checked.mpr ok)),
      fun bad => congrArg _ (State.finishCheck_of_mismatch (mt checked.mp bad))⟩

/-! ### A subpacket accepted (R144) -/

theorem State.CheckCurrent.inTrail (h : s.CheckCurrent) (mode : s.rxmode = .spk) (trail : s.phase = phaseSpkTrail) :
    s.CheckIs (s.payload s.rxlen.toNat ++ [letterOf s.fe]) := by
  rw [State.CheckCurrent, mode, trail, if_pos rfl] at h
  exact h

/-- Only the last byte of a trailer completes Ok: with the check of payload and letter in the accumulator, and only if
the trailer is that check. -/
theorem SpkCase.verified (c : SpkCase w s t) (inv : s.Inv) (current : s.CheckCurrent) (mode : s.rxmode = .spk)
    (ok : t.outcome = .ok) : t.CheckIs (t.payload t.rxlen.toNat ++ [letterOf t.fe]) ∧ spkCheckOk t = true := by
  have pending : s.outcome ≠ .ok := by simp [(inv.pending (by simp [mode])).1]
  cases c with
  | last _ _ later _ _ compared h =>
    cases compared with
    | true =>
      have check := current.inTrail mode (spkTrail_of_not_data (inv.inSpk mode).1 later)
      rw [State.finishCheck_of_ok rfl]
      refine ⟨?_, h.symm⟩
      rw [State.payload_congr (s := s) (by simp) (by simp)]
      simpa [State.CheckIs] using check
    | false => cases ok
  | payload => exact absurd ok (by simpa using pending)
  | frameEnd => exact absurd ok (by simpa using pending)
  | escape => exact absurd ok pending
  | trailer => exact absurd ok pending
  | _ => cases ok

/-- Settles O49: the comparison was passed with the check of payload and letter. -/
theorem subpacketOkMeansVerified : Obligations.SubpacketOkMeansVerified := by
  intro s t ev inv current mode e ok
  obtain ⟨_, rfl⟩ | ⟨w, _, byte⟩ := spkRxEvent_cases ((rxPort_of_spk mode ev).symm.trans e)
  · cases ok
  · obtain ⟨check, verified⟩ := byte.verified inv current mode ok
    exact check.spkCheckOk_iff.mp verified

end Sys2Proof.Machine
end

section
/-! The subpacket round trip (43_subpacket R152): SPK.RX takes each logical byte from the bytes it is sent as, reads the
payload, meets the frame end, reads the trailer, and completes Ok. -/

namespace Sys2Proof.Machine

variable {s : State} {fe : FrameEnd} {w : Byte} {m got : List Byte} {c32 : Bool} {maxlen : Nat}

/-! ### A logical byte on the wire (41_escape R106, R108) -/

/-- SPK.RX stands between two logical bytes, and a single byte 0x18 completes no run of five. -/
structure State.AwaitsByte (s : State) : Prop where
  mode : s.rxmode = .spk
  escp : s.escp = false
  short : s.cancnt.toNat ≤ 3

theorem escEvent_of_ne (h : w ≠ zdle) (escp : Bool) (c : BitVec 3) :
    escEvent escp (cancelRun c w) w = if escp then escSecond w else .data w := by
  rw [cancelRun_of_ne h, escEvent, if_neg (by decide), if_neg h]

theorem State.AwaitsByte.escape (h : s.AwaitsByte) :
    portStep (.rx (.byte zdle)) s = .next { s with cancnt := cancelRun s.cancnt zdle, escp := true } := by
  have short : cancelRun s.cancnt zdle ≠ 5 := by
    rw [Ne, cancelRun_zdle_eq_five_iff, not_le]
    exact Nat.lt_succ_of_le h.short
  exact rx_of_spkEscape h.mode ((escEvent_zdle ..).trans (if_neg short))

theorem runPorts_deliver_singleton (w : Byte) (s : State) :
    runPorts (deliver [w]) s = portStep (.rx (.byte w)) s := by
  rw [deliver, List.map_singleton, runPorts]
  cases portStep (.rx (.byte w)) s <;> rfl

/-- A logical byte arrives as itself or as an escaped pair, and either way it is decoded. -/
theorem State.AwaitsByte.runPorts_escWire (h : s.AwaitsByte) (ctlesc : Bool) (last b : Byte) :
    runPorts (deliver (escWire ctlesc last b)) s = spkByte b s.noEscape := by
  obtain ⟨control, e⟩ | ⟨raw, e⟩ := escWire_cases ctlesc last b <;> rw [e]
  · have event (c : BitVec 3) : escEvent true (cancelRun c (b ^^^ 0x40)) (b ^^^ 0x40) = .data b :=
      (escEvent_of_ne (toggle_ne_zdle control) true c).trans (escSecond_toggle control)
    rw [runPorts_deliver_cons h.escape, runPorts_deliver_singleton]
    exact rx_of_spkByte (s := { s with cancnt := cancelRun s.cancnt zdle, escp := true }) h.mode (event _)
  · have event : escEvent s.escp (cancelRun s.cancnt b) b = .data b := by
      rw [escEvent_of_ne raw, h.escp]
      rfl
    rw [runPorts_deliver_singleton]
    exact rx_of_spkByte h.mode event

theorem letterOf_ne_zdle (fe : FrameEnd) : letterOf fe ≠ zdle := by cases fe <;> decide

theorem State.AwaitsByte.runPorts_frameEnd (h : s.AwaitsByte) (fe : FrameEnd) :
    runPorts (deliver [zdle, letterOf fe]) s = .next (spkFrameEnd fe s.noEscape) := by
  have event (c : BitVec 3) : escEvent true (cancelRun c (letterOf fe)) (letterOf fe) = .frameEnd fe :=
    (escEvent_of_ne (letterOf_ne_zdle fe) true c).trans (escSecond_letterOf fe)
  rw [runPorts_deliver_cons h.escape, runPorts_deliver_singleton]
  exact rx_of_spkFrameEnd (s := { s with cancnt := cancelRun s.cancnt zdle, escp := true }) h.mode (event _)

theorem State.AwaitsByte.noEscape (h : s.AwaitsByte) : s.noEscape.AwaitsByte := ⟨h.mode, rfl, Nat.zero_le _⟩

/-! ### The payload (R147, R151) -/

/-- SPK.RX stands in DATA with the payload `m` received. -/
structure State.HasPayload (s : State) (c32 : Bool) (maxlen : Nat) (m : List Byte) : Prop extends s.AwaitsByte where
  phase : s.phase = phaseSpkData
  width : s.rxc32 = c32
  limit : s.rxmax.toNat = maxlen
  fits : maxlen ≤ s.size
  count : s.idx.toNat = m.length
  length : s.rxlen.toNat = m.length
  stored : s.payload m.length = m
  check : s.CheckIs m

theorem State.HasPayload.noEscape (h : s.HasPayload c32 maxlen m) : s.noEscape.HasPayload c32 maxlen m :=
  { h with toAwaitsByte := h.toAwaitsByte.noEscape }

theorem spkStart_hasPayload (short : s.cancnt.toNat ≤ 3) (fits : maxlen ≤ s.size) :
    (spkStart maxlen s).HasPayload (wideCheck s.henc) maxlen [] where
  mode := by simp [spkStart]
  escp := by simp [spkStart]
  short := by simpa [spkStart] using short
  phase := by simp [spkStart, phaseSpkData]
  width := by simp [spkStart]
  limit := by simpa [spkStart] using Nat.lt_succ_of_le (fits.trans s.pbufSize.atMost)
  fits := by simpa [spkStart, State.size] using fits
  count := by simp [spkStart]
  length := by simp [spkStart]
  stored := rfl
  check := State.checkIs_seedCheck rfl

theorem State.HasPayload.data (h : s.HasPayload c32 maxlen m) (room : m.length < maxlen) (b : Byte) :
    (spkAfterPayloadByte s b).HasPayload c32 maxlen (m ++ [b]) ∧ spkByte b s = .next (spkAfterPayloadByte s b) := by
  have count := h.count
  have limit := h.limit
  have next : (s.idx + 1).toNat = (m ++ [b]).length := by
    rw [List.length_append, List.length_singleton]
    bv_omega
  refine ⟨?_, spkByte_of_room h.phase (by bv_omega) (count.trans_lt (room.trans_le h.fits)) b⟩
  exact {
    toAwaitsByte := ⟨h.mode, h.escp, h.short⟩, phase := h.phase, width := h.width, limit := limit, fits := h.fits
    count := next, length := next
    stored := by
      rw [List.length_append, List.length_singleton,
        State.payload_receive (s := s) (t := spkAfterPayloadByte s b) (b := b) (by rw [← count]; rfl) rfl, h.stored]
    check := by
      have check := h.check.fold rfl b
      rwa [State.foldCheck_eq] at check }

/-- The payload is read byte by byte. -/
theorem State.HasPayload.read (h : s.HasPayload c32 maxlen got) (room : got.length + m.length ≤ maxlen)
    (ctlesc : Bool) (last : Byte) : ∃ u : State, u.HasPayload c32 maxlen (got ++ m)
      ∧ runPorts (deliver (escWires ctlesc last m)) s = .next u := by
  induction m generalizing s got last with
  | nil => exact ⟨s, by rwa [List.append_nil], rfl⟩
  | cons b m ih =>
    rw [List.length_cons] at room
    obtain ⟨received, byte⟩ := h.noEscape.data (by omega) b
    obtain ⟨u, received, rest⟩ := ih received (by simp; omega) (escLast ctlesc last b)
    refine ⟨u, by simpa using received, ?_⟩
    rw [escWires, deliver_append, runPorts_append ((h.runPorts_escWire ctlesc last b).trans byte), rest]

/-! ### The trailer (R148, R149) -/

/-- SPK.RX stands in TRAIL with the payload `m` and the marker `fe` received, and the bytes `got` of the trailer. -/
structure State.HasTrailer (s : State) (c32 : Bool) (fe : FrameEnd) (m got : List Byte) : Prop
    extends s.AwaitsByte where
  phase : s.phase = phaseSpkTrail
  width : s.rxc32 = c32
  marker : s.fe = fe
  length : s.rxlen.toNat = m.length
  stored : s.payload m.length = m
  check : s.CheckIs (m ++ [letterOf fe])
  count : s.tidx.toNat = got.length
  trailer : s.tbuf.toList.take got.length = got

theorem State.HasTrailer.noEscape (h : s.HasTrailer c32 fe m got) : s.noEscape.HasTrailer c32 fe m got :=
  { h with toAwaitsByte := h.toAwaitsByte.noEscape }

/-- The frame end opens the trailer. -/
theorem State.HasPayload.frameEnd (h : s.HasPayload c32 maxlen m) (fe : FrameEnd) :
    ∃ u : State, u.HasTrailer c32 fe m [] ∧ runPorts (deliver [zdle, letterOf fe]) s = .next u := by
  refine ⟨_, ?_, (h.runPorts_frameEnd fe).trans (congrArg _ (spkFrameEnd_of_data (s := s.noEscape) h.phase fe))⟩
  exact {
    toAwaitsByte := ⟨h.mode, rfl, Nat.zero_le _⟩, phase := rfl, width := h.width, marker := rfl, length := h.length
    stored := h.stored, count := rfl, trailer := List.take_zero
    check := by
      have check := h.check.fold rfl (letterOf fe)
      rwa [State.foldCheck_eq] at check }

theorem toList_take_set_succ {n j : Nat} (v : Vector Byte n) (hj : j < n) (b : Byte) :
    (v.set j b).toList.take (j + 1) = v.toList.take j ++ [b] := by
  simp [List.take_add_one, Vector.toList_set, List.take_set_of_le, hj]

theorem State.HasTrailer.data (h : s.HasTrailer c32 fe m got) (more : got.length < trailerLength c32) (b : Byte) :
    ∃ u : State, u.HasTrailer c32 fe m (got ++ [b]) ∧ spkByte b s =
      .next (if got.length + 1 = trailerLength c32 then u.finishCheck (spkCheckOk u) else u) := by
  have inTbuf : s.tidx.toNat < 4 := h.count.trans_lt (more.trans_le (by cases c32 <;> decide))
  have byte := spkByte_of_trail h.phase inTbuf b
  rw [h.count, h.width] at byte
  refine ⟨_, ?_, byte⟩
  exact {
    toAwaitsByte := ⟨h.mode, h.escp, h.short⟩, phase := h.phase, width := h.width, marker := h.marker
    length := h.length, stored := h.stored, check := h.check
    count := by
      have count := h.count
      change (s.tidx + 1).toNat = _
      rw [List.length_append, List.length_singleton]
      bv_omega
    trailer := by
      rw [List.length_append, List.length_singleton, ← h.count]
      exact (toList_take_set_succ s.tbuf inTbuf b).trans (by rw [h.count, h.trailer]) }

/-- The trailer is read byte by byte, and its last byte completes the command. -/
theorem State.HasTrailer.read {rest : List Byte} (h : s.HasTrailer c32 fe m got) (nonempty : rest ≠ [])
    (total : got.length + rest.length = trailerLength c32) (ctlesc : Bool) (last : Byte) :
    ∃ u : State, u.HasTrailer c32 fe m (got ++ rest)
      ∧ runPorts (deliver (escWires ctlesc last rest)) s = .next (u.finishCheck (spkCheckOk u)) := by
  induction rest generalizing s got last with
  | nil => exact absurd rfl nonempty
  | cons b rest ih =>
    rw [List.length_cons] at total
    obtain ⟨u, received, byte⟩ := h.noEscape.data (by omega) b
    have first := (h.runPorts_escWire ctlesc last b).trans byte
    rw [escWires, deliver_append]
    cases rest with
    | nil =>
      rw [if_pos (by simpa using total)] at first
      exact ⟨u, received, runPorts_append first⟩
    | cons b' rest =>
      rw [List.length_cons] at total
      rw [if_neg (by omega)] at first
      obtain ⟨v, received, finish⟩ := ih received nofun (by simp; omega) (escLast ctlesc last b)
      exact ⟨v, by simpa using received, by rw [runPorts_append first, finish]⟩

theorem length_wireCheck (c32 : Bool) (m : List Byte) : (wireCheck c32 m).length = trailerLength c32 := by
  cases c32 <;> rfl

theorem wireCheck_ne_nil (c32 : Bool) (m : List Byte) : wireCheck c32 m ≠ [] := by cases c32 <;> exact nofun

/-- A subpacket whose trailer is its own check is accepted (R149). -/
theorem State.HasTrailer.checkOk (h : s.HasTrailer c32 fe m (wireCheck c32 (m ++ [letterOf fe]))) :
    spkCheckOk s = true := by
  have trailer := h.trailer
  rw [length_wireCheck] at trailer
  rw [h.check.spkCheckOk_iff, h.width]
  cases c32 <;> exact trailer.symm.trans (by simp [trailerLength, List.take_add_one])

/-! ### The round trip -/

theorem runPorts_present_spkRx (idle : s.rxmode = .idle) (named : s.henc ≠ .reserved) (fits : maxlen ≤ s.size)
    (ps : List PortStep) : runPorts (present (.spkRx maxlen) :: ps) s = runPorts ps (spkStart maxlen s) := by
  have operand : lenFits maxlen = true := lenFits_iff.mpr (Nat.lt_succ_of_le (fits.trans s.pbufSize.atMost))
  have accepted : portStep (present (.spkRx maxlen)) s = .next (spkStart maxlen s) :=
    (commandPort_of_ok (.inl idle) (decodeOfEncode (.spkRx maxlen) operand)).trans (exec_spkRx named fits)
  rw [runPorts, accepted]

/-- What SPK.TX sent, an SPK.RX that expects that check reads back. -/
theorem State.HasPayload.readsSubpacket (h : s.HasPayload c32 maxlen []) (room : m.length ≤ maxlen) (fe : FrameEnd)
    (ctlesc : Bool) (first second : Byte) :
    ∃ u : State, u.HasTrailer c32 fe m (wireCheck c32 (m ++ [letterOf fe]))
      ∧ runPorts (deliver (escWires ctlesc first m ++ [zdle, letterOf fe]
          ++ escWires ctlesc second (wireCheck c32 (m ++ [letterOf fe])))) s = .next (u.finish .ok .none 0) := by
  obtain ⟨u, payload, sentPayload⟩ := h.read (m := m) (by simpa using room) ctlesc first
  obtain ⟨v, opened, sentMarker⟩ := payload.frameEnd fe
  obtain ⟨x, whole, sentTrailer⟩ := opened.read (wireCheck_ne_nil c32 (m ++ [letterOf fe]))
    ((Nat.zero_add _).trans (length_wireCheck ..)) ctlesc second
  refine ⟨x, whole, ?_⟩
  rw [deliver_append, deliver_append, List.append_assoc, runPorts_append sentPayload, runPorts_append sentMarker,
    sentTrailer, State.finishCheck_of_ok whole.checkOk]

/-- Settles O50: the receiver starts with the width of the sender's check and reads back what was sent. -/
theorem subpacketRoundTrip : Obligations.SubpacketRoundTrip := by
  intro a a' b enc fe len maxlen named fits sent idle henc agree room roomFits short
  obtain rfl : spkSend enc fe len a = a' := Host.Outcome.next.inj ((exec_spkTx named fits).symm.trans sent)
  have width : wideCheck b.henc = wideCheck enc := by
    rw [Bool.eq_iff_iff, wideCheck, wideCheck, beq_iff_eq, beq_iff_eq, agree]
  have started := spkStart_hasPayload short roomFits
  rw [width] at started
  obtain ⟨u, received, run⟩ := started.readsSubpacket (m := a.payload len) (by simpa using room) fe a.ctlesc a.lasttx
    ((escWires a.ctlesc a.lasttx (a.payload len)).getLastD a.lasttx)
  refine ⟨u.finish .ok .none 0, ?_, rfl, rfl, received.length.trans (a.length_payload len), received.marker,
    fun i hi => ?_⟩
  · rw [runPorts_present_spkRx idle henc roomFits, spkSend_eq rfl rfl, List.drop_left]
    exact run
  · have stored := received.stored
    rw [State.length_payload] at stored
    exact List.map_inj_left.mp stored i (List.mem_range.mpr hi)

end Sys2Proof.Machine
end

section
/-! The XMODEM Block Codec, one byte at a time (44_xblock R156, R161 to R163): XBK.TX in both modes, and what a byte does
in each phase of XBK.RX. -/

namespace Sys2Proof.Machine

variable {s : State} {w : Byte} {len : Nat}

/-! ### XBK.TX (R156) -/

/-- The trailer of a block whose payload is `m` (30_encoding R78). -/
def blockCheck : CheckMode → List Byte → List Byte
  | .sum, m => [sum8Of m]
  | .crc, m => beBytes (crc16Of m)

theorem State.blockTrailer_blockOver (s : State) (mode : CheckMode) (m : List Byte) :
    (s.blockOver mode m).blockTrailer mode = blockCheck mode m := by cases mode <;> rfl

theorem encode_xbkTx (mode : CheckMode) (h : len < 65536) : encode (.xbkTx mode len) =
    0x50000000#32 ||| mode.code.setWidth 32 <<< 16 ||| BitVec.ofNat 32 len := by
  have operand : wordOf 0x50 (0#7 ++ mode.code) 0 = 0x50000000#32 ||| mode.code.setWidth 32 <<< 16 := by
    cases mode <;> decide
  rw [← operand]
  exact wordOf_length _ _ h

theorem exec_xbkTx (mode : CheckMode) (fits : len ≤ 128) : exec (.xbkTx mode len) s = .next (xbkSend mode len s) :=
  if_neg (by simpa [xbkTxBad] using fits)

theorem exec_xbkTx_bad (mode : CheckMode) (h : 128 < len) :
    exec (.xbkTx mode len) s = .next (s.finish .badOperand .none 0) :=
  if_pos (decide_eq_true h)

theorem State.blockPayload_eq (s : State) (fits : len ≤ 128) :
    s.blockPayload len = s.payload len ++ List.replicate (128 - len) 0x00 := by
  have split : List.range 128 = List.range len ++ (List.range (128 - len)).map (len + ·) := by
    rw [← List.range_add, Nat.add_sub_cancel' fits]
  rw [State.blockPayload, split, List.map_append, List.map_map]
  refine congrArg₂ _ (List.map_congr_left fun i hi => if_pos (List.mem_range.mp hi)) ?_
  exact List.eq_replicate_iff.mpr ⟨by simp, by simp⟩

@[simp] theorem State.length_blockPayload (s : State) (len : Nat) : (s.blockPayload len).length = 128 := by
  simp [State.blockPayload]

theorem xbkSend_eq {d : List Byte} (mode : CheckMode) (payload : s.blockPayload len = d) : xbkSend mode len s =
    { s.blockOver mode d with
      txq := s.txq ++ ([soh, s.xblk, s.xblk ^^^ 0xFF] ++ d ++ blockCheck mode d)
      outcome := .ok, cause := .none, rxmode := .idle
      res := BitVec.ofNat 32 (3 + d.length + (blockCheck mode d).length) } := by
  have appended : ((s.blockOver mode d).txPut ([soh, s.xblk, s.xblk ^^^ 0xFF] ++ d ++ blockCheck mode d)).txq =
      s.txq ++ ([soh, s.xblk, s.xblk ^^^ 0xFF] ++ d ++ blockCheck mode d) := by simp
  have length : ([soh, s.xblk, s.xblk ^^^ 0xFF] ++ d ++ blockCheck mode d).length =
      3 + d.length + (blockCheck mode d).length := by rw [List.length_append, List.length_append]; rfl
  rw [xbkSend, payload, State.blockTrailer_blockOver, State.finishSent_of_txq appended, length]
  simp [State.finish, State.complete, State.txPut]

/-- Settles O51: the payload is padded to 128 bytes, and the check of either mode covers it alone. -/
theorem blockTransmit : Obligations.BlockTransmit := by
  refine fun s mode len => ⟨encode_xbkTx mode, exec_xbkTx_bad mode, fun fits => ?_⟩
  intro d c
  have padded : s.blockPayload len = d := s.blockPayload_eq fits
  have length : d.length = 128 := padded ▸ s.length_blockPayload len
  rw [exec_xbkTx mode fits, xbkSend_eq mode padded, length]
  cases mode <;> rfl

/-! ### Phases START, BLK and CBLK (R161 to R163) -/

theorem rx_of_xbkStart (mode : s.rxmode = .xbk) (start : s.phase = phaseStart) :
    portStep (.rx (.byte w)) s = .next (if cancelRun s.cancnt w = 5 then (s.countCancel w).finish .abort .none 0
      else xbkStartByte w (s.countCancel w)) :=
  (rxPort_of_xbk mode _).trans (if_pos start)

/-- After START every byte clears the cancel run (R162). -/
theorem rx_of_xbkInBlock (mode : s.rxmode = .xbk) (started : s.phase ≠ phaseStart) :
    portStep (.rx (.byte w)) s = xbkInBlock w { s with cancnt := 0 } :=
  (rxPort_of_xbk mode _).trans (if_neg started)

theorem rx_of_xbkBlk (mode : s.rxmode = .xbk) (blk : s.phase = phaseBlk) :
    portStep (.rx (.byte w)) s = .next { s with cancnt := 0, xrblk := w, phase := phaseCblk } :=
  (rx_of_xbkInBlock mode (by rw [blk]; decide)).trans (if_pos blk)

theorem rx_of_xbkCblk (mode : s.rxmode = .xbk) (cblk : s.phase = phaseCblk) :
    portStep (.rx (.byte w)) s = .next (xbkComplement w { s with cancnt := 0 }) := by
  rw [rx_of_xbkInBlock mode (by rw [cblk]; decide), xbkInBlock, cblk]
  rfl

/-- Settles O52, phase by phase: only START counts cancel bytes. -/
theorem blockHeaderBytes : Obligations.BlockHeaderBytes :=
  fun _ _ mode => ⟨rx_of_xbkStart mode, rx_of_xbkBlk mode, rx_of_xbkCblk mode⟩

/-! ### Phase DATA (R163) -/

theorem rx_of_xbkData (mode : s.rxmode = .xbk) (data : s.phase = phaseXbkData) :
    portStep (.rx (.byte w)) s = xbkData w { s with cancnt := 0 } := by
  rw [rx_of_xbkInBlock mode (by rw [data]; decide), xbkInBlock, data]
  rfl

theorem State.foldBlock_eq (s : State) (mode : CheckMode) (b : Byte) : s.foldBlock mode b =
    { s with
      sum8 := if mode = .sum then s.sum8 + b else s.sum8
      crc16 := if mode = .crc then crc16Step s.crc16 b else s.crc16 } := by cases mode <;> rfl

/-- The state of XBK.RX after a payload byte, the 128th of which opens the trailer. -/
def xbkAfterDataByte (s : State) (w : Byte) : State :=
  { s with
    cancnt := 0, idx := s.idx + 1, rxlen := s.idx + 1, pbuf := s.pbuf.write s.idx.toNat w
    sum8 := if s.xmode = .sum then s.sum8 + w else s.sum8
    crc16 := if s.xmode = .crc then crc16Step s.crc16 w else s.crc16
    phase := if s.idx = 127 then phaseXbkTrail else phaseXbkData, tidx := if s.idx = 127 then 0 else s.tidx }

theorem rx_of_xbkPayload (mode : s.rxmode = .xbk) (data : s.phase = phaseXbkData) (inside : s.idx.toNat < s.size) :
    portStep (.rx (.byte w)) s = .next (xbkAfterDataByte s w) := by
  have last : s.idx + 1 = 128 ↔ s.idx = 127 := by bv_omega
  rw [rx_of_xbkData mode data, xbkData, State.storePbuf_of_lt (s := { s with cancnt := 0 }) _ _ inside]
  by_cases full : s.idx = 127
  · simp only [last, State.foldBlock_eq, xbkAfterDataByte, if_pos full]
  · simp only [last, State.foldBlock_eq, xbkAfterDataByte, if_neg full, data]

/-! ### Phase TRAIL (R163) -/

theorem rx_of_xbkTrail (mode : s.rxmode = .xbk) (trail : s.phase = phaseXbkTrail) :
    portStep (.rx (.byte w)) s = xbkTrail w { s with cancnt := 0 } := by
  rw [rx_of_xbkInBlock mode (by rw [trail]; decide), xbkInBlock, trail]
  rfl

theorem rx_of_xbkSum (mode : s.rxmode = .xbk) (trail : s.phase = phaseXbkTrail) (check : s.xmode = .sum) :
    portStep (.rx (.byte w)) s = .next ({ s with cancnt := 0 }.finishCheck (w == s.sum8)) := by
  rw [rx_of_xbkTrail mode trail, xbkTrail, check]

theorem rx_of_xbkCrcHigh (mode : s.rxmode = .xbk) (trail : s.phase = phaseXbkTrail) (check : s.xmode = .crc)
    (first : s.tidx = 0) :
    portStep (.rx (.byte w)) s = .next { s with cancnt := 0, tbuf := s.tbuf.set 0 w, tidx := 1 } := by
  rw [rx_of_xbkTrail mode trail, xbkTrail, check, first]
  rfl

theorem rx_of_xbkCrcLow (mode : s.rxmode = .xbk) (trail : s.phase = phaseXbkTrail) (check : s.xmode = .crc)
    (second : s.tidx = 1) :
    portStep (.rx (.byte w)) s = .next ({ s with cancnt := 0, tbuf := s.tbuf.set 1 w, tidx := 2 }.finishCheck
      ([s.tbuf[0], w] == beBytes s.crc16)) := by
  have compared : (ofBe s.tbuf[0] w == s.crc16) = ([s.tbuf[0], w] == beBytes s.crc16) := by
    rw [Bool.eq_iff_iff, beq_iff_eq, beq_iff_eq, ofBe_eq_iff]
  rw [rx_of_xbkTrail mode trail, xbkTrail, check, second, ← compared]
  simp [State.storeTbuf]

theorem State.finishCheck_eq (s : State) (ok : Bool) : s.finishCheck ok =
    { s with
      outcome := if ok then .ok else .corrupt, cause := if ok then .none else .checkMismatch, rxmode := .idle
      res := 0 } := by cases ok <;> rfl

/-- Settles O53: IDX stays inside the 128 bytes every PBUF has, so a payload byte is stored whatever its value; a trailer
byte is stored or compared. -/
theorem blockPayloadAndTrailer : Obligations.BlockPayloadAndTrailer := by
  intro s w inv mode done
  obtain ⟨_, _, _, inPayload, _⟩ := inv.inXbk mode
  refine ⟨fun data => ?_, fun trail check => ?_, fun trail check => rx_of_xbkCrcHigh mode trail check,
    fun trail check second => ?_⟩
  · have inside : s.idx.toNat < s.size := (inPayload data).trans_le s.pbufSize.atLeast
    exact ⟨_, rx_of_xbkPayload mode data inside, rfl, Memory.read_write_same ..,
      fun a other => Memory.read_write_other _ _ other⟩
  · rw [rx_of_xbkSum mode trail check, State.finishCheck_eq]
  · rw [rx_of_xbkCrcLow mode trail check second, State.finishCheck_eq]

end Sys2Proof.Machine
end

section
/-! The block round trip (44_xblock R165): XBK.RX meets SOH, the block number and its complement, reads the 128 payload
bytes that XBK.TX sent raw, and completes Ok on the last byte of the trailer. -/

namespace Sys2Proof.Machine

variable {s : State} {mode : CheckMode} {blk : Byte} {got m : List Byte}

/-- XBK.RX stands in block `blk` with the payload bytes `m` received; after the 128th the trailer is open. -/
structure State.HasBlock (s : State) (mode : CheckMode) (blk : Byte) (m : List Byte) : Prop where
  rxmode : s.rxmode = .xbk
  xmode : s.xmode = mode
  number : s.xrblk = blk
  phase : s.phase = if m.length = 128 then phaseXbkTrail else phaseXbkData
  trailer : m.length = 128 → s.tidx = 0
  count : s.idx.toNat = m.length
  length : s.rxlen.toNat = m.length
  stored : s.payload m.length = m
  check : s.BlockCheckIs m

/-! ### The acceptance and the header of the block (R160, R163) -/

/-- The state in which XBK.RX has been accepted (R160). -/
def xbkStart (mode : CheckMode) (s : State) : State :=
  { s.activate .xbk with tidx := 0, rxlen := 0, xmode := mode, rxc32 := false }.seedBlock mode

theorem runPorts_present_xbkRx (idle : s.rxmode = .idle) (ps : List PortStep) :
    runPorts (present (.xbkRx mode) :: ps) s = runPorts ps (xbkStart mode s) := by
  have accepted : portStep (present (.xbkRx mode)) s = .next (xbkStart mode s) :=
    commandPort_of_ok (.inl idle) (decodeOfEncode (.xbkRx mode) rfl)
  rw [runPorts, accepted]

theorem rx_of_xbkSoh (rxmode : s.rxmode = .xbk) (start : s.phase = phaseStart) :
    portStep (.rx (.byte soh)) s = .next { s with cancnt := 0, phase := phaseBlk } :=
  rx_of_xbkStart rxmode start

/-- SOH, the block number and its complement open the payload. -/
theorem runPorts_blockHeader (rxmode : s.rxmode = .xbk) (start : s.phase = phaseStart) (blk : Byte) :
    runPorts (deliver [soh, blk, blk ^^^ 0xFF]) s =
      .next { s with cancnt := 0, xrblk := blk, phase := phaseXbkData, idx := 0 } := by
  have number := rx_of_xbkBlk (s := { s with cancnt := 0, phase := phaseBlk }) (w := blk) rxmode rfl
  have complement := rx_of_xbkCblk (s := { s with cancnt := 0, xrblk := blk, phase := phaseCblk }) (w := blk ^^^ 0xFF)
    rxmode rfl
  rw [runPorts_deliver_cons (rx_of_xbkSoh rxmode start), runPorts_deliver_cons number, runPorts_deliver_singleton]
  exact complement.trans (congrArg _ (if_pos rfl))

theorem xbkStart_opens (s : State) (mode : CheckMode) (blk : Byte) :
    ∃ u : State, u.HasBlock mode blk []
      ∧ runPorts (deliver [soh, blk, blk ^^^ 0xFF]) (xbkStart mode s) = .next u := by
  have rxmode : (xbkStart mode s).rxmode = .xbk := by simp [xbkStart]
  refine ⟨_, ?_, runPorts_blockHeader rxmode (by simp [xbkStart, phaseStart]) blk⟩
  exact {
    rxmode := rxmode, number := rfl, phase := rfl, trailer := nofun, count := rfl, stored := rfl
    xmode := by simp [xbkStart]
    length := by simp [xbkStart]
    check := State.blockCheckIs_seedBlock rfl }

/-! ### The payload (R163) -/

theorem State.HasBlock.data (h : s.HasBlock mode blk m) (room : m.length < 128) (w : Byte) :
    (xbkAfterDataByte s w).HasBlock mode blk (m ++ [w])
      ∧ portStep (.rx (.byte w)) s = .next (xbkAfterDataByte s w) := by
  have count := h.count
  have length : (m ++ [w]).length = m.length + 1 := List.length_append
  have last : s.idx = 127 ↔ m.length + 1 = 128 := by bv_omega
  have next : (s.idx + 1).toNat = (m ++ [w]).length := by
    rw [length]
    bv_omega
  have inside : s.idx.toNat < s.size := count.trans_lt (room.trans_le s.pbufSize.atLeast)
  refine ⟨?_, rx_of_xbkPayload h.rxmode (h.phase.trans (if_neg room.ne)) inside⟩
  exact {
    rxmode := h.rxmode, xmode := h.xmode, number := h.number, count := next, length := next
    phase := by simp only [xbkAfterDataByte, last, length]
    trailer := fun full => if_pos (last.mpr (length ▸ full))
    stored := by
      rw [length, State.payload_receive (s := s) (t := xbkAfterDataByte s w) (b := w) (by rw [← count]; rfl) rfl,
        h.stored]
    check := by
      have check := h.check.fold w
      rwa [State.foldBlock_eq] at check }

/-- The payload is read byte by byte. -/
theorem State.HasBlock.read (h : s.HasBlock mode blk got) (room : got.length + m.length ≤ 128) :
    ∃ u : State, u.HasBlock mode blk (got ++ m) ∧ runPorts (deliver m) s = .next u := by
  induction m generalizing s got with
  | nil => exact ⟨s, by rwa [List.append_nil], rfl⟩
  | cons w m ih =>
    rw [List.length_cons] at room
    obtain ⟨received, byte⟩ := h.data (by omega) w
    obtain ⟨u, received, rest⟩ := ih received (by simp; omega)
    exact ⟨u, by simpa using received, (runPorts_deliver_cons byte m).trans rest⟩

/-! ### The trailer (R163) -/

theorem State.BlockCheckIs.blockTrailer (h : s.BlockCheckIs m) (xmode : s.xmode = mode) :
    blockCheck mode m = s.blockTrailer mode := by
  rw [State.BlockCheckIs, xmode] at h
  cases mode with
  | sum => exact congrArg ([·]) h.symm
  | crc => exact congrArg beBytes h.symm

theorem runPorts_crcTrailer (rxmode : s.rxmode = .xbk) (trail : s.phase = phaseXbkTrail) (xmode : s.xmode = .crc)
    (first : s.tidx = 0) (hi lo : Byte) : runPorts (deliver [hi, lo]) s =
      .next ({ s with cancnt := 0, tbuf := (s.tbuf.set 0 hi).set 1 lo, tidx := 2 }.finishCheck
        ([hi, lo] == beBytes s.crc16)) := by
  have low := rx_of_xbkCrcLow (s := { s with cancnt := 0, tbuf := s.tbuf.set 0 hi, tidx := 1 }) (w := lo)
    rxmode trail xmode rfl
  rw [runPorts_deliver_cons (rx_of_xbkCrcHigh rxmode trail xmode first), runPorts_deliver_singleton]
  simpa only [Vector.getElem_set_self] using low

/-- The trailer that is the check of the payload completes Ok on its last byte, and leaves what was received. -/
theorem State.HasBlock.accepts (h : s.HasBlock mode blk m) (full : m.length = 128) :
    ∃ tbuf tidx, runPorts (deliver (blockCheck mode m)) s =
      .next ({ s with cancnt := 0, tbuf := tbuf, tidx := tidx }.finish .ok .none 0) := by
  have trail : s.phase = phaseXbkTrail := h.phase.trans (if_pos full)
  have held : blockCheck mode m = s.blockTrailer mode := h.check.blockTrailer h.xmode
  cases mode with
  | sum =>
    have equal : (sum8Of m == s.sum8) = true := beq_iff_eq.mpr (List.head_eq_of_cons_eq held)
    exact ⟨s.tbuf, s.tidx, (runPorts_deliver_singleton ..).trans
      ((rx_of_xbkSum h.rxmode trail h.xmode).trans (congrArg _ (State.finishCheck_of_ok equal)))⟩
  | crc =>
    exact ⟨_, _, (runPorts_crcTrailer h.rxmode trail h.xmode (h.trailer full) _ _).trans
      (congrArg _ (State.finishCheck_of_ok (beq_iff_eq.mpr held)))⟩

/-! ### The round trip -/

/-- Settles O54: the header of the block opens its payload, each byte that was sent is stored as it is, and the trailer is
the check of what was stored. -/
theorem blockRoundTrip : Obligations.BlockRoundTrip := by
  intro a a' b mode len fits sent idle
  obtain rfl : xbkSend mode len a = a' := Host.Outcome.next.inj ((exec_xbkTx mode fits).symm.trans sent)
  obtain ⟨u, opened, header⟩ := xbkStart_opens b mode a.xblk
  obtain ⟨v, received, payload⟩ := opened.read (m := a.blockPayload len) (by simp)
  obtain ⟨tbuf, tidx, trailer⟩ := received.accepts (a.length_blockPayload len)
  refine ⟨{ v with cancnt := 0, tbuf := tbuf, tidx := tidx }.finish .ok .none 0, ?_, rfl, rfl, received.number, ?_,
    fun i hi => ?_⟩
  · rw [runPorts_present_xbkRx idle, xbkSend_eq mode rfl, List.drop_left, deliver_append, deliver_append,
      List.append_assoc, runPorts_append header, runPorts_append payload]
    exact trailer
  · exact BitVec.eq_of_toNat_eq (received.length.trans (a.length_blockPayload len))
  · have stored := received.stored
    rw [List.nil_append, State.length_blockPayload] at stored
    exact List.map_inj_left.mp stored i (List.mem_range.mpr hi)

end Sys2Proof.Machine
end

section
/-! What each port step of the system does (45_system R170 to R177): the register port, the PBUF port, TxTake, the two
resets, the checksum calls, and how an RX event ends. -/

namespace Sys2Proof.Machine

variable {s t u : State}

/-! ### The register port (R172, R173) -/

theorem setWidth_ofBool (b : Bool) : (BitVec.ofBool b).setWidth 32 = if b then 1#32 else 0#32 := by cases b <;> rfl

theorem State.statusView_eq (s : State) : s.statusView =
    s.fe.code.setWidth 32 <<< 9 ||| (if s.rxmode = .idle then 0 else 1 : Word) <<< 8 ||| s.cause.code.setWidth 32 <<< 4
      ||| s.outcome.code.setWidth 32 := by
  have busy : (if s.busy = true then 1#32 else 0#32) = if s.rxmode = .idle then 0 else 1 := by
    simp only [s.busy_iff, ite_not]
    rfl
  rw [State.statusView, setWidth_ofBool, busy]

theorem State.escstView_eq (s : State) : s.escstView =
    s.lasttx.setWidth 32 <<< 8 ||| s.cancnt.setWidth 32 <<< 4 ||| if s.escp then 1 else 0 := by
  rw [State.escstView, setWidth_ofBool]
  rfl

/-- Settles O10, register by register: only the views STATUS and ESCST are written in another form. -/
theorem registerRead : Obligations.RegisterRead := by
  intro s n
  match n with
  | 1 => exact congrArg (fun v => Host.Outcome.next (s.reply (.reg 1 v))) s.statusView_eq
  | 9 => exact congrArg (fun v => Host.Outcome.next (s.reply (.reg 9 v))) s.escstView_eq
  | 0 | 2 | 3 | 4 | 5 | 6 | 7 | 8 | 10 | 11 | 12 | 13 | 14 | _ + 15 => rfl

theorem registerWritePort_of_idle (idle : s.rxmode = .idle) (n : Nat) (v : Word) :
    registerWritePort n v s = .next (s.regStore n v) := if_neg (not_busy_iff.mpr idle)

theorem registerWritePort_of_busy (busy : s.rxmode ≠ .idle) (n : Nat) (v : Word) :
    registerWritePort n v s = .refused .registerWriteWhileBusy := if_pos (s.busy_iff.mpr busy)

/-- CANCNT after a write of ESCST is clamped to 5, which its three bits hold (10_state R22). -/
theorem State.toNat_writeEscst_cancnt (s : State) (v : Word) :
    (s.writeEscst v).cancnt.toNat = min (v.extractLsb' 4 3).toNat 5 := by
  rw [State.writeEscst, BitVec.toNat_ofNat]
  omega

/-- Settles O12, register by register, on the state that `regStore` gives: only HENC, which holds a name for its code,
and the clamped CANCNT are not the written bits themselves. -/
theorem registerWrite : Obligations.RegisterWrite := by
  intro s n v
  refine ⟨fun busy => registerWritePort_of_busy busy n v, fun idle => ⟨_, registerWritePort_of_idle idle n v, ?_⟩⟩
  match n with
  | 8 => exact ⟨rfl, HdrEnc.code_ofCode _⟩
  | 9 => exact ⟨rfl, rfl, s.toNat_writeEscst_cancnt v, rfl⟩
  | 0 | 1 | 2 | 3 | 4 | 5 | 6 | 7 | 10 | 11 | 12 | 13 | 14 | _ + 15 => rfl

/-! ### The PBUF port and TxTake (R174, R175) -/

theorem bufferReadPort_of_enabled {a : Nat} (idle : s.rxmode = .idle) (inside : a < s.size) :
    bufferReadPort a s = .next (s.reply (.buf a (s.pbufByte a))) :=
  (if_neg (not_busy_iff.mpr idle)).trans (if_pos inside)

theorem bufferWritePort_of_enabled {a : Nat} (idle : s.rxmode = .idle) (inside : a < s.size) (b : Byte) :
    bufferWritePort a b s = .next { s with pbuf := s.pbuf.write a b } :=
  (if_neg (not_busy_iff.mpr idle)).trans (if_pos inside)

/-- Settles O13: an enabled write is read back at its address and nowhere else. -/
theorem bufferPort : Obligations.BufferPort := by
  intro s a b
  constructor
  · intro idle inside
    have same := s.pbuf.read_write_same a b
    refine ⟨bufferReadPort_of_enabled idle inside, _, bufferWritePort_of_enabled idle inside b, rfl, same,
      State.pbufByte_of_read same, fun a' other => ?_⟩
    have elsewhere := s.pbuf.read_write_other b other
    exact ⟨elsewhere, State.pbufByte_congr elsewhere rfl⟩
  · intro disabled
    have refused : ¬ (s.rxmode = .idle ∧ a < s.pbufSize.bytes) := by
      rintro ⟨idle, inside⟩
      exact disabled.elim (· idle) (Nat.not_le_of_lt inside)
    exact ⟨(bufferReadPort_refused_iff a).mpr refused, (bufferWritePort_refused_iff a b).mpr refused⟩

theorem txPort_of_cons {b : Byte} {rest : List Byte} (queue : s.txq = b :: rest) :
    txPort s = .next ({ s with txq := rest }.reply (.tx b)) := by
  rw [txPort, queue]

/-- Settles O14, by whether the queue is empty. -/
theorem txTakeRemovesTheHead : Obligations.TxTakeRemovesTheHead := by
  intro s
  split
  next queue => exact txPort_of_cons queue
  next queue => exact txPort_refused_iff.mpr (not_not_intro queue)

/-! ### RST and hardware reset (R170; 70_reset R200, R202) -/

theorem State.hardReset_atResetValues (s : State) : s.hardReset.AtResetValues := { reset_atResetValues with }

theorem exec_rst (s : State) : exec .rst s = .next (s.toReset.finish .ok .none 0) := rfl

theorem State.rst_atResetValues (s : State) : (s.toReset.finish .ok .none 0).AtResetValues :=
  { reset_atResetValues with }

/-- Settles O17: both resets put State.reset's values in place, and RST keeps the buffers. -/
theorem resetAndRst : Obligations.ResetAndRst := fun s =>
  ⟨⟨_, rfl, s.hardReset_atResetValues, rfl, Memory.read_nil⟩, rfl,
    commandPort_of_ok (.inr rfl) (decodeOfEncode .rst rfl),
    _, exec_rst s, s.rst_atResetValues, rfl, rfl, rfl, fun _ => ⟨rfl, rfl⟩⟩

/-! ### The checksum calls (R176) -/

theorem portStep_present {i : Instr} (idle : s.rxmode = .idle) (wf : i.WellFormed) :
    portStep (present i) s = exec i s :=
  commandPort_of_ok (.inl idle) (decodeOfEncode i wf)

/-- What a checksum call keeps between its commands: the unit idle, nothing more handed out, and what `sums` says of the
accumulator and RES. -/
structure State.Summing (replies : List Reply) (sums : State → Prop) (s : State) : Prop where
  idle : s.rxmode = .idle
  replies : s.replies = replies
  sums : sums s

/-- An update command takes a sum over the bytes so far to the sum over one byte more. -/
def Updates (update : Byte → Instr) (replies : List Reply) (sums : List Byte → State → Prop) : Prop :=
  ∀ b, (update b).WellFormed ∧ ∀ (got : List Byte) (s : State), s.Summing replies (sums got) →
    ∃ t, exec (update b) s = .next t ∧ t.Summing replies (sums (got ++ [b]))

section
variable {init fin : Instr} {update : Byte → Instr} {replies : List Reply} {sums : List Byte → State → Prop}
  {got : List Byte}

theorem Updates.runPorts (updates : Updates update replies sums) (m : List Byte) (h : s.Summing replies (sums got)) :
    ∃ t, runPorts (m.map (fun b => present (update b))) s = .next t ∧ t.Summing replies (sums (got ++ m)) := by
  induction m generalizing s got with
  | nil => exact ⟨s, rfl, by rwa [List.append_nil]⟩
  | cons b m ih =>
    obtain ⟨wf, effect⟩ := updates b
    obtain ⟨t, effect, extended⟩ := effect got s h
    obtain ⟨u, run, summed⟩ := ih extended
    refine ⟨u, ?_, by rwa [List.append_assoc] at summed⟩
    rw [List.map_cons, Machine.runPorts, portStep_present h.idle wf, effect]
    exact run

/-- The commands of a call before its end: the sum over no bytes, and then over the whole message. -/
theorem Updates.runPorts_call (updates : Updates update replies sums) (idle : s.rxmode = .idle)
    (wf : init.WellFormed) (effect : exec init s = .next t) (started : t.Summing replies (sums []))
    (m : List Byte) (rest : List PortStep) :
    ∃ u, Machine.runPorts (present init :: (m.map (fun b => present (update b)) ++ rest)) s = Machine.runPorts rest u
      ∧ u.Summing replies (sums m) := by
  obtain ⟨u, run, summed⟩ := updates.runPorts m started
  refine ⟨u, ?_, summed⟩
  rw [Machine.runPorts, portStep_present idle wf, effect]
  exact runPorts_append run

/-- The end of a CRC call: the finished check is in RES, and is read there. -/
theorem runPorts_fin {r : Word} (idle : s.rxmode = .idle) (wf : fin.WellFormed)
    (effect : exec fin s = .next (s.finish .ok .none r)) :
    runPorts [present fin, .regRead 2] s = .next ((s.finish .ok .none r).reply (.reg 2 r)) := by
  rw [runPorts, portStep_present idle wf, effect]
  rfl

end

theorem crc16Upd_updates (replies : List Reply) : Updates .crc16Upd replies fun m s => s.crc16 = crc16Of m := fun b =>
  ⟨rfl, fun got _ h => ⟨_, rfl, rfl, h.replies,
    (congrArg (crc16Step · b) h.sums).trans (crc16Of_concat got b).symm⟩⟩

theorem crc32Upd_updates (replies : List Reply) : Updates .crc32Upd replies fun m s => s.crc32 = crc32Run m := fun b =>
  ⟨rfl, fun got _ h => ⟨_, rfl, rfl, h.replies,
    (congrArg (crc32Step · b) h.sums).trans (crc32Run_concat got b).symm⟩⟩

/-- The sum has no command of its own to finish it: RES holds it after every command. -/
theorem sum8Upd_updates (replies : List Reply) :
    Updates .sum8Upd replies fun m s => s.sum8 = sum8Of m ∧ s.res = s.sum8.setWidth 32 := fun b =>
  ⟨rfl, fun got _ h => ⟨_, rfl, rfl, h.replies,
    (congrArg (sum8Step · b) h.sums.1).trans (sum8Of_concat got b).symm, rfl⟩⟩

theorem runPorts_callCrc16 (idle : s.rxmode = .idle) (m : List Byte) :
    ∃ t, runPorts (callCrc16 m) s = .next t ∧ t.crc16 = crc16Of m
      ∧ t.replies = s.replies ++ [.reg 2 ((crc16Of m).setWidth 32)] := by
  obtain ⟨t, run, summed⟩ := (crc16Upd_updates s.replies).runPorts_call idle (init := .crc16Init) rfl rfl
    ⟨rfl, rfl, rfl⟩ m [present .crc16Fin, .regRead 2]
  refine ⟨_, run.trans (runPorts_fin summed.idle rfl rfl), summed.sums, ?_⟩
  rw [← summed.replies, ← summed.sums]
  rfl

theorem runPorts_callCrc32 (idle : s.rxmode = .idle) (m : List Byte) :
    ∃ t, runPorts (callCrc32 m) s = .next t ∧ t.crc32 = ~~~ crc32Of m
      ∧ t.replies = s.replies ++ [.reg 2 (crc32Of m)] := by
  obtain ⟨t, run, summed⟩ := (crc32Upd_updates s.replies).runPorts_call idle (init := .crc32Init) rfl rfl
    ⟨rfl, rfl, rfl⟩ m [present .crc32Fin, .regRead 2]
  rw [crc32Of, ← summed.sums, ← summed.replies, BitVec.not_not]
  exact ⟨_, run.trans (runPorts_fin summed.idle rfl rfl), rfl, rfl⟩

theorem runPorts_callSum8 (idle : s.rxmode = .idle) (m : List Byte) :
    ∃ t, runPorts (callSum8 m) s = .next t ∧ t.sum8 = sum8Of m
      ∧ t.replies = s.replies ++ [.reg 2 ((sum8Of m).setWidth 32)] := by
  obtain ⟨t, run, summed⟩ := (sum8Upd_updates s.replies).runPorts_call idle (init := .sum8Init) rfl rfl
    ⟨rfl, rfl, rfl, rfl⟩ m [.regRead 2]
  obtain ⟨sum, res⟩ := summed.sums
  refine ⟨t.reply (.reg 2 t.res), run, sum, ?_⟩
  rw [← summed.replies, ← sum, ← res]
  rfl

/-- Settles O23, call by call, by induction over the message. -/
theorem checksumCalls : Obligations.ChecksumCalls := fun _ m idle =>
  ⟨runPorts_callCrc16 idle m, runPorts_callCrc32 idle m, runPorts_callSum8 idle m⟩

/-! ### How an RX event ends (R177; 60_exceptions R186) -/

/-- The outcomes that an RX event can complete with (60_exceptions R180). -/
def eventOutcomes : List CmdOutcome := [.ok, .timedOut, .corrupt, .overrun, .abort, .ended]

/-- An RX event leaves RXMODE and RES alone, or completes the command with RES 0. -/
def State.Settles (s t : State) : Prop :=
  (t.rxmode = s.rxmode ∧ t.res = s.res) ∨ (t.rxmode = .idle ∧ t.outcome ∈ eventOutcomes ∧ t.res = 0)

theorem State.settles_finish {o : CmdOutcome} {c : Cause} (h : o ∈ eventOutcomes := by decide) :
    s.Settles (u.finish o c 0) := .inr ⟨rfl, h, rfl⟩

theorem State.settles_finishCheck (ok : Bool) : s.Settles (u.finishCheck ok) := by
  obtain ⟨_, e⟩ | ⟨_, e⟩ := u.finishCheck_cases ok <;> rw [e]
  · exact settles_finish
  · exact settles_finish

theorem hdrFinish_settles : s.Settles (hdrFinish u) := by
  obtain ⟨_, e⟩ | ⟨_, e⟩ := hdrFinish_cases u <;> rw [e]
  · exact State.settles_finish
  · exact State.settles_finish

theorem HdrRawCase.settles {w : Byte} (c : HdrRawCase w s t) : s.Settles t := by
  cases c with
  | abort => exact State.settles_finish
  | hunt => exact .inl ⟨rfl, rfl⟩
  | start => exact .inl (by simp [startBody])
  | badDigit => exact State.settles_finish
  | highDigit => exact .inl ⟨rfl, rfl⟩
  | lowDigit _ _ _ _ _ hj =>
    obtain ⟨_, e⟩ := hdrAfterLowDigit_eq _ _ hj _
    rw [e]
    exact .inl ⟨rfl, rfl⟩
  | lastDigit => exact hdrFinish_settles

theorem HdrBinCase.settles {w : Byte} (c : HdrBinCase w s t) : s.Settles t := by
  cases c with
  | abort => exact State.settles_finish
  | escape => exact .inl ⟨rfl, rfl⟩
  | frameEnd => exact State.settles_finish
  | badEscape => exact State.settles_finish
  | more b _ hj =>
    obtain ⟨_, _, e⟩ := hdrAfterBodyByte_eq (s.escDec w).2 hj b
    rw [e]
    exact .inl ⟨rfl, rfl⟩
  | last => exact hdrFinish_settles

theorem SpkCase.settles {w : Byte} (c : SpkCase w s t) : s.Settles t := by
  cases c with
  | abort => exact State.settles_finish
  | escape => exact .inl ⟨rfl, rfl⟩
  | badEscape => exact State.settles_finish
  | overrun => exact State.settles_finish
  | payload => exact .inl (by simp)
  | trailer => exact .inl ⟨rfl, rfl⟩
  | last => exact State.settles_finishCheck _
  | frameEnd => exact .inl (by simp)
  | strayFrameEnd => exact State.settles_finish

theorem XbkCase.settles {w : Byte} (c : XbkCase w s t) : s.Settles t := by
  cases c with
  | abort => exact State.settles_finish
  | start => exact .inl ⟨rfl, rfl⟩
  | ended => exact State.settles_finish
  | cancel => exact .inl ⟨rfl, rfl⟩
  | badStart => exact State.settles_finish
  | number => exact .inl ⟨rfl, rfl⟩
  | complement => exact .inl ⟨rfl, rfl⟩
  | badComplement => exact State.settles_finish
  | payload => exact .inl (by simp [xbkAfterPayloadByte])
  | lastPayload => exact .inl (by simp [xbkAfterPayloadByte])
  | sum => exact State.settles_finishCheck _
  | crcHigh => exact .inl ⟨rfl, rfl⟩
  | crcLow => exact State.settles_finishCheck _

theorem hdrRxEvent_settles {ev : RxEvent} (h : hdrRxEvent ev s = .next t) : s.Settles t := by
  obtain ⟨_, rfl⟩ | ⟨w, _, ⟨_, raw⟩ | ⟨_, _, bin⟩⟩ := hdrRxEvent_cases h
  · exact State.settles_finish
  · exact raw.settles
  · exact bin.settles

theorem spkRxEvent_settles {ev : RxEvent} (h : spkRxEvent ev s = .next t) : s.Settles t := by
  obtain ⟨_, rfl⟩ | ⟨w, _, byte⟩ := spkRxEvent_cases h
  · exact State.settles_finish
  · exact byte.settles

theorem xbkRxEvent_settles {ev : RxEvent} (h : xbkRxEvent ev s = .next t) : s.Settles t := by
  obtain ⟨_, rfl⟩ | ⟨w, _, byte⟩ := xbkRxEvent_cases h
  · exact State.settles_finish
  · exact byte.settles

/-- An RX event is accepted only while a command is active (R50), and either goes on or completes it. -/
theorem rxPort_settles {ev : RxEvent} (h : rxPort ev s = .next t) : s.rxmode ≠ .idle ∧ s.Settles t := by
  cases m : s.rxmode with
  | idle => rw [rxPort, m] at h; cases h
  | hdr => exact ⟨nofun, hdrRxEvent_settles (rxPort_of_hdr m ev ▸ h)⟩
  | spk => exact ⟨nofun, spkRxEvent_settles (rxPort_of_spk m ev ▸ h)⟩
  | xbk => exact ⟨nofun, xbkRxEvent_settles (rxPort_of_xbk m ev ▸ h)⟩

/-- Settles O55: by the cases of an event; a command that stays active has OUTCOME and CAUSE None by the invariant after the
event. -/
theorem eventCompletesInOneStep : Obligations.EventCompletesInOneStep := by
  intro s t ev inv h
  obtain ⟨busy, goesOn | completes⟩ := rxPort_settles h
  · obtain ⟨rxmode, res⟩ := goesOn
    obtain ⟨outcome, cause⟩ := (rxPort_inv inv h).pending (rxmode.symm ▸ busy)
    exact .inl ⟨rxmode, outcome, cause, res⟩
  · exact .inr completes

end Sys2Proof.Machine
end

section
/-! How a command ends (60_exceptions R180, R183 to R185): a word of no row, a bad operand, and the outcome of each command. -/

namespace Sys2Proof.Machine

variable {s : State} {maxlen : Nat}

/-! ### IllegalCommand (R183) -/

/-- Settles O7: the command port completes an accepted word that decodes to nothing, on the state whose agenda has moved
on. -/
theorem illegalWordCompletes : Obligations.IllegalWordCompletes := by
  intro s w rest r presented idle word
  rw [step, presented]
  exact commandPort_of_error (s := { s with agenda := rest }) (.inl idle) word

/-! ### BadOperand (R184) -/

theorem exec_hdrTx_bad : exec (.hdrTx .reserved) s = .next (s.finish .badOperand .none 0) := rfl

theorem exec_spkRx_bad (h : s.henc = .reserved ∨ s.size < maxlen) :
    exec (.spkRx maxlen) s = .next (s.finish .badOperand .none 0) :=
  if_pos (by simpa [State.spkRxBad] using h)

/-- Settles O18, by the operand check of each command that has one. -/
theorem badOperandChangesNothingElse : Obligations.BadOperandChangesNothingElse := by
  intro s i bad
  cases i with
  | hdrTx enc =>
    obtain rfl : enc = .reserved := bad
    exact exec_hdrTx_bad
  | spkTx enc fe len => exact exec_spkTx_bad bad
  | spkRx maxlen => exact exec_spkRx_bad bad
  | xbkTx mode len => exact exec_xbkTx_bad mode bad
  | _ => exact bad.elim

/-! ### The outcome of each command (R180, R185) -/

/-- Settles O56, command by command; those with an operand check by whether it refuses the operand. -/
theorem commandOutcomes : Obligations.CommandOutcomes := by
  intro s i
  cases i with
  | hdrRx => exact ⟨_, rfl, rfl, rfl, rfl⟩
  | xbkRx mode => exact ⟨_, rfl, by simp⟩
  | hdrTx enc => cases enc <;> exact ⟨_, rfl, rfl, rfl, rfl⟩
  | spkTx enc fe len =>
    by_cases bad : enc = .reserved ∨ s.size < len
    · exact ⟨_, exec_spkTx_bad bad, rfl, rfl, (if_pos bad).symm⟩
    · obtain ⟨named, fits⟩ := not_or.mp bad
      exact ⟨_, exec_spkTx named (not_lt.mp fits), rfl, rfl, (if_neg bad).symm⟩
  | spkRx maxlen =>
    by_cases bad : s.henc = .reserved ∨ s.size < maxlen
    · exact ⟨_, exec_spkRx_bad bad, rfl, (if_pos bad).mpr ⟨rfl, rfl⟩⟩
    · obtain ⟨named, fits⟩ := not_or.mp bad
      exact ⟨_, exec_spkRx named (not_lt.mp fits), by simp [spkStart], (if_neg bad).mpr (by simp [spkStart])⟩
  | xbkTx mode len =>
    by_cases bad : 128 < len
    · exact ⟨_, exec_xbkTx_bad mode bad, rfl, rfl, (if_pos bad).symm⟩
    · exact ⟨_, exec_xbkTx mode (not_lt.mp bad), rfl, rfl, (if_neg bad).symm⟩
  | _ => exact ⟨_, rfl, rfl, rfl, rfl⟩

end Sys2Proof.Machine
end
